-- ==== Sys2Proof/Word.lean ====
section
/-! DEFINITION. The byte and the 32-bit word of CORE (spec R8, R9). -/

namespace Sys2Proof

/-- A byte: 8 bits, an unsigned value in 0..255 (R8). -/
abbrev Byte := BitVec 8

/-- A host-visible register, a length or an offset: 32 bits, unsigned (R9, R22). -/
abbrev Word := BitVec 32

end Sys2Proof
end

