-- ==== Sys2Proof/Config.lean ====
section
/-! DEFINITION. What an implementation fixes (R6, R7, R43), the constants of the register map, and the free values (`any`, R11). -/

namespace Sys2Proof

/-- The implementation parameters a model takes as arguments (R6): the capacities of the two buffers in bytes and the
width in bits of the decoder's sum of counts. The constraints on them (R7) are `Params.wf`. Not modelled as parameters:
LATENCY (it is the schedule, log 4), BASE_REG, BASE_IN, BASE_OUT and HOST_BUS (platform, U20, log 16). -/
structure Params where
  inCap  : Nat
  outCap : Nat
  accW   : Nat
  deriving DecidableEq, Repr

/-- The parameter instance P0 of `95_test_vectors.md` section 0. DESIGN CHOICE (log 1): the one instance `State.reset`
carries. The spec leaves the parameters OPEN, so a claim quantifies over `Params`. -/
def Config.p0 : Params := { inCap := 512, outCap := 1024, accW := 16 }

/-- The constant ID register (R24). -/
def Config.idValue : Word := 0x524C4501#32

/-- `any` (R11): the value of the k-th unspecified byte drawn. A FREE VALUE (log 2): it has no body, so nothing can be
proved of it, and a claim about it holds whatever the byte is. -/
opaque Config.freeByte : Nat → Byte

end Sys2Proof
end

