-- ==== Sys2Proof/Syntax.lean ====
section
/-! DEFINITION. The instructions of `opcode_table.json`, whole, and the host transactions of R60 and R103. -/

namespace Sys2Proof

/-- One constructor per row of the opcode table. Operands are implicit (R93), so no constructor has an argument. -/
inductive Instr where
  /-- CMD.OP = 0, reserved: BAD_COMMAND (R91, R203). -/
  | reservedOp0
  /-- CMD.OP = 1, run-length compress (R125). -/
  | rleEnc
  /-- CMD.OP = 2, run-length decompress (R128). -/
  | rleDec
  /-- CMD.OP = 3, adaptive compress (R161). -/
  | adpComp
  /-- CMD.OP = 4, adaptive decompress (R163). -/
  | adpDec
  /-- CMD.OP = 5, reserved: BAD_COMMAND (R91, R203). -/
  | reservedOp5
  /-- CMD.OP = 6, reserved: BAD_COMMAND (R91, R203). -/
  | reservedOp6
  /-- CMD.OP = 7, reserved: BAD_COMMAND (R91, R203). -/
  | reservedOp7
  /-- Tag byte 0x52 of an adaptive stream: the payload is a run-length stream (R96). -/
  | tagR
  /-- Tag byte 0x49 of an adaptive stream: the payload is the raw buffer (R96). -/
  | tagI
  deriving DecidableEq, Repr

/-- The two opcode spaces, the table's column "format" (R90, R96). -/
inductive Format where
  /-- The 32-bit command word. -/
  | cmd
  /-- The 8-bit tag at IN_BUF[0]. -/
  | adaptiveTag
  deriving DecidableEq, Repr

/-- The region selector of a host transaction, 2 bits (R60). -/
inductive Region where
  | reg
  | inp
  | out
  | reserved
  deriving DecidableEq, Repr

/-- A host transaction (R60): kind, region, 32-bit offset, width, and write data for the writes, under the mnemonics of
R103. -/
inductive Txn where
  | rd8 (r : Region) (off : Word)
  | rd32 (r : Region) (off : Word)
  | wr8 (r : Region) (off : Word) (d : Byte)
  | wr32 (r : Region) (off : Word) (d : Word)
  deriving DecidableEq, Repr

end Sys2Proof
end

