-- ==== Sys2Proof/WellFormed.lean ====
section
/-! DEFINITION. The checks: parameters (R7), transaction records (R104), run-length payloads (R97, R98) and adaptive streams
(R95, R96, R99). An `Instr` has no operands (R93), so every term of it is well-formed and there is no check on it. -/

namespace Sys2Proof

/-- The constraints of R7 on the parameters. An instance that breaks one is not a CORE instance. -/
def Params.wf (p : Params) : Bool :=
  decide (1 ≤ p.inCap) && decide (2 * p.inCap ≤ p.outCap) && decide (p.outCap ≤ 2 ^ 32 - 1) &&
    decide (255 * (p.inCap / 2) ≤ 2 ^ p.accW - 1)

/-- The record of a transaction in its one spelling (R104): the four bits above the hexadecimal digit `h` are 0 (log 10),
the data of a read is 0, and the data of an 8-bit write is in bits 7:0. -/
def recordWf (w : BitVec 72) : Bool :=
  (w.extractLsb' 68 4 == 0#4) &&
    (if w[67] then w[64] || (w.extractLsb' 8 24 == 0#24) else w.extractLsb' 0 32 == 0#32)

/-- A valid run-length payload (R97, R98): an even number of bytes, no count byte 0. -/
def payloadWf : List Byte → Bool
  | [] => true
  | [_] => false
  | _ :: c :: rest => (c != 0#8) && payloadWf rest

/-- A well-formed adaptive stream (R95, R99): empty, or tag 0x52 and a valid run-length payload, or tag 0x49 and any bytes. -/
def adaptiveWf : List Byte → Bool
  | [] => true
  | t :: payload => (t == 0x52#8 && payloadWf payload) || t == 0x49#8

end Sys2Proof
end

