-- ==== Sys2Proof/Decode.lean ====
section
/-! DEFINITION. Decoding the command word (R90, R91), the adaptive tag (R96) and the 72-bit transaction record (R104), total and
rejecting by name; and the encoders, written from the same tables. -/

namespace Sys2Proof

/-- Why bytes or a record are no encoding. -/
inductive Reject where
  /-- Fewer bytes than the format's word has. -/
  | truncated (f : Format)
  /-- One of the 254 reserved tag bytes (R96). -/
  | unknownTag (t : Byte)
  /-- A record whose four bits above the digit `h` are not 0 (R104, log 10). -/
  | recordPadding
  /-- A read record whose data is not 0 (R104). -/
  | readWithData
  deriving DecidableEq, Repr

/-- Tag byte `R` (R96). -/
def tagByteR : Byte := 0x52#8

/-- Tag byte `I` (R96). -/
def tagByteI : Byte := 0x49#8

/-- The OP map (R91). Every 3-bit value has an instruction. -/
def decodeOp (op : BitVec 3) : Instr :=
  match op.toNat with
  | 0 => .reservedOp0
  | 1 => .rleEnc
  | 2 => .rleDec
  | 3 => .adpComp
  | 4 => .adpDec
  | 5 => .reservedOp5
  | 6 => .reservedOp6
  | _ => .reservedOp7

/-- The command word: OP in bits 2:0, bits 31:3 ignored (R90). -/
def decodeCmd (w : Word) : Instr := decodeOp (w.extractLsb' 0 3)

/-- The tag of an adaptive stream: exactly 0x52 or 0x49 (R96). -/
def decodeTag (t : Byte) : Except Reject Instr :=
  if t = tagByteR then .ok .tagR
  else if t = tagByteI then .ok .tagI
  else .error (.unknownTag t)

/-- The bytes of a word, least significant first: the packing of the host port (R64, log 9). -/
def wordBytes (w : Word) : List Byte :=
  [w.extractLsb' 0 8, w.extractLsb' 8 8, w.extractLsb' 16 8, w.extractLsb' 24 8]

/-- Four bytes as a word, the first byte the least significant (R64). -/
def packWord (b0 b1 b2 b3 : Byte) : Word := b3 ++ b2 ++ b1 ++ b0

/-- Decode one instruction of a format from bytes, with the bytes that follow it. -/
def decode (f : Format) (bs : List Byte) : Except Reject (Instr × List Byte) :=
  match f, bs with
  | .cmd, b0 :: b1 :: b2 :: b3 :: rest => .ok (decodeCmd (packWord b0 b1 b2 b3), rest)
  | .adaptiveTag, t :: rest => (decodeTag t).map fun i => (i, rest)
  | f, _ => .error (.truncated f)

/-- The word of an instruction in its format (R91, R96): reserved bits written as 0 (R90). -/
def encode (i : Instr) : Format × List Byte :=
  match i with
  | .reservedOp0 => (.cmd, wordBytes 0#32)
  | .rleEnc => (.cmd, wordBytes 1#32)
  | .rleDec => (.cmd, wordBytes 2#32)
  | .adpComp => (.cmd, wordBytes 3#32)
  | .adpDec => (.cmd, wordBytes 4#32)
  | .reservedOp5 => (.cmd, wordBytes 5#32)
  | .reservedOp6 => (.cmd, wordBytes 6#32)
  | .reservedOp7 => (.cmd, wordBytes 7#32)
  | .tagR => (.adaptiveTag, [tagByteR])
  | .tagI => (.adaptiveTag, [tagByteI])

/-- How many bytes a word of the format has: a 32-bit CMD word, an 8-bit tag. -/
def formatBytes (f : Format) : Nat :=
  match f with
  | .cmd => 4
  | .adaptiveTag => 1

/-- The start word (R92): `IE << 1 | 1`. -/
def startWord (ie : Bool) : Word := if ie then 3#32 else 1#32

/-- The opcode space of a table word. The table's two spaces overlap on one byte: as an 8-bit word, 0x52 and 0x49 are the
tags; every other word is a command word, whose bits 31:3 are ignored (R90). DESIGN CHOICE, log 8. -/
def tableFormat (nbits w : Nat) : Format :=
  if nbits = 8 ∧ (w = tagByteR.toNat ∨ w = tagByteI.toNat) then .adaptiveTag else .cmd

/-- The bytes of a table word as the hardware stores them: one tag byte, or the four bytes of CMD, lowest first. -/
def tableBytes (nbits w : Nat) : List Byte :=
  match tableFormat nbits w with
  | .cmd => wordBytes (BitVec.ofNat 32 w)
  | .adaptiveTag => [BitVec.ofNat 8 w]

/-- The instruction this decoder reads from a word numbered as `opcode_table.json` numbers it. No instruction has more
than 32 bits. -/
def decodeTableWord (nbits w : Nat) : Option Instr :=
  if nbits ≤ 32 then
    match decode (tableFormat nbits w) (tableBytes nbits w) with
    | .ok (i, _) => some i
    | .error _ => none
  else none

/-- The 2-bit region selector (R60). -/
def encodeRegion (r : Region) : BitVec 2 :=
  match r with
  | .reg => 0#2
  | .inp => 1#2
  | .out => 2#2
  | .reserved => 3#2

/-- The region of a 2-bit selector (R60). -/
def decodeRegion (b : BitVec 2) : Region :=
  match b.toNat with
  | 0 => .reg
  | 1 => .inp
  | 2 => .out
  | _ => .reserved

/-- The digit h of a record: `kind << 3 | region << 1 | w32` (R104). -/
def recordDigit (write : Bool) (r : Region) (w32 : Bool) : BitVec 4 :=
  ((BitVec.ofBool write).setWidth 4 <<< 3) ||| ((encodeRegion r).setWidth 4 <<< 1) ||| (BitVec.ofBool w32).setWidth 4

/-- A record laid out as R104 says: h, the 32-bit offset, the 32-bit data; the four bits above h are 0 (log 10). -/
def packRecord (write : Bool) (r : Region) (w32 : Bool) (off data : Word) : BitVec 72 :=
  ((recordDigit write r w32).setWidth 72 <<< 64) ||| (off.setWidth 72 <<< 32) ||| data.setWidth 72

/-- The record of a transaction (R104). -/
def encodeRecord (t : Txn) : BitVec 72 :=
  match t with
  | .rd8 r off => packRecord false r false off 0#32
  | .rd32 r off => packRecord false r true off 0#32
  | .wr8 r off d => packRecord true r false off (d.setWidth 32)
  | .wr32 r off d => packRecord true r true off d

/-- The transaction of a record (R104). Bits 31:8 of an 8-bit write's data are ignored, as R63 takes `wdata[7:0]` (log 10). -/
def decodeRecord (w : BitVec 72) : Except Reject Txn :=
  let r := decodeRegion (w.extractLsb' 65 2)
  let off := w.extractLsb' 32 32
  if w.extractLsb' 68 4 ≠ 0#4 then .error .recordPadding
  else if w[67] then
    if w[64] then .ok (.wr32 r off (w.extractLsb' 0 32)) else .ok (.wr8 r off (w.extractLsb' 0 8))
  else if w.extractLsb' 0 32 ≠ 0#32 then .error .readWithData
  else if w[64] then .ok (.rd32 r off) else .ok (.rd8 r off)

end Sys2Proof
end

