-- ==== Sys2Proof/Machine/State.lean ====
section
/-! DEFINITION. The state of CORE as plain data, what stops a step, and the state after reset. -/

namespace Sys2Proof.Machine

/-- Why a step faults: it never does. CORE has no trap mechanism (`60_exceptions.md`), an error completion is a next state
(R207), and no behaviour of CORE is stuck (U22), so this type has no constructor. -/
inductive Fault where
  deriving DecidableEq, Repr

/-- Why a step has no meaning. -/
inductive Refusal where
  /-- Raised by `exec` for an instruction whose meaning is not written yet (none is left). Safe: the model stops where the
  hardware goes on. -/
  | notModelled (mnemonic : String)
  /-- Raised by `step` when the parameters break R7: "An instance whose parameters break a constraint is not a CORE instance,
  and a model may refuse it". Safe: no CORE instance is refused (log 15). -/
  | notACoreInstance
  deriving DecidableEq, Repr

/-- A buffer: its bytes that hold a value, by index, strictly rising. An index that is not listed holds an unspecified byte
(`any`, R68, R242): reading it draws a free value (log 2). The canonical form is `Memory.wf`. -/
abbrev Memory := List Host.Cell

/-- The reference sequencer's states. R42 lists their names and does not say what each stands for: which pass of R124, R131 and R168
runs in which is the model's DESIGN CHOICE (log 21). -/
inductive EngSt where
  /-- IDLE: no command; STATUS.BUSY = 0 (R37). -/
  | idle
  /-- CHECK, as the model takes it (log 21): the tests of R94 before any pass, and the read of ADP_DEC's tag (R168). -/
  | check
  /-- P1, as the model takes it (log 21): the SIZE pass of R124 and of R168, and the pass that R131 calls CHECK. -/
  | p1
  /-- P2, as the model takes it (log 21): the EMIT pass (R124), the EXPAND pass (R131), the verbatim copy (R168). -/
  | p2
  /-- END, as the model takes it (log 21): the result is pending in `resC` and `resP` (R42) until completion. -/
  | fin
  deriving DecidableEq, Repr

/-- The engine: its state and the hidden working registers of R42, at the widths given there. -/
structure Engine where
  /-- `eng_st`. -/
  st    : EngSt
  /-- `op_l`: CMD.OP latched at acceptance (R37). -/
  opL   : BitVec 3
  /-- `n_l`: IN_LEN latched at acceptance (R37). -/
  nL    : Word
  /-- `rd`: the next IN_BUF index to read (R38). -/
  rd    : Word
  /-- `wr`: the next OUT_BUF index to write. -/
  wr    : Word
  /-- `cur_v`: the value of the run being scanned or of the pair being expanded; the tag in ADP_DEC (R168). -/
  curV  : Byte
  /-- `run_c`: the length of the current piece of run; 0 when no run is open (log 11). -/
  runC  : Byte
  /-- `pairs`: pairs counted by the SIZE pass. -/
  pairs : Word
  /-- `acc`: the sum of counts, ACC_W bits wide, so a number below `2 ^ ACC_W` (R127, log 13). -/
  acc   : Nat
  /-- `sel`: 1 = tag R, 0 = tag I. -/
  sel   : Bool
  /-- `res_c`: the pending error code. -/
  resC  : BitVec 4
  /-- `res_p`: the pending error position. -/
  resP  : Word
  deriving DecidableEq, Repr

/-- The engine after reset: IDLE, every working register 0 (R42, R240). -/
def Engine.reset : Engine :=
  { st := .idle, opL := 0#3, nL := 0#32, rd := 0#32, wr := 0#32, curV := 0#8, runC := 0#8, pairs := 0#32, acc := 0,
    sel := false, resC := 0#4, resP := 0#32 }

/-- One item of the total order of host transactions and engine steps (R73), and the reset input (R240). -/
inductive Event where
  /-- The host issues a transaction. -/
  | host (t : Txn)
  /-- The reset input is pulsed. -/
  | reset
  /-- The engine takes one internal step, which the host cannot see (R41). -/
  | work
  /-- The engine takes its completion step, if it is Busy (R40). -/
  | complete
  deriving DecidableEq, Repr

/-- The state of one CORE instance. -/
structure State where
  /-- IN_CAP, OUT_CAP and ACC_W: configuration, which no step changes (R43, log 1). -/
  cfg      : Params
  /-- CTRL.IE (R25). CTRL.START is write-only and stores nothing. -/
  ie       : Bool
  /-- CMD.OP (R26). -/
  op       : BitVec 3
  /-- STATUS.DONE (R27). -/
  done     : Bool
  /-- STATUS.IGN (R27). -/
  ign      : Bool
  /-- STATUS.ERRCODE (R27, R200). -/
  errcode  : BitVec 4
  /-- IN_LEN (R28). -/
  inLen    : Word
  /-- OUT_LEN (R29). -/
  outLen   : Word
  /-- ERR_POS (R30). -/
  errPos   : Word
  /-- IN_BUF (R35). -/
  inBuf    : Memory
  /-- OUT_BUF (R36). -/
  outBuf   : Memory
  /-- The engine and its working registers (R37, R42). STATUS.BUSY is `State.busy`, read from here (log 12). -/
  eng      : Engine
  /-- The model's own: what happens next, oldest first (R73, log 4). -/
  sched    : List Event
  /-- The model's own: the values the host's reads returned, newest first (R103, log 14). -/
  returned : List Word
  /-- The model's own: the number of unspecified bytes drawn so far (R11, log 2). -/
  draws    : Nat
  deriving DecidableEq, Repr

/-- STATUS.BUSY: 1 exactly when the engine is Busy (R37). -/
def State.busy (s : State) : Bool := s.eng.st != .idle

/-- The state after reset of the instance with parameters `p` (R23, R240 to R242): every register field 0, the engine Idle,
no buffer byte holding a value. -/
def State.resetOf (p : Params) : State :=
  { cfg := p, ie := false, op := 0#3, done := false, ign := false, errcode := 0#4, inLen := 0#32, outLen := 0#32,
    errPos := 0#32, inBuf := [], outBuf := [], eng := Engine.reset, sched := [], returned := [], draws := 0 }

/-- The state after reset, of the instance P0 (DESIGN CHOICE, log 1: the spec leaves the parameters open). -/
def State.reset : State := State.resetOf Config.p0

end Sys2Proof.Machine
end

