-- ==== Sys2Proof/Machine/Codec.lean ====
section
/-! DEFINITION. The codec's pure functions: error codes (R200), results (R12), run-length coding (R120 to R127) and the adaptive
format (R160, R162). Lengths and counts are exact natural numbers (R9). -/

namespace Sys2Proof.Machine

/-- The error codes 1 to 5 (R200). Codes 6 to 15 are never produced (R206), so they have no constructor. -/
inductive ErrCode where
  /-- MALFORMED_INPUT (R201). -/
  | malformedInput
  /-- UNKNOWN_FORMAT (R202). -/
  | unknownFormat
  /-- BAD_COMMAND (R203). -/
  | badCommand
  /-- LENGTH_ERROR (R204). -/
  | lengthError
  /-- OUT_CAPACITY (R205). -/
  | outCapacity
  deriving DecidableEq, Repr

/-- The number of an error code in STATUS.ERRCODE (R200). -/
def ErrCode.code (c : ErrCode) : BitVec 4 :=
  match c with
  | .malformedInput => 1#4
  | .unknownFormat => 2#4
  | .badCommand => 3#4
  | .lengthError => 4#4
  | .outCapacity => 5#4

/-- A command's result: an output sequence, or an error with its position; never both (R12). -/
inductive Result where
  | ok (y : List Byte)
  | err (c : ErrCode) (pos : Word)
  deriving DecidableEq, Repr

/-- `runs(x)`: the runs of x in order, each a value and its length (R120). -/
def runs : List Byte → List (Byte × Nat)
  | [] => []
  | b :: x =>
    match runs x with
    | (v, n) :: rs => if b = v then (v, n + 1) :: rs else (b, 1) :: (v, n) :: rs
    | [] => [(b, 1)]

/-- `split(v, L)`: pairs of count 255, then the remainder if there is one (R121, C2). -/
def split (v : Byte) (L : Nat) : List (Byte × Nat) :=
  List.replicate (L / 255) (v, 255) ++ if L % 255 > 0 then [(v, L % 255)] else []

/-- The pairs of the run-length form of x: every run, split (R122). -/
def rlePairs (x : List Byte) : List (Byte × Nat) := (runs x).flatMap fun r => split r.1 r.2

/-- A list of pairs as flat bytes, value then count (R122, R71). -/
def flatten (ps : List (Byte × Nat)) : List Byte := ps.flatMap fun p => [p.1, BitVec.ofNat 8 p.2]

/-- `rle_encode(x)` (R122). -/
def rleEncode (x : List Byte) : List Byte := flatten (rlePairs x)

/-- `rle_len(x)` (R123). -/
def rleLen (x : List Byte) : Nat := (rleEncode x).length

/-- The index of the first count byte equal to 0 among the complete pairs of a payload (R126). -/
def firstZeroCount : List Byte → Option Nat
  | _ :: c :: p => if c = 0#8 then some 1 else (firstZeroCount p).map (· + 2)
  | _ => none

/-- The expansion of the complete pairs of a payload: each value repeated its count of times (R126). -/
def expandPairs : List Byte → List Byte
  | v :: c :: p => List.replicate c.toNat v ++ expandPairs p
  | _ => []

/-- `rle_decode_check(p, base)`: a zero count first, then an odd length, else the expansion (R126, R208). -/
def rleDecodeCheck (p : List Byte) (base : Nat) : Result :=
  match firstZeroCount p with
  | some k => .err .malformedInput (BitVec.ofNat 32 (base + k))
  | none =>
    if p.length % 2 = 1 then .err .malformedInput (BitVec.ofNat 32 (base + p.length - 1))
    else .ok (expandPairs p)

/-- `adp_compress(x)`: the strictly smaller run-length form behind tag `R`, else the bytes behind tag `I` (R160, R166, C1). -/
def adpCompress (x : List Byte) : List Byte :=
  if x = [] then []
  else if 1 + rleLen x < 1 + x.length then tagByteR :: rleEncode x
  else tagByteI :: x

/-- `adp_decompress_check(z)` (R162). -/
def adpDecompressCheck (z : List Byte) : Result :=
  match z with
  | [] => .ok []
  | t :: payload =>
    if t = tagByteR then rleDecodeCheck payload 1
    else if t = tagByteI then .ok payload
    else .err .unknownFormat 0#32

/-- The capacity test of R94 on a result: an output longer than OUT_CAP is OUT_CAPACITY (R205). -/
def capacityTest (p : Params) (r : Result) : Result :=
  match r with
  | .ok y => if p.outCap < y.length then .err .outCapacity 0#32 else .ok y
  | .err c pos => .err c pos

end Sys2Proof.Machine
end

