-- ==== Sys2Proof/Machine/Ops.lean ====
section
/-! DEFINITION. The shared operations: the buffers' bytes, the unspecified byte, the engine's accesses (R70), acceptance (R39),
completion (R40), recording an error (R207), the reset event (R240), and the fetch point. -/

namespace Sys2Proof.Machine

/-- The byte at an index, if it holds a value. -/
def Memory.lookup : Memory → Nat → Option Byte
  | [], _ => none
  | (k, v) :: m, a => if k = a then some v else Memory.lookup m a

/-- The memory with byte b at index a, kept in rising order with no index twice. -/
def Memory.store : Memory → Nat → Byte → Memory
  | [], a, b => [(a, b)]
  | (k, v) :: m, a, b =>
    if a < k then (a, b) :: (k, v) :: m
    else if a = k then (a, b) :: m
    else (k, v) :: Memory.store m a b

/-- The memory that holds exactly these bytes, from an index on. -/
def Memory.ofBytes : Nat → List Byte → Memory
  | _, [] => []
  | a, b :: bs => (a, b) :: Memory.ofBytes (a + 1) bs

/-- Indices strictly rising, from `lo` on, all below the capacity. -/
def Memory.wfFrom : Nat → Nat → Memory → Bool
  | _, _, [] => true
  | lo, cap, (k, _) :: m => decide (lo ≤ k) && decide (k < cap) && Memory.wfFrom (k + 1) cap m

/-- The canonical form of a buffer of a capacity: strictly rising indices, each below the capacity (R35, R36, R60). An
unlisted index reads as a free value, which is no byte, so no listed entry can equal it. -/
def Memory.wf (cap : Nat) (m : Memory) : Bool := Memory.wfFrom 0 cap m

/-- Draw one unspecified byte (`any`, R11): the next free value. A fresh draw at each observation (R68). -/
def drawByte (s : State) : Byte × State := (Config.freeByte s.draws, { s with draws := s.draws + 1 })

/-- `InRead(i)` (R11, R70): byte i of IN_BUF; a byte not written since reset is unspecified (R242, U5, U6, log 3). -/
def inRead (i : Nat) (s : State) : Byte × State :=
  match Memory.lookup s.inBuf i with
  | some b => (b, s)
  | none => drawByte s

/-- `OutWrite(j, v)` (R11, R70). OUT_BUF has no byte at or above OUT_CAP, so nothing is written there. -/
def outWrite (j : Nat) (v : Byte) (s : State) : State :=
  if j < s.cfg.outCap then { s with outBuf := Memory.store s.outBuf j v } else s

/-- Acceptance of a START (R39): op_l and n_l latched, BUSY set, DONE, IGN, ERRCODE, OUT_LEN and ERR_POS cleared, every byte of
OUT_BUF unspecified. The working registers start at 0 (log 11). -/
def accept (s : State) : State :=
  { s with
    eng := { Engine.reset with st := .check, opL := s.op, nL := s.inLen }
    done := false, ign := false, errcode := 0#4, outLen := 0#32, errPos := 0#32, outBuf := [] }

/-- Recording an error, the one way a command fails (R207): ERRCODE and ERR_POS take the code and position, OUT_LEN is 0, every
byte of OUT_BUF is unspecified, BUSY is cleared, DONE set, the engine Idle. Nothing else is saved or changed: no vector,
no mode, no mask. There is no return operation (R211). -/
def recordError (c : ErrCode) (pos : Word) (s : State) : State :=
  { s with
    errcode := c.code, errPos := pos, outLen := 0#32, outBuf := [], done := true
    eng := { s.eng with st := .idle, resC := c.code, resP := pos } }

/-- Completion (R40): the output in OUT_BUF with every later byte unspecified, or the error recorded. -/
def complete (r : Result) (s : State) : State :=
  match r with
  | .ok y =>
    { s with
      errcode := 0#4, errPos := 0#32, outLen := BitVec.ofNat 32 y.length, outBuf := Memory.ofBytes 0 y, done := true
      eng := { s.eng with st := .idle, resC := 0#4, resP := 0#32 } }
  | .err c pos => recordError c pos s

/-- The reset event (R240): every register field, the engine and both buffers as after reset; the configuration stays. The
model's own fields stay too: what is still scheduled, what was returned, and how many bytes were drawn (log 2, log 20). -/
def resetEvent (s : State) : State :=
  { State.resetOf s.cfg with sched := s.sched, returned := s.returned, draws := s.draws }

/-- ADP_DEC has read its tag into cur_v and has not yet acted on it (R168, log 7, log 21). -/
def atTag (s : State) : Bool := s.eng.st == .check && s.eng.opL == 4#3 && s.eng.rd == 1#32

/-- The opcode space of the instruction the engine runs next: the latched command, or the adaptive tag (log 7). -/
def fetchFormat (s : State) : Format := if atTag s then .adaptiveTag else .cmd

/-- The bytes of the instruction the engine runs next: the tag in cur_v, or the command word of op_l, whose reserved bits
read 0 (R26, R78). -/
def fetchBytes (s : State) : List Byte :=
  if atTag s then [s.eng.curV] else wordBytes (s.eng.opL.setWidth 32)

/-- The instruction the engine runs next. -/
def fetch (s : State) : Except Reject Instr := (decode (fetchFormat s) (fetchBytes s)).map Prod.fst

end Sys2Proof.Machine
end

