-- ==== Sys2Proof/Machine/Operands.lean ====
section
/-! DEFINITION. The one operand form: the input `IN_BUF[0..n_l)`, implicit in every command (R93), and a command run on it. -/

namespace Sys2Proof.Machine

/-- The k bytes of IN_BUF from index i on, in index order (R71), each by `InRead`. -/
def readRange : Nat → Nat → State → List Byte × State
  | _, 0, s => ([], s)
  | i, k + 1, s =>
    ((inRead i s).1 :: (readRange (i + 1) k (inRead i s).2).1, (readRange (i + 1) k (inRead i s).2).2)

/-- The command's input `IN_BUF[0..n_l)` (R93). -/
def commandInput (s : State) : List Byte × State := readRange 0 s.eng.nL.toNat s

/-- Run a command on its input and complete: LENGTH_ERROR before any byte is read (R204), else the command's function, the
capacity test (R94), and completion (R40). -/
def runCommand (f : List Byte → Result) (s : State) : State :=
  if s.cfg.inCap < s.eng.nL.toNat then recordError .lengthError 0#32 s
  else complete (capacityTest s.cfg (f (commandInput s).1)) (commandInput s).2

end Sys2Proof.Machine
end

