-- ==== Sys2Proof/Machine/Datapath.lean ====
section
/-! DEFINITION. The reference engine's internal steps over the hidden working registers of R42: the loops of R124 (encoder), R131
(decoder) and R168 (selector), one loop test or body a step (log 11). Which pass runs in which value
of eng_st is the model's choice (log 21). The host sees none of it (R41); only the end state is normative, and completion (`exec`) does not depend on how far the datapath has come (U23). -/

namespace Sys2Proof.Machine

/-- The engine's registers rewritten. -/
def State.mapEng (s : State) (f : Engine → Engine) : State := { s with eng := f s.eng }

/-- `raise Error(c, pos)` of the reference passes (R11): the error is pending until completion. -/
def raisePending (c : ErrCode) (pos : Word) (s : State) : State :=
  s.mapEng fun e => { e with st := .fin, resC := c.code, resP := pos }

/-- `Ok(OUT_BUF[0..wr))` of the reference passes: success is pending until completion. -/
def okPending (s : State) : State := s.mapEng fun e => { e with st := .fin, resC := 0#4, resP := 0#32 }

/-- Enter the SIZE pass (R124) or the CHECK pass (R131), both in P1 (log 21), from the first byte of the payload. -/
def enterP1 (rd : Word) (s : State) : State :=
  s.mapEng fun e => { e with st := .p1, rd := rd, runC := 0#8, pairs := 0#32, acc := 0 }

/-- Enter the EMIT pass (R124), the EXPAND pass (R131) or the copy (R168), all in P2 (log 21). -/
def enterP2 (rd wr : Word) (s : State) : State :=
  s.mapEng fun e => { e with st := .p2, rd := rd, wr := wr, runC := 0#8 }

/-- ADP_DEC acts on the tag in cur_v (R168): 0x52 runs the CHECK pass on the payload, 0x49 copies it, any other tag is
UNKNOWN_FORMAT at 0. The choice is kept in sel. -/
def dispatchTag (s : State) : State :=
  if s.eng.curV = tagByteR then enterP1 1#32 (s.mapEng fun e => { e with sel := true })
  else if s.eng.curV = tagByteI then enterP2 1#32 0#32 (s.mapEng fun e => { e with sel := false })
  else raisePending .unknownFormat 0#32 s

/-- ADP_DEC reads its tag into cur_v; rd advances by 1 over it (R38, R168). -/
def readTag (s : State) : State :=
  (inRead 0 s).2.mapEng fun e => { e with curV := (inRead 0 s).1, rd := 1#32 }

/-- eng_st CHECK (log 21): the tests of R94, and where the command begins (R124, R131, R168). -/
def checkStep (s : State) : State :=
  match s.eng.opL.toNat with
  | 1 => if s.cfg.inCap < s.eng.nL.toNat then raisePending .lengthError 0#32 s else enterP1 0#32 s
  | 2 => if s.cfg.inCap < s.eng.nL.toNat then raisePending .lengthError 0#32 s else enterP1 0#32 s
  | 3 =>
    if s.cfg.inCap < s.eng.nL.toNat then raisePending .lengthError 0#32 s
    else if s.eng.nL = 0#32 then okPending s
    else enterP1 0#32 s
  | 4 =>
    if s.cfg.inCap < s.eng.nL.toNat then raisePending .lengthError 0#32 s
    else if s.eng.nL = 0#32 then okPending s
    else if atTag s then dispatchTag s
    else readTag s
  | _ => raisePending .badCommand 0#32 s

/-- The outer loop of the encoder scan opens a run: `cur_v <- InRead(rd) ; run_c <- 1 ; rd <- rd + 1` (R124). -/
def openRun (s : State) : State :=
  (inRead s.eng.rd.toNat s).2.mapEng fun e =>
    { e with curV := (inRead s.eng.rd.toNat s).1, runC := 1#8, rd := e.rd + 1#32 }

/-- The inner loop of the encoder scan (R124): the run goes on if the next byte equals cur_v and run_c is below 255, else the
piece of run is closed as the pass says. -/
def extendRun (closePiece : State → State) (s : State) : State :=
  if s.eng.rd.toNat < s.eng.nL.toNat then
    if (inRead s.eng.rd.toNat s).1 = s.eng.curV ∧ s.eng.runC.toNat < 255 then
      (inRead s.eng.rd.toNat s).2.mapEng fun e => { e with runC := e.runC + 1#8, rd := e.rd + 1#32 }
    else closePiece (inRead s.eng.rd.toNat s).2
  else closePiece s

/-- The SIZE pass counts a pair (R124). -/
def countPair (s : State) : State := s.mapEng fun e => { e with pairs := e.pairs + 1#32, runC := 0#8 }

/-- The EMIT pass writes a pair (R124): value, then count. -/
def emitPair (s : State) : State :=
  (outWrite (s.eng.wr.toNat + 1) s.eng.runC (outWrite s.eng.wr.toNat s.eng.curV s)).mapEng fun e =>
    { e with wr := e.wr + 2#32, runC := 0#8 }

/-- The end of the SIZE pass. RLE_ENC emits at base 0 (R124). ADP_COMP compares the two sizes, strictly, writes the tag, and
emits at base 1 or copies (R168). The size is tested against OUT_CAP before any write (R70). -/
def sizeDone (s : State) : State :=
  let rleSize := 2 * s.eng.pairs.toNat
  if s.eng.opL = 3#3 then
    if 1 + rleSize < 1 + s.eng.nL.toNat then
      if s.cfg.outCap < 1 + rleSize then raisePending .outCapacity 0#32 s
      else enterP2 0#32 1#32 (outWrite 0 tagByteR (s.mapEng fun e => { e with sel := true }))
    else
      if s.cfg.outCap < 1 + s.eng.nL.toNat then raisePending .outCapacity 0#32 s
      else enterP2 0#32 1#32 (outWrite 0 tagByteI (s.mapEng fun e => { e with sel := false }))
  else if s.cfg.outCap < rleSize then raisePending .outCapacity 0#32 s
  else enterP2 0#32 0#32 s

/-- One step of the SIZE pass (R124). -/
def sizeStep (s : State) : State :=
  if s.eng.runC = 0#8 then
    if s.eng.rd.toNat < s.eng.nL.toNat then openRun s else sizeDone s
  else extendRun countPair s

/-- One step of the EMIT pass (R124). -/
def emitStep (s : State) : State :=
  if s.eng.runC = 0#8 then
    if s.eng.rd.toNat < s.eng.nL.toNat then openRun s else okPending s
  else extendRun emitPair s

/-- One step of the verbatim copy (R168). -/
def copyStep (s : State) : State :=
  if s.eng.rd.toNat < s.eng.nL.toNat then
    (outWrite s.eng.wr.toNat (inRead s.eng.rd.toNat s).1 (inRead s.eng.rd.toNat s).2).mapEng fun e =>
      { e with rd := e.rd + 1#32, wr := e.wr + 1#32 }
  else okPending s

/-- The IN_BUF index of the payload's first byte (R126): 0 for RLE_DEC, 1 behind the tag of ADP_DEC. -/
def payloadBase (s : State) : Word := if s.eng.opL = 4#3 then 1#32 else 0#32

/-- One step of the decoder's CHECK pass (R131), rd being the IN_BUF index (R38, log 11): a pair's count is tested and summed
into acc, ACC_W bits wide; then the odd length, then the capacity, are tested. -/
def sumStep (s : State) : State :=
  if s.eng.rd.toNat + 1 < s.eng.nL.toNat then
    if (inRead (s.eng.rd.toNat + 1) s).1 = 0#8 then
      raisePending .malformedInput (s.eng.rd + 1#32) (inRead (s.eng.rd.toNat + 1) s).2
    else
      (inRead (s.eng.rd.toNat + 1) s).2.mapEng fun e =>
        { e with
          acc := (e.acc + (inRead (s.eng.rd.toNat + 1) s).1.toNat) % 2 ^ s.cfg.accW
          rd := e.rd + 2#32 }
  else if s.eng.rd.toNat < s.eng.nL.toNat then raisePending .malformedInput (s.eng.nL - 1#32) s
  else if s.cfg.outCap < s.eng.acc then raisePending .outCapacity 0#32 s
  else enterP2 (payloadBase s) 0#32 s

/-- One step of the EXPAND pass (R131): load a pair, or write one of its copies and count run_c down. -/
def expandStep (s : State) : State :=
  if s.eng.runC = 0#8 then
    if s.eng.rd.toNat < s.eng.nL.toNat then
      let v := inRead s.eng.rd.toNat s
      let c := inRead (s.eng.rd.toNat + 1) v.2
      c.2.mapEng fun e => { e with curV := v.1, runC := c.1, rd := e.rd + 2#32 }
    else okPending s
  else
    (outWrite s.eng.wr.toNat s.eng.curV s).mapEng fun e => { e with wr := e.wr + 1#32, runC := e.runC - 1#8 }

/-- One step of eng_st P1 (log 21): the SIZE pass of an encoder, the CHECK pass of a decoder. -/
def p1Step (s : State) : State :=
  match s.eng.opL.toNat with
  | 1 => sizeStep s
  | 3 => sizeStep s
  | _ => sumStep s

/-- One step of eng_st P2 (log 21): the pass that writes the output. -/
def p2Step (s : State) : State :=
  match s.eng.opL.toNat with
  | 1 => emitStep s
  | 2 => expandStep s
  | 3 => if s.eng.sel then emitStep s else copyStep s
  | _ => if s.eng.sel then expandStep s else copyStep s

/-- One internal step of the reference engine. Idle, it takes no step (R218); at END it waits for completion. -/
def workStep (s : State) : State :=
  match s.eng.st with
  | .idle => s
  | .check => checkStep s
  | .p1 => p1Step s
  | .p2 => p2Step s
  | .fin => s

end Sys2Proof.Machine
end

