-- ==== Sys2Proof/Machine/Adaptive.lean ====
section
/-! DEFINITION. The adaptive commands, and what each tag does with the payload behind it. -/

namespace Sys2Proof.Machine

/-- ADP_COMP (R161). -/
def execAdpComp (s : State) : Host.Outcome State Fault Refusal :=
  .next (runCommand (fun x => .ok (adpCompress x)) s)

/-- ADP_DEC (R163). -/
def execAdpDec (s : State) : Host.Outcome State Fault Refusal :=
  .next (runCommand adpDecompressCheck s)

/-- TAG_R: the input behind the tag byte is a run-length payload, its positions counted from IN_BUF index 1 (R96, R99, R162). -/
def execTagR (s : State) : Host.Outcome State Fault Refusal :=
  .next (runCommand (fun z => rleDecodeCheck (z.drop 1) 1) s)

/-- TAG_I: the input behind the tag byte is the raw buffer, copied to OUT_BUF (R96, R99, R162, R169). -/
def execTagI (s : State) : Host.Outcome State Fault Refusal :=
  .next (runCommand (fun z => .ok (z.drop 1)) s)

/-- A reserved tag: UNKNOWN_FORMAT at 0 (R96, R202), after the length test (R209). -/
def unknownTag (s : State) : State := runCommand (fun _ => .err .unknownFormat 0#32) s

end Sys2Proof.Machine
end

