-- ==== Sys2Proof/Machine/Reserved.lean ====
section
/-! DEFINITION. The reserved command codes: each completes with BAD_COMMAND at position 0 and reads no IN_BUF byte (R203). -/

namespace Sys2Proof.Machine

/-- RESERVED_OP0 (R91, R203): the reset value of CMD.OP (R241). -/
def execReservedOp0 (s : State) : Host.Outcome State Fault Refusal := .next (recordError .badCommand 0#32 s)

/-- RESERVED_OP5 (R91, R203). -/
def execReservedOp5 (s : State) : Host.Outcome State Fault Refusal := .next (recordError .badCommand 0#32 s)

/-- RESERVED_OP6 (R91, R203). -/
def execReservedOp6 (s : State) : Host.Outcome State Fault Refusal := .next (recordError .badCommand 0#32 s)

/-- RESERVED_OP7 (R91, R203). -/
def execReservedOp7 (s : State) : Host.Outcome State Fault Refusal := .next (recordError .badCommand 0#32 s)

end Sys2Proof.Machine
end

