-- ==== Sys2Proof/Machine/Rle.lean ====
section
/-! DEFINITION. The run-length commands. -/

namespace Sys2Proof.Machine

/-- RLE_ENC (R125). -/
def execRleEnc (s : State) : Host.Outcome State Fault Refusal :=
  .next (runCommand (fun x => .ok (rleEncode x)) s)

/-- RLE_DEC (R128). -/
def execRleDec (s : State) : Host.Outcome State Fault Refusal :=
  .next (runCommand (fun p => rleDecodeCheck p 0) s)

end Sys2Proof.Machine
end

