-- ==== Sys2Proof/Machine/Dispatch.lean ====
section
/-! DEFINITION. The dispatch of an instruction to its meaning (R94). -/

namespace Sys2Proof.Machine

def exec (i : Instr) (s : State) : Host.Outcome State Fault Refusal :=
  match i with
  | .reservedOp0 => Sys2Proof.Machine.execReservedOp0 s
  | .rleEnc => Sys2Proof.Machine.execRleEnc s
  | .rleDec => Sys2Proof.Machine.execRleDec s
  | .adpComp => Sys2Proof.Machine.execAdpComp s
  | .adpDec => Sys2Proof.Machine.execAdpDec s
  | .reservedOp5 => Sys2Proof.Machine.execReservedOp5 s
  | .reservedOp6 => Sys2Proof.Machine.execReservedOp6 s
  | .reservedOp7 => Sys2Proof.Machine.execReservedOp7 s
  | .tagR => Sys2Proof.Machine.execTagR s
  | .tagI => Sys2Proof.Machine.execTagI s

end Sys2Proof.Machine
end

