-- ==== Sys2Proof/Machine/Flags.lean ====
section
/-! DEFINITION. The status flags: the STATUS word, its write-1-to-clear bits, IGN, and the interrupt line (R27, R34, R212). -/

namespace Sys2Proof.Machine

/-- STATUS as the host reads it: `ERRCODE << 4 | IGN << 2 | DONE << 1 | BUSY` (R27). -/
def statusWord (s : State) : Word :=
  (s.errcode.setWidth 32 <<< 4) ||| ((BitVec.ofBool s.ign).setWidth 32 <<< 2) |||
    ((BitVec.ofBool s.done).setWidth 32 <<< 1) ||| (BitVec.ofBool s.busy).setWidth 32

/-- A host write of w to STATUS: bit 1 clears DONE, bit 2 clears IGN, every other bit is ignored (R27). -/
def clearStatus (w : Word) (s : State) : State :=
  { s with done := s.done && !w[1], ign := s.ign && !w[2] }

/-- A host write was ignored because BUSY = 1 (R247). -/
def setIgn (s : State) : State := { s with ign := true }

/-- The interrupt output, level, active high (R212). -/
def State.irq (s : State) : Bool := s.done && s.ie

end Sys2Proof.Machine
end

