-- ==== Sys2Proof/Machine/Port.lean ====
section
/-! DEFINITION. The host port: registers (R22 to R33), buffer lanes (R63 to R68), and the write protection while BUSY (R247). -/

namespace Sys2Proof.Machine

/-- A read of the register at an offset of the REG region; a reserved offset reads 0 (R23 to R33). -/
def regRead (off : Nat) (s : State) : Word :=
  match off with
  | 0x00 => Config.idValue
  | 0x04 => (BitVec.ofBool s.ie).setWidth 32 <<< 1
  | 0x08 => s.op.setWidth 32
  | 0x0C => statusWord s
  | 0x10 => s.inLen
  | 0x14 => s.outLen
  | 0x18 => s.errPos
  | 0x1C => BitVec.ofNat 32 s.cfg.inCap
  | 0x20 => BitVec.ofNat 32 s.cfg.outCap
  | _ => 0#32

/-- A host write of w to CTRL (R25): IE always, then START if bit 0 is 1, which is ignored while BUSY (R248). -/
def writeCtrl (w : Word) (s : State) : State :=
  if w[0] then
    if s.busy then setIgn { s with ie := w[1] } else accept { s with ie := w[1] }
  else { s with ie := w[1] }

/-- A host write of w to CMD: bits 2:0 stored, ignored while BUSY (R26, R247). -/
def writeCmd (w : Word) (s : State) : State :=
  if s.busy then setIgn s else { s with op := w.extractLsb' 0 3 }

/-- A host write of w to IN_LEN: stored whole, ignored while BUSY (R28, R247). -/
def writeInLen (w : Word) (s : State) : State :=
  if s.busy then setIgn s else { s with inLen := w }

/-- A write of the register at an offset of the REG region; read-only and reserved offsets ignore it (R23 to R33). -/
def regWrite (off : Nat) (w : Word) (s : State) : State :=
  match off with
  | 0x04 => writeCtrl w s
  | 0x08 => writeCmd w s
  | 0x0C => clearStatus w s
  | 0x10 => writeInLen w s
  | _ => s

/-- A 32-bit access is aligned (R62, R64, R65). -/
def aligned (off : Word) : Bool := off.toNat % 4 == 0

/-- One lane of a read of the IN region: 0 at or above IN_CAP (R66), else the byte of IN_BUF (R63). -/
def inLane (i : Nat) (s : State) : Byte × State :=
  if i < s.cfg.inCap then inRead i s else (0#8, s)

/-- One lane of a read of the OUT region (R66, R68): 0 at or above OUT_CAP; unspecified while BUSY; else the result byte there,
or an unspecified byte where there is none. -/
def outLane (j : Nat) (s : State) : Byte × State :=
  if j < s.cfg.outCap then
    if s.busy then drawByte s
    else
      match Memory.lookup s.outBuf j with
      | some b => (b, s)
      | none => drawByte s
  else (0#8, s)

/-- Four lanes from index a on, lane k in bits 8k+7:8k (R64). -/
def readLanes (lane : Nat → State → Byte × State) (a : Nat) (s : State) : Word × State :=
  let l0 := lane a s
  let l1 := lane (a + 1) l0.2
  let l2 := lane (a + 2) l1.2
  let l3 := lane (a + 3) l2.2
  (packWord l0.1 l1.1 l2.1 l3.1, l3.2)

/-- An 8-bit host read (R62, R63, R66). -/
def hostRead8 (r : Region) (off : Word) (s : State) : Byte × State :=
  match r with
  | .reg => (0#8, s)
  | .inp => inLane off.toNat s
  | .out => outLane off.toNat s
  | .reserved => (0#8, s)

/-- A 32-bit host read; a misaligned one reads 0 (R62, R64, R65, R66). -/
def hostRead32 (r : Region) (off : Word) (s : State) : Word × State :=
  if aligned off then
    match r with
    | .reg => (regRead off.toNat s, s)
    | .inp => readLanes inLane off.toNat s
    | .out => readLanes outLane off.toNat s
    | .reserved => (0#32, s)
  else (0#32, s)

/-- One lane of a write of the IN region: nothing at or above IN_CAP (R66). -/
def writeLane (i : Nat) (b : Byte) (s : State) : State :=
  if i < s.cfg.inCap then { s with inBuf := Memory.store s.inBuf i b } else s

/-- An 8-bit write of the IN region: ignored while BUSY, and IGN set (R63, R247). -/
def writeIn8 (off : Word) (d : Byte) (s : State) : State :=
  if s.busy then setIgn s else writeLane off.toNat d s

/-- A 32-bit write of the IN region: ignored while BUSY, and IGN set, aligned or not (R247); when Idle, four lanes if aligned
(R64), else nothing (R65). -/
def writeIn32 (off : Word) (d : Word) (s : State) : State :=
  if s.busy then setIgn s
  else if aligned off then
    writeLane (off.toNat + 3) (d.extractLsb' 24 8) (writeLane (off.toNat + 2) (d.extractLsb' 16 8)
      (writeLane (off.toNat + 1) (d.extractLsb' 8 8) (writeLane off.toNat (d.extractLsb' 0 8) s)))
  else s

/-- An 8-bit host write: only the IN region takes one (R62, R63, R66, R67). -/
def hostWrite8 (r : Region) (off : Word) (d : Byte) (s : State) : State :=
  match r with
  | .reg => s
  | .inp => writeIn8 off d s
  | .out => s
  | .reserved => s

/-- A 32-bit host write (R62, R64, R65, R66, R67). -/
def hostWrite32 (r : Region) (off : Word) (d : Word) (s : State) : State :=
  match r with
  | .reg => if aligned off then regWrite off.toNat d s else s
  | .inp => writeIn32 off d s
  | .out => s
  | .reserved => s

/-- The host records the value a read returned (R103, log 14). -/
def recordRead (v : Word) (s : State) : State := { s with returned := v :: s.returned }

/-- One host transaction, performed whole (R60, R72). -/
def hostTxn (t : Txn) (s : State) : State :=
  match t with
  | .rd8 r off => recordRead ((hostRead8 r off s).1.setWidth 32) (hostRead8 r off s).2
  | .rd32 r off => recordRead (hostRead32 r off s).1 (hostRead32 r off s).2
  | .wr8 r off d => hostWrite8 r off d s
  | .wr32 r off d => hostWrite32 r off d s

end Sys2Proof.Machine
end

