-- ==== Sys2Proof/Machine/Turn.lean ====
section
/-! DEFINITION. The engine's turn, and how a word is put where the engine fetches its next instruction. -/

namespace Sys2Proof.Machine

/-- The engine's completion step (R40): the fetched instruction, or a reserved tag's error (R202). Idle, the engine takes no step
(R218). -/
def engineTurn (s : State) : Host.Outcome State Fault Refusal :=
  if s.busy then
    match fetch s with
    | .ok i => exec i s
    | .error _ => .next (unknownTag s)
  else .next s

/-- A command word put in CMD and started, as WR32 CMD and an accepted START do (R90, R92). -/
def placeCommand (w : Word) (s : State) : State := accept { s with op := w.extractLsb' 0 3 }

/-- A tag byte put at IN_BUF[0] with ADP_DEC started and standing after its tag read (log 7). IN_LEN becomes 1 where it holds no
length that reaches the tag. -/
def placeTag (t : Byte) (s : State) : State :=
  (accept { s with
    op := 4#3
    inLen := if s.inLen.toNat = 0 ∨ s.cfg.inCap < s.inLen.toNat then 1#32 else s.inLen
    inBuf := Memory.store s.inBuf 0 t }).mapEng fun e => { e with curV := t, rd := 1#32 }

end Sys2Proof.Machine
end

