-- ==== Sys2Proof/Machine/Step.lean ====
section
/-! DEFINITION. One step of CORE: the next item of the total order of host transactions and engine steps (R73). -/

namespace Sys2Proof.Machine

/-- One step. An instance whose parameters break R7 is refused (log 15). When the schedule is empty it is the engine's turn, so a
Busy engine always completes (R252, log 4). -/
def step (s : State) : Host.Outcome State Fault Refusal :=
  if s.cfg.wf then
    match s.sched with
    | [] => engineTurn s
    | .host t :: rest => .next (hostTxn t { s with sched := rest })
    | .reset :: rest => .next (resetEvent { s with sched := rest })
    | .work :: rest => .next (workStep { s with sched := rest })
    | .complete :: rest => engineTurn { s with sched := rest }
  else .refused .notACoreInstance

/-- The state in which the table word w is the instruction the next step runs (log 6). The schedule is emptied, so that the very
next step is the engine's. -/
def State.withFetchWord (s : State) (nbits w : Nat) : State :=
  match tableFormat nbits w with
  | .cmd => placeCommand (BitVec.ofNat 32 w) { s with sched := [] }
  | .adaptiveTag => placeTag (BitVec.ofNat 8 w) { s with sched := [] }

end Sys2Proof.Machine
end

