-- ==== Sys2Proof/Machine/Program.lean ====
section
/-! DEFINITION. The host's pseudo-instructions and their expansions into transactions (R105). -/

namespace Sys2Proof.Machine

/-- The offsets of the registers the pseudo-instructions name (R23). -/
def offCtrl : Word := 0x04#32
/-- CMD (R23). -/
def offCmd : Word := 0x08#32
/-- STATUS (R23). -/
def offStatus : Word := 0x0C#32
/-- IN_LEN (R23). -/
def offInLen : Word := 0x10#32
/-- OUT_LEN (R23). -/
def offOutLen : Word := 0x14#32

/-- The byte writes of LOADIN for the bytes after the last whole word. -/
def loadBytes : Nat → List Byte → List Txn
  | _, [] => []
  | a, b :: bs => .wr8 .inp (BitVec.ofNat 32 a) b :: loadBytes (a + 1) bs

/-- The buffer writes of LOADIN: whole words first, then the remaining bytes. -/
def loadData : Nat → List Byte → List Txn
  | a, b0 :: b1 :: b2 :: b3 :: bs => .wr32 .inp (BitVec.ofNat 32 a) (packWord b0 b1 b2 b3) :: loadData (a + 4) bs
  | a, bs => loadBytes a bs

/-- `LOADIN [b0, ...]`. -/
def loadIn (bs : List Byte) : List Txn :=
  loadData 0 bs ++ [.wr32 .reg offInLen (BitVec.ofNat 32 bs.length)]

/-- `RUN <mnemonic>` and, with the interrupt enabled, `RUNI <mnemonic>`. -/
def runOp (ie : Bool) (op : BitVec 3) : List Txn :=
  [.wr32 .reg offCmd (op.setWidth 32), .wr32 .reg offCtrl (startWord ie)]

/-- `ACK`: clear DONE and IGN. -/
def ack : List Txn := [.wr32 .reg offStatus 0x6#32]

/-- `READOUT` for an output of length L. -/
def readOut (L : Nat) : List Txn :=
  .rd32 .reg offOutLen :: (List.range L).map fun j => .rd8 .out (BitVec.ofNat 32 j)

/-- `POLL` of a running command under the schedule in which completion falls after k reads of STATUS: the loop is the host's own
control flow (R105), so its unrolling depends on the schedule (log 17). -/
def poll (k : Nat) : List Event :=
  List.replicate k (.host (.rd32 .reg offStatus)) ++ [.complete, .host (.rd32 .reg offStatus)]

/-- Transactions as schedule events. -/
def asEvents (ts : List Txn) : List Event := ts.map .host

end Sys2Proof.Machine
end

