-- ==== Sys2Proof/Safety.lean ====
section
/-! DEFINITION. The terms claims are stated in: outcomes of a command, frames, the dispatch function of R94, the events that change
a flag (R34), and the invariants every step keeps. -/

namespace Sys2Proof

/-- The number of a region (R60). -/
def Region.number (r : Region) : Nat :=
  match r with
  | .reg => 0
  | .inp => 1
  | .out => 2
  | .reserved => 3

end Sys2Proof

namespace Sys2Proof.Machine

/-- IN_BUF holds the bytes x from index 0 on, each written by the host since reset (R242). -/
def HoldsInput (s : State) (x : List Byte) : Prop :=
  ∀ i, i < x.length → Memory.lookup s.inBuf i = x[i]?

/-- A command ended in success with output y (R40): DONE with ERRCODE and ERR_POS 0, OUT_LEN its length, OUT_BUF exactly y. -/
structure Succeeded (t : State) (y : List Byte) : Prop where
  length  : t.outLen.toNat = y.length
  bytes   : ∀ j, Memory.lookup t.outBuf j = y[j]?
  errPos  : t.errPos = 0#32
  errcode : t.errcode = 0#4
  done    : t.done = true
  idle    : t.busy = false

/-- A command ended in an error (R207): DONE with its code and position, OUT_LEN 0, no byte of OUT_BUF with a value. -/
structure Failed (t : State) (c : ErrCode) (pos : Nat) : Prop where
  errcode : t.errcode = c.code
  errPos  : t.errPos.toNat = pos
  length  : t.outLen = 0#32
  bytes   : ∀ j, Memory.lookup t.outBuf j = none
  done    : t.done = true
  idle    : t.busy = false

/-- What no completion changes (R35, R40, R207): the configuration, IE, CMD, IGN, IN_LEN, every byte of IN_BUF, the latched command,
and the working registers other than eng_st, res_c and res_p; the schedule and the recorded reads. -/
structure CompletionFrame (s t : State) : Prop where
  cfg      : t.cfg = s.cfg
  ie       : t.ie = s.ie
  op       : t.op = s.op
  ign      : t.ign = s.ign
  inLen    : t.inLen = s.inLen
  inBuf    : t.inBuf = s.inBuf
  eng      : t.eng = { s.eng with st := t.eng.st, resC := t.eng.resC, resP := t.eng.resP }
  sched    : t.sched = s.sched
  returned : t.returned = s.returned

/-- The value byte of pair k of a payload (R71). -/
def pairValue (p : List Byte) (k : Nat) : Byte := p.getD (2 * k) 0#8

/-- The count byte of pair k of a payload (R71). -/
def pairCount (p : List Byte) (k : Nat) : Byte := p.getD (2 * k + 1) 0#8

/-- Pair k is the first of the payload whose count byte is 0 (R126, R208). -/
def FirstZeroPair (p : List Byte) (k : Nat) : Prop :=
  k < p.length / 2 ∧ pairCount p k = 0#8 ∧ ∀ j, j < k → pairCount p j ≠ 0#8

/-- No complete pair of the payload has the count 0 (R97). -/
def NoZeroCount (p : List Byte) : Prop := ∀ k, k < p.length / 2 → pairCount p k ≠ 0#8

/-- The sum of the counts of the complete pairs (R127). -/
def countSum (p : List Byte) : Nat := ((List.range (p.length / 2)).map fun k => (pairCount p k).toNat).sum

/-- `concat [ rep(p[2k], p[2k+1]) for k in 0 .. (m div 2) - 1 ]` (R126). -/
def pairsExpanded (p : List Byte) : List Byte :=
  (List.range (p.length / 2)).flatMap fun k => List.replicate (pairCount p k).toNat (pairValue p k)

/-- How decoding the payload p, whose first byte is at IN_BUF index `base`, ends (R126, R128, R163, R208, R209): the first zero
count, else the odd length, else the capacity, else the expansion. -/
structure DecodesTo (p : List Byte) (base : Nat) (t : State) : Prop where
  zeroCount : ∀ k, FirstZeroPair p k → Failed t .malformedInput (base + 2 * k + 1)
  oddLength : NoZeroCount p → p.length % 2 = 1 → Failed t .malformedInput (base + p.length - 1)
  capacity  : NoZeroCount p → p.length % 2 = 0 → t.cfg.outCap < countSum p → Failed t .outCapacity 0
  success   : NoZeroCount p → p.length % 2 = 0 → countSum p ≤ t.cfg.outCap → Succeeded t (pairsExpanded p)

/-- `exec(op, n, IN)` of R94, the dispatch as the spec writes it, on `x = IN[0..n)`. -/
def execResult (p : Params) (op : BitVec 3) (n : Nat) (x : List Byte) : Result :=
  if op ∉ [1#3, 2#3, 3#3, 4#3] then .err .badCommand 0#32
  else if n > p.inCap then .err .lengthError 0#32
  else
    capacityTest p
      (if op = 1#3 then .ok (rleEncode x)
       else if op = 2#3 then rleDecodeCheck x 0
       else if op = 3#3 then .ok (adpCompress x)
       else adpDecompressCheck x)

/-- The event the next step takes: an empty schedule is the engine's turn (log 4). -/
def State.nextEvent (s : State) : Event := s.sched.headD .complete

/-- The next step accepts a START (R39). -/
def AcceptsStart (s : State) : Prop :=
  s.busy = false ∧ ∃ w : Word, s.nextEvent = .host (.wr32 .reg 0x04#32 w) ∧ w[0] = true

/-- The next step is a completion (R40). -/
def Completes (s : State) : Prop := s.busy = true ∧ s.nextEvent = .complete

/-- The next step is a reset (R240). -/
def Resets (s : State) : Prop := s.nextEvent = .reset

/-- The next step is a host write of STATUS with a bit set (R27). -/
def ClearsBit (s : State) (b : Nat) : Prop :=
  ∃ w : Word, s.nextEvent = .host (.wr32 .reg 0x0C#32 w) ∧ w.getLsbD b = true

/-- The host writes that are ignored while BUSY and set IGN (R247). -/
def Protected (t : Txn) : Prop :=
  match t with
  | .wr8 .inp _ _ => True
  | .wr32 .inp _ _ => True
  | .wr32 .reg off w => off = 0x08#32 ∨ off = 0x10#32 ∨ (off = 0x04#32 ∧ w[0] = true)
  | _ => False

/-- The host writes to read-only or reserved registers, of the REG region in an access it does not take, to OUT, and to region
3: ignored, busy or not, and no flag set (R33, R62, R66, R67). -/
def NoEffect (t : Txn) : Prop :=
  match t with
  | .wr8 .reg _ _ => True
  | .wr32 .reg off _ => off ∉ [0x04#32, 0x08#32, 0x0C#32, 0x10#32]
  | .wr8 .out _ _ => True
  | .wr32 .out _ _ => True
  | .wr8 .reserved _ _ => True
  | .wr32 .reserved _ _ => True
  | _ => False

/-- The host reads whose value shows whether the engine is Busy: STATUS (R27) and OUT (R68). -/
def ShowsBusy (t : Txn) : Prop :=
  match t with
  | .rd32 .reg off => off = 0x0C#32
  | .rd8 .out _ => True
  | .rd32 .out _ => True
  | _ => False

/-- A run of host transactions, in order (R73). -/
def hostTxns (ts : List Txn) (s : State) : State := ts.foldl (fun s t => hostTxn t s) s

/-- Four 8-bit reads of a region at consecutive offsets, each in the state the one before it left, packed little-endian (R64). -/
def fourReads (r : Region) (off : Word) (s : State) : Word × State :=
  let b0 := hostRead8 r off s
  let b1 := hostRead8 r (off + 1#32) b0.2
  let b2 := hostRead8 r (off + 2#32) b1.2
  let b3 := hostRead8 r (off + 3#32) b2.2
  (BitVec.ofNat 32 (b0.1.toNat + 256 * b1.1.toNat + 65536 * b2.1.toNat + 16777216 * b3.1.toNat), b3.2)

/-- k internal steps of the reference engine. -/
def workSteps : Nat → State → State
  | 0, s => s
  | k + 1, s => workSteps k (workStep s)

/-- The invariant of the machine, kept by every step. -/
structure Inv (s : State) : Prop where
  /-- R7. -/
  params    : s.cfg.wf = true
  /-- The canonical form of IN_BUF (R35). -/
  inBuf     : Memory.wf s.cfg.inCap s.inBuf = true
  /-- The canonical form of OUT_BUF (R36). -/
  outBuf    : Memory.wf s.cfg.outCap s.outBuf = true
  /-- R206: codes 6 to 15 are never written. -/
  legalCode : s.errcode.toNat ≤ 5
  /-- R41: what a host sees of a running command. -/
  running   : s.busy = true → s.done = false ∧ s.errcode = 0#4 ∧ s.outLen = 0#32 ∧ s.errPos = 0#32
  /-- R68: while Idle, OUT_BUF holds exactly the OUT_LEN bytes of the last result. -/
  output    : s.busy = false → s.outBuf.map Prod.fst = List.range s.outLen.toNat
  /-- R12, R207: never an output beside an error. -/
  oneResult : s.errcode ≠ 0#4 → s.outLen = 0#32
  /-- R208: only MALFORMED_INPUT has a position other than 0. -/
  position  : s.errPos ≠ 0#32 → s.errcode = 1#4
  /-- The accumulator is ACC_W bits wide (R42). -/
  acc       : s.eng.acc < 2 ^ s.cfg.accW

/-- The invariant of the reference engine's position, kept by every step. Which pass is in which value of eng_st is log 21. -/
structure EngineInv (s : State) : Prop where
  /-- R38: rd never exceeds n_l. -/
  inRange   : s.busy = true → s.eng.nL.toNat ≤ s.cfg.inCap → s.eng.rd.toNat ≤ s.eng.nL.toNat
  /-- In eng_st CHECK (log 21) nothing is read yet, or ADP_DEC has read its tag (R168). -/
  atCheck   : s.eng.st = .check → s.eng.rd = 0#32 ∨ (s.eng.opL = 4#3 ∧ s.eng.rd = 1#32 ∧ 1 ≤ s.eng.nL.toNat)
  /-- R70: no pass runs before the length test. -/
  tested    : s.eng.st = .p1 ∨ s.eng.st = .p2 →
    s.eng.opL ∈ [1#3, 2#3, 3#3, 4#3] ∧ s.eng.nL.toNat ≤ s.cfg.inCap
  /-- R38: rd advances by 2 per pair in the CHECK pass, from the payload's first byte. -/
  checkPass : s.eng.st = .p1 → s.eng.opL = 2#3 ∨ s.eng.opL = 4#3 →
    s.eng.rd.toNat % 2 = (payloadBase s).toNat ∧ (payloadBase s).toNat ≤ s.eng.rd.toNat
  /-- R38, R131: rd advances by 2 per pair in the EXPAND pass, over an even payload. -/
  expand    : s.eng.st = .p2 → s.eng.opL = 2#3 ∨ (s.eng.opL = 4#3 ∧ s.eng.sel = true) →
    (s.eng.nL.toNat - s.eng.rd.toNat) % 2 = 0
  /-- R168: the tag in cur_v is the byte of IN_BUF[0], where that byte holds a value. -/
  tag       : atTag s = true → ∀ b, Memory.lookup s.inBuf 0 = some b → s.eng.curV = b

end Sys2Proof.Machine
end

