-- ==== Sys2Proof/Certificates/Slice0/Obligations.lean ====
section
/-! DEFINITION. The statements for the provers. Nothing is proved here. -/

open Sys2Proof Sys2Proof.Machine Host

/-! ### Encoding -/

/-- Decoding the encoding of any instruction gives it back, with the bytes that follow it (R91, R96). -/
def Obligations.EncodedInstructionDecodesBack : Prop :=
  ∀ (i : Instr) (rest : List Byte), decode (encode i).1 ((encode i).2 ++ rest) = .ok (i, rest)

/-- The ten rows of the opcode table, their words written out from the table's match values, decode to their instructions. That the
8-bit words 0x52 and 0x49 are the tags, and not command words whose high bits are ignored (R90), is the model's choice (log 8). -/
def Obligations.TableWordsDecode : Prop :=
  decodeTableWord 8 0b00000000 = some .reservedOp0 ∧ decodeTableWord 8 0b00000001 = some .rleEnc ∧
  decodeTableWord 8 0b00000010 = some .rleDec ∧ decodeTableWord 8 0b00000011 = some .adpComp ∧
  decodeTableWord 8 0b00000100 = some .adpDec ∧ decodeTableWord 8 0b00000101 = some .reservedOp5 ∧
  decodeTableWord 8 0b00000110 = some .reservedOp6 ∧ decodeTableWord 8 0b00000111 = some .reservedOp7 ∧
  decodeTableWord 8 0b01010010 = some .tagR ∧ decodeTableWord 8 0b01001001 = some .tagI

/-- R90, R91: OP is bits 2:0 of the command word, whatever bits 31:3 are, and the map of OP values is the table's. -/
def Obligations.CommandWordSelectsByLowBits : Prop :=
  ∀ w : Word, some (decodeCmd w) =
    [Instr.reservedOp0, .rleEnc, .rleDec, .adpComp, .adpDec, .reservedOp5, .reservedOp6, .reservedOp7][w.toNat % 8]?

/-- R96: exactly 0x52 and 0x49 are tags; each of the 254 other bytes is rejected by name. -/
def Obligations.AdaptiveTagDecodesExactly : Prop :=
  decodeTag 0x52#8 = .ok .tagR ∧ decodeTag 0x49#8 = .ok .tagI ∧
  ∀ t : Byte, t ≠ 0x52#8 → t ≠ 0x49#8 → decodeTag t = .error (.unknownTag t)

/-- R104: the record of every transaction is well-formed and decodes back to it. The record's place in 72 bits is the model's reading
(log 10). -/
def Obligations.TransactionRecordRoundTrip : Prop :=
  ∀ t : Txn, recordWf (encodeRecord t) = true ∧ decodeRecord (encodeRecord t) = .ok t

/-- R104, the other direction: a well-formed record is the record of the transaction it decodes to, so no bit is dropped.
What is well-formed rests on the model's reading of the 72 bits (log 10). -/
def Obligations.RecordDecodingLosesNothing : Prop :=
  ∀ w : BitVec 72, recordWf w = true → ∃ t, decodeRecord w = .ok t ∧ encodeRecord t = w

/-- R104: a record as a number: the digit h above the 32-bit offset above the 32-bit data, and the rule's five examples. The rule's
written form has 68 bits and calls itself 72-bit; that h stands in bits 67:64 with four zero bits above it is the model's reading
(log 10). -/
def Obligations.RecordLayout : Prop :=
  (∀ (r : Region) (off : Word),
    (encodeRecord (.rd8 r off)).toNat = 2 * r.number * 2 ^ 64 + off.toNat * 2 ^ 32 ∧
    (encodeRecord (.rd32 r off)).toNat = (2 * r.number + 1) * 2 ^ 64 + off.toNat * 2 ^ 32 ∧
    (∀ d, (encodeRecord (.wr8 r off d)).toNat = (8 + 2 * r.number) * 2 ^ 64 + off.toNat * 2 ^ 32 + d.toNat) ∧
    ∀ d, (encodeRecord (.wr32 r off d)).toNat = (8 + 2 * r.number + 1) * 2 ^ 64 + off.toNat * 2 ^ 32 + d.toNat) ∧
  encodeRecord (.wr32 .reg 0x08#32 3#32) = 0x90000000800000003#72 ∧
  encodeRecord (.rd32 .reg 0x0C#32) = 0x10000000C00000000#72 ∧
  encodeRecord (.wr32 .inp 0#32 0x42414141#32) = 0xB0000000042414141#72 ∧
  encodeRecord (.wr8 .inp 4#32 0x42#8) = 0xA0000000400000042#72 ∧
  encodeRecord (.rd32 .out 0#32) = 0x50000000000000000#72

/-! ### The step and the whole machine -/

/-- When it is the engine's turn and the bytes at the fetch point decode to i, the step is `exec i`; a scheduled engine turn is
taken off the schedule first. -/
def Obligations.StepRunsFetchedInstruction : Prop :=
  ∀ (s : State) (rest : List Event) (i : Instr), s.cfg.wf = true → s.busy = true →
    (s.sched = [] ∧ rest = []) ∨ s.sched = .complete :: rest →
    decode (fetchFormat s) (fetchBytes s) = .ok (i, []) →
    step s = exec i { s with sched := rest }

/-- R73, R218: a scheduled transaction, reset or internal step is the next step, taken off the schedule; with nothing scheduled,
or at an engine turn, an Idle engine changes nothing. -/
def Obligations.StepTakesTheScheduledEvent : Prop :=
  ∀ (s : State) (rest : List Event), s.cfg.wf = true →
    (∀ t, s.sched = .host t :: rest → step s = .next (hostTxn t { s with sched := rest })) ∧
    (s.sched = .reset :: rest → step s = .next (resetEvent { s with sched := rest })) ∧
    (s.sched = .work :: rest → step s = .next (workStep { s with sched := rest })) ∧
    (s.busy = false → s.sched = .complete :: rest → step s = .next { s with sched := rest }) ∧
    (s.busy = false → s.sched = [] → step s = .next s)

/-- The engine never gets stuck (R252): a CORE instance always answers a next state, whatever is scheduled; only parameters that
break R7 are refused. -/
def Obligations.StepAlwaysAnswers : Prop :=
  ∀ s : State, (s.cfg.wf = true → ∃ t, step s = .next t) ∧ (s.cfg.wf = false → step s = .refused .notACoreInstance)

/-- Every step keeps the machine's invariant. -/
def Obligations.InvariantKeptByEveryStep : Prop :=
  ∀ s t : State, Inv s → step s = .next t → Inv t

/-- Both invariants hold after reset, for every admitted parameter instance. -/
def Obligations.InvariantsHoldAtReset : Prop :=
  ∀ p : Params, p.wf = true → Inv (State.resetOf p) ∧ EngineInv (State.resetOf p)

/-- R38: every step keeps the engine's position within the command's input. -/
def Obligations.EnginePositionKeptByEveryStep : Prop :=
  ∀ s t : State, Inv s → EngineInv s → step s = .next t → EngineInv t

/-- R252: a Busy engine completes at its turn, and from any state, whatever is scheduled, the machine is Idle with its schedule
used up after as many steps as events were scheduled and one more. -/
def Obligations.EveryCommandCompletes : Prop :=
  (∀ s : State, s.cfg.wf = true → s.busy = true → s.nextEvent = .complete →
    ∃ t, step s = .next t ∧ t.busy = false ∧ t.done = true) ∧
  (∀ s : State, s.cfg.wf = true →
    ∃ t, Sys2Proof.core.run (s.sched.length + 1) s = .next t ∧ t.busy = false ∧ t.sched = [])

/-- R124, R131, R168 against R94: from acceptance, with the input of a valid command of legal length written, the reference datapath
reaches END with the pending code and position of the dispatch function's result and, on success, with exactly its output in
OUT_BUF. -/
def Obligations.ReferenceDatapathReachesTheResult : Prop :=
  ∀ (s : State) (x : List Byte), s.cfg.wf = true →
    (s.op ∈ [1#3, 2#3, 3#3, 4#3] → s.inLen.toNat ≤ s.cfg.inCap → x.length = s.inLen.toNat ∧ HoldsInput s x) →
    ∃ k, let t := workSteps k (accept s)
      t.eng.st = .fin ∧
      match execResult s.cfg s.op s.inLen.toNat x with
      | .ok y => t.eng.resC = 0#4 ∧ t.eng.resP = 0#32 ∧ ∀ j, Memory.lookup t.outBuf j = y[j]?
      | .err c pos => t.eng.resC = c.code ∧ t.eng.resP = pos

/-- R41: an internal step changes the working registers, OUT_BUF bytes and the count of draws alone; the engine stays Busy on the
same command, and every register and IN_BUF byte reads as before. Idle, nothing changes (R218). -/
def Obligations.InternalStepsAreInvisible : Prop :=
  ∀ s : State,
    workStep s = { s with eng := (workStep s).eng, outBuf := (workStep s).outBuf, draws := (workStep s).draws } ∧
    (workStep s).busy = s.busy ∧ (workStep s).eng.opL = s.eng.opL ∧ (workStep s).eng.nL = s.eng.nL ∧
    (s.busy = false → workStep s = s) ∧
    (∀ off, regRead off (workStep s) = regRead off s)

/-- R37, R74, R78: while a command runs, no step changes its input: IN_BUF, IN_LEN, CMD and the latched command. -/
def Obligations.CommandInputFixedWhileBusy : Prop :=
  ∀ s t : State, s.busy = true → step s = .next t → t.busy = true →
    t.inBuf = s.inBuf ∧ t.inLen = s.inLen ∧ t.op = s.op ∧ t.eng.opL = s.eng.opL ∧ t.eng.nL = s.eng.nL

/-- R75, R211: the outcome of a command, its output included, is kept by every step until the next accepted START or reset. -/
def Obligations.OutcomeKeptUntilNextStart : Prop :=
  ∀ s t : State, s.busy = false → ¬ AcceptsStart s → ¬ Resets s → step s = .next t →
    t.busy = false ∧ t.outLen = s.outLen ∧ t.errPos = s.errPos ∧ t.errcode = s.errcode ∧ t.outBuf = s.outBuf

/-- R34: every event that changes a status flag is listed, and nothing else changes one. -/
def Obligations.FlagsChangeOnlyByTheirEvents : Prop :=
  ∀ s t : State, step s = .next t →
    (s.busy = false → t.busy = true → AcceptsStart s) ∧
    (s.busy = true → t.busy = false → Completes s ∨ Resets s) ∧
    (s.done = false → t.done = true → Completes s) ∧
    (s.done = true → t.done = false → ClearsBit s 1 ∨ AcceptsStart s ∨ Resets s) ∧
    (s.ign = false → t.ign = true → s.busy = true ∧ ∃ w, s.nextEvent = .host w ∧ Protected w) ∧
    (s.ign = true → t.ign = false → ClearsBit s 2 ∨ AcceptsStart s ∨ Resets s) ∧
    (t.errcode ≠ s.errcode → Completes s ∨ AcceptsStart s ∨ Resets s)

/-- R40, R210: what an instruction leaves depends on the parameters, the latched length and the input bytes alone: two states that
agree on those end in the same outcome, whatever else they hold. -/
def Obligations.OutcomeDependsOnlyOnTheInput : Prop :=
  ∀ (i : Instr) (s s' t t' : State) (x : List Byte), s.cfg = s'.cfg → s.eng.nL = s'.eng.nL →
    (s.cfg.inCap < s.eng.nL.toNat ∨ (s.eng.nL.toNat = x.length ∧ HoldsInput s x ∧ HoldsInput s' x)) →
    exec i s = .next t → exec i s' = .next t' →
    t.outLen = t'.outLen ∧ t.errPos = t'.errPos ∧ t.errcode = t'.errcode ∧ t.outBuf = t'.outBuf ∧
      t.done = t'.done ∧ t.busy = t'.busy

/-! ### Reset, registers and the host port -/

/-- R240, R242: what the reset event leaves, from any state, Busy or not. It is idempotent, and no host transaction stops a running
command as it does. -/
def Obligations.ResetEventLeavesResetValues : Prop :=
  ∀ (s : State) (rest : List Event), s.cfg.wf = true → s.sched = .reset :: rest →
    ∃ t, step s = .next t ∧
      regRead 0x00 t = 0x524C4501#32 ∧ regRead 0x04 t = 0#32 ∧ regRead 0x08 t = 0#32 ∧ regRead 0x0C t = 0#32 ∧
      regRead 0x10 t = 0#32 ∧ regRead 0x14 t = 0#32 ∧ regRead 0x18 t = 0#32 ∧
      regRead 0x1C t = BitVec.ofNat 32 s.cfg.inCap ∧ regRead 0x20 t = BitVec.ofNat 32 s.cfg.outCap ∧
      t.irq = false ∧ t.busy = false ∧ t.eng = Engine.reset ∧
      (∀ i, Memory.lookup t.inBuf i = none) ∧ (∀ j, Memory.lookup t.outBuf j = none) ∧ t.cfg = s.cfg ∧
      resetEvent t = t ∧ (s.busy = true → ∀ tx, (hostTxn tx s).eng = s.eng)

/-- R241: a START right after reset ends in BAD_COMMAND at 0; with a valid OP written first and no IN_LEN, the command runs on the
empty input and succeeds with the empty output. -/
def Obligations.StartAfterReset : Prop :=
  ∀ (p : Params) (w : Word), p.wf = true → w[0] = true →
    (∃ t, Sys2Proof.core.run 2 { State.resetOf p with sched := [.host (.wr32 .reg 0x04#32 w)] } = .next t ∧
      Failed t .badCommand 0) ∧
    (∀ op ∈ [1#32, 2#32, 3#32, 4#32],
      ∃ t, Sys2Proof.core.run 3
          { State.resetOf p with sched := [.host (.wr32 .reg 0x08#32 op), .host (.wr32 .reg 0x04#32 w)] } = .next t ∧
        Succeeded t [])

/-- R24 to R33, R62, R66: what an aligned 32-bit read of the REG region returns at each listed offset, and 0 at every other; 0 for
every 8-bit read of it, and for every read of region 3. No such read changes anything. -/
def Obligations.RegisterReads : Prop :=
  ∀ s : State,
    hostRead32 .reg 0x00#32 s = (0x524C4501#32, s) ∧
    hostRead32 .reg 0x04#32 s = (if s.ie then 2#32 else 0#32, s) ∧
    hostRead32 .reg 0x08#32 s = (BitVec.ofNat 32 s.op.toNat, s) ∧
    hostRead32 .reg 0x0C#32 s =
      (BitVec.ofNat 32 (16 * s.errcode.toNat + 4 * s.ign.toNat + 2 * s.done.toNat + s.busy.toNat), s) ∧
    hostRead32 .reg 0x10#32 s = (s.inLen, s) ∧
    hostRead32 .reg 0x14#32 s = (s.outLen, s) ∧
    hostRead32 .reg 0x18#32 s = (s.errPos, s) ∧
    hostRead32 .reg 0x1C#32 s = (BitVec.ofNat 32 s.cfg.inCap, s) ∧
    hostRead32 .reg 0x20#32 s = (BitVec.ofNat 32 s.cfg.outCap, s) ∧
    (∀ off : Word, 0x20 < off.toNat ∨ off.toNat % 4 ≠ 0 → hostRead32 .reg off s = (0#32, s)) ∧
    ∀ off : Word, hostRead8 .reg off s = (0#8, s) ∧ hostRead8 .reserved off s = (0#8, s) ∧
      hostRead32 .reserved off s = (0#32, s)

/-- R39, R25: an accepted START. -/
def Obligations.AcceptedStart : Prop :=
  ∀ (s t : State) (w : Word), s.busy = false → w[0] = true → t = hostTxn (.wr32 .reg 0x04#32 w) s →
    t.eng.opL = s.op ∧ t.eng.nL = s.inLen ∧ t.busy = true ∧ t.done = false ∧ t.ign = false ∧ t.errcode = 0#4 ∧
    t.outLen = 0#32 ∧ t.errPos = 0#32 ∧ (∀ j, Memory.lookup t.outBuf j = none) ∧ t.ie = w[1] ∧
    t.op = s.op ∧ t.inLen = s.inLen ∧ t.inBuf = s.inBuf ∧ t.cfg = s.cfg ∧ t.sched = s.sched ∧
    t.returned = s.returned ∧ t.draws = s.draws

/-- R25: a CTRL write sets IE always; with bit 0 = 0 that is all it does; with bit 0 = 1 it is then an accepted START while Idle, and
sets IGN while BUSY. A read returns IE at bit 1, and START as 0. -/
def Obligations.ControlWrites : Prop :=
  ∀ (s : State) (w : Word),
    (w[0] = false → hostTxn (.wr32 .reg 0x04#32 w) s = { s with ie := w[1] }) ∧
    (w[0] = true → s.busy = false → hostTxn (.wr32 .reg 0x04#32 w) s = accept { s with ie := w[1] }) ∧
    (w[0] = true → s.busy = true → hostTxn (.wr32 .reg 0x04#32 w) s = { s with ie := w[1], ign := true }) ∧
    regRead 0x04 s = BitVec.ofNat 32 (2 * s.ie.toNat)

/-- R26, R28: while Idle, a CMD write stores bits 2:0 and an IN_LEN write all 32 bits, and neither changes anything else; what is
stored reads back. -/
def Obligations.CommandAndLengthWrites : Prop :=
  ∀ (s : State) (w : Word), s.busy = false →
    hostTxn (.wr32 .reg 0x08#32 w) s = { s with op := BitVec.ofNat 3 w.toNat } ∧
    regRead 0x08 (hostTxn (.wr32 .reg 0x08#32 w) s) = BitVec.ofNat 32 (w.toNat % 8) ∧
    hostTxn (.wr32 .reg 0x10#32 w) s = { s with inLen := w } ∧
    regRead 0x10 (hostTxn (.wr32 .reg 0x10#32 w) s) = w

/-- R27: a STATUS write clears DONE for bit 1 and IGN for bit 2, while BUSY too, and changes nothing else. -/
def Obligations.StatusWriteClearsDoneAndIgn : Prop :=
  ∀ (s : State) (w : Word),
    hostTxn (.wr32 .reg 0x0C#32 w) s =
      { s with done := if w[1] then false else s.done, ign := if w[2] then false else s.ign }

/-- R247: while BUSY, each listed write is ignored and sets IGN (a CTRL write's IE bit still takes effect), and every other host
transaction behaves as when Idle, but for a read of STATUS, which shows BUSY, and of OUT, which is unspecified (R68). IGN stays set
until a STATUS write with bit 2 set (or an accepted START, R39). Nothing is queued. -/
def Obligations.WritesIgnoredWhileBusy : Prop :=
  ∀ s : State, s.busy = true →
    (∀ off d, hostTxn (.wr8 .inp off d) s = { s with ign := true }) ∧
    (∀ off w, hostTxn (.wr32 .inp off w) s = { s with ign := true }) ∧
    (∀ w, hostTxn (.wr32 .reg 0x08#32 w) s = { s with ign := true }) ∧
    (∀ w, hostTxn (.wr32 .reg 0x10#32 w) s = { s with ign := true }) ∧
    (∀ w : Word, w[0] = true → hostTxn (.wr32 .reg 0x04#32 w) s = { s with ie := w[1], ign := true }) ∧
    (∀ t, ¬ Protected t → ¬ ShowsBusy t →
      hostTxn t s = { hostTxn t { s with eng := Engine.reset } with eng := s.eng }) ∧
    (∀ t, s.ign = true → (∀ w : Word, w[2] = true → t ≠ .wr32 .reg 0x0C#32 w) → (hostTxn t s).ign = true)

/-- R33, R62, R65, R66, R67: the host writes that have no effect, and the buffer writes that have none while Idle. -/
def Obligations.WritesWithoutEffect : Prop :=
  ∀ s : State,
    (∀ t, NoEffect t → hostTxn t s = s) ∧
    (s.busy = false → ∀ (off : Word) d, s.cfg.inCap ≤ off.toNat → hostTxn (.wr8 .inp off d) s = s) ∧
    (s.busy = false → ∀ (off w : Word), off.toNat % 4 ≠ 0 → hostTxn (.wr32 .inp off w) s = s)

/-- R69, R60, R103: a host read, of any region, offset and width, returns to the host what the port reads there, an 8-bit value
zero-extended, and changes nothing but the host's record (log 14) and the count of unspecified bytes drawn (log 2). -/
def Obligations.ReadsHaveNoSideEffects : Prop :=
  ∀ (s : State) (r : Region) (off : Word),
    (∃ n, hostTxn (.rd8 r off) s =
      { s with returned := (hostRead8 r off s).1.setWidth 32 :: s.returned, draws := s.draws + n } ∧ n ≤ 1) ∧
    (∃ n, hostTxn (.rd32 r off) s =
      { s with returned := (hostRead32 r off s).1 :: s.returned, draws := s.draws + n } ∧ n ≤ 4)

/-- R63, R64, R66: while Idle, an 8-bit IN write stores its byte below IN_CAP and an aligned 32-bit one its four lanes, each below
IN_CAP, little-endian; every other byte of IN_BUF reads as before, and nothing else changes. -/
def Obligations.InputBufferWrites : Prop :=
  ∀ (s : State) (off : Word), s.busy = false →
    (∀ d, off.toNat < s.cfg.inCap →
      ∃ m, hostTxn (.wr8 .inp off d) s = { s with inBuf := m } ∧
        ∀ i, Memory.lookup m i = if i = off.toNat then some d else Memory.lookup s.inBuf i) ∧
    (∀ w : Word, off.toNat % 4 = 0 →
      ∃ m, hostTxn (.wr32 .inp off w) s = { s with inBuf := m } ∧
        ∀ i, Memory.lookup m i =
          if off.toNat ≤ i ∧ i < off.toNat + 4 ∧ i < s.cfg.inCap then
            some (BitVec.ofNat 8 (w.toNat / 2 ^ (8 * (i - off.toNat))))
          else Memory.lookup s.inBuf i)

/-- R63 to R66, R242: an 8-bit IN read returns the byte the host has written there; below IN_CAP, one it has not written is a fresh
unspecified byte (log 2); at or above IN_CAP it is 0. An aligned 32-bit read is four 8-bit reads, lane by lane, each written,
unwritten or at or above IN_CAP on its own; so four written bytes come packed little-endian, and a word at or above IN_CAP is 0. A
misaligned one is 0. -/
def Obligations.InputBufferReads : Prop :=
  ∀ (s : State) (off : Word),
    (∀ b, off.toNat < s.cfg.inCap → Memory.lookup s.inBuf off.toNat = some b → hostRead8 .inp off s = (b, s)) ∧
    (off.toNat < s.cfg.inCap → Memory.lookup s.inBuf off.toNat = none →
      hostRead8 .inp off s = (Config.freeByte s.draws, { s with draws := s.draws + 1 })) ∧
    (s.cfg.inCap ≤ off.toNat → hostRead8 .inp off s = (0#8, s)) ∧
    (off.toNat % 4 = 0 → hostRead32 .inp off s = fourReads .inp off s) ∧
    (∀ b0 b1 b2 b3 : Byte, off.toNat % 4 = 0 → off.toNat + 3 < s.cfg.inCap →
      Memory.lookup s.inBuf off.toNat = some b0 → Memory.lookup s.inBuf (off.toNat + 1) = some b1 →
      Memory.lookup s.inBuf (off.toNat + 2) = some b2 → Memory.lookup s.inBuf (off.toNat + 3) = some b3 →
      hostRead32 .inp off s =
        (BitVec.ofNat 32 (b0.toNat + 256 * b1.toNat + 65536 * b2.toNat + 16777216 * b3.toNat), s)) ∧
    (s.cfg.inCap ≤ off.toNat → hostRead32 .inp off s = (0#32, s)) ∧
    (off.toNat % 4 ≠ 0 → hostRead32 .inp off s = (0#32, s))

/-- R68, R63 to R66: an 8-bit OUT read below OUT_CAP returns the result byte there, if the engine is Idle and there is one, else a
fresh unspecified byte (log 2); at or above OUT_CAP it is 0. An aligned 32-bit read is four 8-bit reads, lane by lane, while Idle and
while BUSY, within the result, across its end and across OUT_CAP; so four result bytes come packed little-endian, and a word at or
above OUT_CAP is 0. A misaligned one is 0. -/
def Obligations.OutputBufferReads : Prop :=
  ∀ (s : State) (off : Word),
    (∀ b, s.busy = false → off.toNat < s.cfg.outCap → Memory.lookup s.outBuf off.toNat = some b →
      hostRead8 .out off s = (b, s)) ∧
    (off.toNat < s.cfg.outCap → s.busy = true ∨ Memory.lookup s.outBuf off.toNat = none →
      hostRead8 .out off s = (Config.freeByte s.draws, { s with draws := s.draws + 1 })) ∧
    (s.cfg.outCap ≤ off.toNat → hostRead8 .out off s = (0#8, s)) ∧
    (off.toNat % 4 = 0 → hostRead32 .out off s = fourReads .out off s) ∧
    (∀ b0 b1 b2 b3 : Byte, s.busy = false → off.toNat % 4 = 0 → off.toNat + 3 < s.cfg.outCap →
      Memory.lookup s.outBuf off.toNat = some b0 → Memory.lookup s.outBuf (off.toNat + 1) = some b1 →
      Memory.lookup s.outBuf (off.toNat + 2) = some b2 → Memory.lookup s.outBuf (off.toNat + 3) = some b3 →
      hostRead32 .out off s =
        (BitVec.ofNat 32 (b0.toNat + 256 * b1.toNat + 65536 * b2.toNat + 16777216 * b3.toNat), s)) ∧
    (s.cfg.outCap ≤ off.toNat → hostRead32 .out off s = (0#32, s)) ∧
    (off.toNat % 4 ≠ 0 → hostRead32 .out off s = (0#32, s))

/-- R212: irq is DONE and IE; clearing DONE, writing IE = 0, and an accepted START lower it; every completion, success and error
alike, raises it when IE is set; reset masks it. -/
def Obligations.InterruptLine : Prop :=
  ∀ s : State,
    (s.irq = true ↔ s.done = true ∧ s.ie = true) ∧
    (∀ w : Word, w[1] = true → (hostTxn (.wr32 .reg 0x0C#32 w) s).irq = false) ∧
    (∀ w : Word, w[1] = false → (hostTxn (.wr32 .reg 0x04#32 w) s).irq = false) ∧
    (∀ w : Word, s.busy = false → w[0] = true → (hostTxn (.wr32 .reg 0x04#32 w) s).irq = false) ∧
    (∀ i t, exec i s = .next t → t.irq = s.ie) ∧
    (resetEvent s).ie = false ∧ (resetEvent s).irq = false

/-- R105: LOADIN of at most IN_CAP bytes, while Idle, puts them in IN_BUF from index 0 on, sets IN_LEN to their number, and changes
nothing else. -/
def Obligations.LoadinFillsTheInputBuffer : Prop :=
  ∀ (s : State) (bs : List Byte), s.cfg.wf = true → s.busy = false → bs.length ≤ s.cfg.inCap →
    ∃ m, hostTxns (loadIn bs) s = { s with inBuf := m, inLen := BitVec.ofNat 32 bs.length } ∧
      ∀ i, Memory.lookup m i = if i < bs.length then bs[i]? else Memory.lookup s.inBuf i

/-- R105, R36: READOUT after a success returns OUT_LEN and then the output's bytes in order, and changes nothing else. -/
def Obligations.ReadoutReturnsTheOutput : Prop :=
  ∀ (s : State) (y : List Byte), s.cfg.wf = true → y.length ≤ s.cfg.outCap → Succeeded s y →
    hostTxns (readOut y.length) s =
      { s with returned := (y.map fun b => b.setWidth 32).reverse ++ BitVec.ofNat 32 y.length :: s.returned }

/-! ### The instructions -/

/-- R203: each reserved OP value is one of the four reserved instructions at the fetch point, and each completes with BAD_COMMAND at
position 0, whatever bytes IN_BUF holds. -/
def Obligations.ReservedCommandsAreBadCommands : Prop :=
  (∀ i ∈ [Instr.reservedOp0, .reservedOp5, .reservedOp6, .reservedOp7], ∀ s : State,
    ∃ t, exec i s = .next t ∧ Failed t .badCommand 0 ∧ CompletionFrame s t ∧ t.draws = s.draws ∧
      ∀ m, exec i { s with inBuf := m } = .next { t with inBuf := m }) ∧
  (∀ s : State, s.cfg.wf = true → s.busy = true → s.eng.opL ∈ [0#3, 5#3, 6#3, 7#3] → s.nextEvent = .complete →
    ∃ t, step s = .next t ∧ Failed t .badCommand 0 ∧ t.draws = s.draws)

/-- R125: RLE_ENC on a legal length succeeds with the run-length form of its input. -/
def Obligations.RleEncCompletes : Prop :=
  ∀ s : State, s.cfg.wf = true → s.eng.nL.toNat ≤ s.cfg.inCap →
    ∃ t, exec .rleEnc s = .next t ∧ Succeeded t (rleEncode (commandInput s).1) ∧ CompletionFrame s t

/-- R128: RLE_DEC on a legal length decodes its input as a payload from IN_BUF index 0. -/
def Obligations.RleDecCompletes : Prop :=
  ∀ s : State, s.cfg.wf = true → s.eng.nL.toNat ≤ s.cfg.inCap →
    ∃ t, exec .rleDec s = .next t ∧ DecodesTo (commandInput s).1 0 t ∧ CompletionFrame s t

/-- R160, R161: ADP_COMP on a legal length succeeds: the empty output for the empty input, the run-length form behind tag 0x52 when
its total size is strictly smaller, else the input behind tag 0x49. -/
def Obligations.AdpCompCompletes : Prop :=
  ∀ s : State, s.cfg.wf = true → s.eng.nL.toNat ≤ s.cfg.inCap →
    ∃ t, exec .adpComp s = .next t ∧ CompletionFrame s t ∧
      let x := (commandInput s).1
      (x = [] → Succeeded t []) ∧
      (x ≠ [] → 1 + rleLen x < 1 + x.length → Succeeded t (0x52#8 :: rleEncode x)) ∧
      (x ≠ [] → 1 + x.length ≤ 1 + rleLen x → Succeeded t (0x49#8 :: x))

/-- R162, R163: ADP_DEC on a legal length: the empty stream; the payload behind tag 0x52 decoded from IN_BUF index 1; the payload
behind tag 0x49 copied; any other tag UNKNOWN_FORMAT at 0. -/
def Obligations.AdpDecCompletes : Prop :=
  ∀ s : State, s.cfg.wf = true → s.eng.nL.toNat ≤ s.cfg.inCap →
    ∃ t, exec .adpDec s = .next t ∧ CompletionFrame s t ∧
      ((commandInput s).1 = [] → Succeeded t []) ∧
      ∀ tag payload, (commandInput s).1 = tag :: payload →
        (tag = 0x52#8 → DecodesTo payload 1 t) ∧
        (tag = 0x49#8 → Succeeded t payload) ∧
        (tag ≠ 0x52#8 → tag ≠ 0x49#8 → Failed t .unknownFormat 0)

/-- R96, R99: TAG_R decodes the bytes behind the tag as a payload from IN_BUF index 1; TAG_I copies them. -/
def Obligations.TagsSelectTheirPayload : Prop :=
  ∀ s : State, s.cfg.wf = true → s.eng.nL.toNat ≤ s.cfg.inCap →
    (∃ t, exec .tagR s = .next t ∧ DecodesTo ((commandInput s).1.drop 1) 1 t ∧ CompletionFrame s t) ∧
    (∃ t, exec .tagI s = .next t ∧ Succeeded t ((commandInput s).1.drop 1) ∧ CompletionFrame s t)

/-- R204: a latched length above IN_CAP ends each of the four commands in LENGTH_ERROR at 0, whatever bytes IN_BUF holds. That TAG_R
and TAG_I, which R204 does not speak of, take the same test is the model's reading of them as instructions (log 7). -/
def Obligations.LengthErrorBeforeAnyRead : Prop :=
  ∀ i ∈ [Instr.rleEnc, .rleDec, .adpComp, .adpDec, .tagR, .tagI], ∀ s : State, s.cfg.inCap < s.eng.nL.toNat →
    ∃ t, exec i s = .next t ∧ Failed t .lengthError 0 ∧ CompletionFrame s t ∧ t.draws = s.draws ∧
      ∀ m, exec i { s with inBuf := m } = .next { t with inBuf := m }

/-- R35, R40, R207: the frame of every instruction: it completes, and changes no register, flag, IN_BUF byte or working register
other than those completion writes; OUT_BUF holds values exactly below OUT_LEN. -/
def Obligations.CompletionChangesNothingElse : Prop :=
  ∀ (i : Instr) (s : State), s.cfg.wf = true →
    ∃ t, exec i s = .next t ∧ CompletionFrame s t ∧ t.busy = false ∧ t.done = true ∧
      (∀ a, Memory.lookup t.inBuf a = Memory.lookup s.inBuf a) ∧
      (∀ j, (Memory.lookup t.outBuf j).isSome = true ↔ j < t.outLen.toNat) ∧
      (t.errcode ≠ 0#4 → t.outLen = 0#32)

/-- R94 against the arms: at the fetch of a command word, the engine's turn is completion with the result of the dispatch function
on the latched command and its input; no byte is drawn where no input is read. -/
def Obligations.TurnFollowsTheDispatchRule : Prop :=
  ∀ s : State, s.busy = true → atTag s = false →
    ∃ d, (s.eng.opL ∉ [1#3, 2#3, 3#3, 4#3] ∨ s.cfg.inCap < s.eng.nL.toNat → d = s.draws) ∧ engineTurn s =
      .next (complete (execResult s.cfg s.eng.opL s.eng.nL.toNat (commandInput s).1) { s with draws := d })

/-- R168, R202, R169: once ADP_DEC has read its tag, completing by the tag, known or reserved, is what ADP_DEC itself does. -/
def Obligations.TagTurnAgreesWithAdpDec : Prop :=
  ∀ s : State, atTag s = true → 1 ≤ s.eng.nL.toNat → Memory.lookup s.inBuf 0 = some s.eng.curV →
    engineTurn s = exec .adpDec s

/-- R93, R242: the input is n_l bytes; a byte the host has written is that byte, and any other is one of the free values drawn. -/
def Obligations.CommandInputIsTheBuffer : Prop :=
  ∀ s : State, (commandInput s).1.length = s.eng.nL.toNat ∧
    (∀ i b, i < s.eng.nL.toNat → Memory.lookup s.inBuf i = some b → (commandInput s).1[i]? = some b) ∧
    (∀ i, i < s.eng.nL.toNat → Memory.lookup s.inBuf i = none →
      ∃ k, s.draws ≤ k ∧ k < (commandInput s).2.draws ∧ (commandInput s).1[i]? = some (Config.freeByte k)) ∧
    (∀ x, x.length = s.eng.nL.toNat → HoldsInput s x → commandInput s = (x, s))

/-! ### The codec -/

/-- R120: `runs(x)` has runs of length at least 1, adjacent runs of different values, and concatenates to x; it is the only such
list; and it is empty exactly for the empty input. -/
def Obligations.RunsAreTheUniqueMaximalRuns : Prop :=
  ∀ (x : List Byte) (rs : List (Byte × Nat)),
    (rs = runs x ↔
      (∀ r ∈ rs, 1 ≤ r.2) ∧ (∀ i, i + 1 < rs.length → (rs[i]?).map Prod.fst ≠ (rs[i + 1]?).map Prod.fst) ∧
      (rs.flatMap fun r => List.replicate r.2 r.1) = x) ∧
    (runs x = [] ↔ x = [])

/-- R121: `split(v, L)` has ceil(L / 255) pairs, each of value v with a count in 1..255, and the counts sum to L; all but a last
remainder are 255. -/
def Obligations.SplitIntoLegalCounts : Prop :=
  ∀ (v : Byte) (L : Nat), 1 ≤ L →
    (split v L).length = (L + 254) / 255 ∧
    (∀ p ∈ split v L, p.1 = v ∧ 1 ≤ p.2 ∧ p.2 ≤ 255) ∧
    ((split v L).map Prod.snd).sum = L ∧
    (∀ i, i < L / 255 → (split v L)[i]? = some (v, 255)) ∧
    (L % 255 > 0 → (split v L)[L / 255]? = some (v, L % 255)) ∧
    (L % 255 = 0 → (split v L).length = L / 255)

/-- R123: the run-length size is twice the number of pairs of the runs, so even; at most twice the input, exactly twice when no two
adjacent bytes are equal; at least 2 for a non-empty input. -/
def Obligations.RunLengthSizeBounds : Prop :=
  ∀ x : List Byte,
    rleLen x = 2 * ((runs x).map fun r => (r.2 + 254) / 255).sum ∧
    rleLen x % 2 = 0 ∧
    rleLen x ≤ 2 * x.length ∧
    (rleLen x = 2 * x.length ↔ ∀ i, i + 1 < x.length → x[i]? ≠ x[i + 1]?) ∧
    (x ≠ [] → 2 ≤ rleLen x)

/-- R129: decoding the run-length form of any byte sequence gives it back; and what RLE_ENC leaves in OUT_BUF, at most twice as long,
moved to IN_BUF where it fits, RLE_DEC turns back into the input. -/
def Obligations.RunLengthRoundTrip : Prop :=
  (∀ (x : List Byte) (base : Nat), rleDecodeCheck (rleEncode x) base = .ok x) ∧
  ∀ s s' t : State, s.cfg.wf = true → s'.cfg = s.cfg → s.eng.nL.toNat ≤ s.cfg.inCap → exec .rleEnc s = .next t →
    t.outLen.toNat ≤ 2 * s.eng.nL.toNat ∧
    (t.outLen.toNat ≤ s.cfg.inCap → s'.eng.nL = t.outLen →
      (∀ i, i < t.outLen.toNat → Memory.lookup s'.inBuf i = Memory.lookup t.outBuf i) →
      ∃ t', exec .rleDec s' = .next t' ∧ Succeeded t' (commandInput s).1)

/-- R130: the encoder's output has even length, every count byte in 1..255, a pair followed by one of the same value only after a
count of 255, and its pairs expand to the input. -/
def Obligations.EncoderOutputIsCanonical : Prop :=
  ∀ x : List Byte,
    (rleEncode x).length % 2 = 0 ∧
    NoZeroCount (rleEncode x) ∧
    (∀ k, 2 * (k + 1) + 1 < (rleEncode x).length → pairValue (rleEncode x) k = pairValue (rleEncode x) (k + 1) →
      pairCount (rleEncode x) k = 255#8) ∧
    pairsExpanded (rleEncode x) = x

/-- R126, R127, R98: a payload decodes exactly when it is valid, to the expansion of its pairs, whose length is the sum of the counts
and at most 255 times the number of pairs. -/
def Obligations.DecodedLengthIsTheCountSum : Prop :=
  ∀ (p : List Byte) (base : Nat),
    (payloadWf p = true ↔ ∃ y, rleDecodeCheck p base = .ok y) ∧
    (∀ y, rleDecodeCheck p base = .ok y →
      y = pairsExpanded p ∧ y.length = countSum p ∧ y.length ≤ 255 * (p.length / 2))

/-- R164: the adaptive form of the empty input is empty, and of any other it has the smaller of the two sizes, the second on a tie, and
is at most one byte longer than the input. -/
def Obligations.AdaptiveOverheadIsOneByte : Prop :=
  adpCompress [] = [] ∧
  ∀ x : List Byte, x ≠ [] →
    (adpCompress x).length = min (1 + rleLen x) (1 + x.length) ∧ (adpCompress x).length ≤ 1 + x.length ∧
    (1 + rleLen x = 1 + x.length → adpCompress x = 0x49#8 :: x)

/-- R165: decompressing the adaptive form of any byte sequence gives it back; and what ADP_COMP leaves in OUT_BUF, at most one byte
longer, moved to IN_BUF where it fits, ADP_DEC turns back into the input. -/
def Obligations.AdaptiveRoundTrip : Prop :=
  (∀ x : List Byte, adpDecompressCheck (adpCompress x) = .ok x) ∧
  ∀ s s' t : State, s.cfg.wf = true → s'.cfg = s.cfg → s.eng.nL.toNat ≤ s.cfg.inCap → exec .adpComp s = .next t →
    t.outLen.toNat ≤ 1 + s.eng.nL.toNat ∧
    (t.outLen.toNat ≤ s.cfg.inCap → s'.eng.nL = t.outLen →
      (∀ i, i < t.outLen.toNat → Memory.lookup s'.inBuf i = Memory.lookup t.outBuf i) →
      ∃ t', exec .adpDec s' = .next t' ∧ Succeeded t' (commandInput s).1)

/-- R167: tag R exactly when the run-length size is below the length; never without two equal neighbours; always for one run of
three or more; never for one run of one or two. -/
def Obligations.AdaptiveChoosesTheSmaller : Prop :=
  (∀ x : List Byte, x ≠ [] →
    ((adpCompress x)[0]? = some 0x52#8 ↔ rleLen x < x.length) ∧
    ((adpCompress x)[0]? = some 0x49#8 ↔ ¬ rleLen x < x.length)) ∧
  (∀ x : List Byte, x ≠ [] → (∀ i, i + 1 < x.length → x[i]? ≠ x[i + 1]?) → (adpCompress x)[0]? = some 0x49#8) ∧
  (∀ (v : Byte) (L : Nat), 3 ≤ L → (adpCompress (List.replicate L v))[0]? = some 0x52#8) ∧
  (∀ (v : Byte) (L : Nat), 1 ≤ L → L ≤ 2 → (adpCompress (List.replicate L v))[0]? = some 0x49#8)

/-- R95, R99, R101: ADP_DEC's check accepts exactly the streams of the grammar, canonical or not. -/
def Obligations.DecoderAcceptsTheGrammar : Prop :=
  ∀ z : List Byte, adaptiveWf z = true ↔ ∃ y, adpDecompressCheck z = .ok y
end

