-- ==== Sys2Proof/Laws/Codec.lean ====
section
/-! SUPPORT. The small laws of the codec's pure functions (R120 to R127, R160, R162). -/

namespace Sys2Proof.Machine

@[simp] theorem runs_nil : runs [] = [] := rfl

/-- What one more byte in front does to the runs. -/
theorem runs_cons (b : Byte) (x : List Byte) :
    (runs x = [] ∧ runs (b :: x) = [(b, 1)]) ∨
    (∃ n rs, runs x = (b, n) :: rs ∧ runs (b :: x) = (b, n + 1) :: rs) ∨
    (∃ v n rs, b ≠ v ∧ runs x = (v, n) :: rs ∧ runs (b :: x) = (b, 1) :: (v, n) :: rs) := by
  rcases h : runs x with _ | ⟨⟨v, n⟩, rs⟩
  · exact .inl ⟨rfl, by simp [runs, h]⟩
  · by_cases hb : b = v
    · subst hb; exact .inr (.inl ⟨n, rs, rfl, by simp [runs, h]⟩)
    · exact .inr (.inr ⟨v, n, rs, hb, rfl, by simp [runs, h, hb]⟩)

theorem runs_eq_nil {x : List Byte} : runs x = [] ↔ x = [] := by
  cases x with
  | nil => simp
  | cons b x => rcases runs_cons b x with ⟨_, h⟩ | ⟨_, _, _, h⟩ | ⟨_, _, _, _, _, h⟩ <;> simp [h]

/-- Every run has at least one byte (R120). -/
theorem runs_pos (x : List Byte) : ∀ r ∈ runs x, 1 ≤ r.2 := by
  induction x with
  | nil => simp
  | cons b x ih =>
    rcases runs_cons b x with ⟨_, h⟩ | ⟨n, rs, h, h'⟩ | ⟨v, n, rs, _, h, h'⟩
    · simp [h]
    · rw [h'] ; rw [h] at ih
      intro r hr
      rcases List.mem_cons.1 hr with rfl | hr
      · simp
      · exact ih r (by simp [hr])
    · rw [h'] ; rw [h] at ih
      intro r hr
      rcases List.mem_cons.1 hr with rfl | hr
      · simp
      · exact ih r hr

/-- The runs, written out again, are the input (R120). -/
theorem runs_concat (x : List Byte) : ((runs x).flatMap fun r => List.replicate r.2 r.1) = x := by
  induction x with
  | nil => simp
  | cons b x ih =>
    rcases runs_cons b x with ⟨h0, h⟩ | ⟨n, rs, h, h'⟩ | ⟨v, n, rs, _, h, h'⟩
    · rw [h, runs_eq_nil.1 h0]; simp
    · rw [h'] ; rw [h] at ih; simpa [List.replicate_succ] using ih
    · rw [h'] ; rw [h] at ih; simpa using ih

@[simp] theorem split_fst {v : Byte} {L : Nat} {p : Byte × Nat} (h : p ∈ split v L) : p.1 = v := by
  unfold split at h
  rcases List.mem_append.1 h with h | h
  · simp [List.eq_of_mem_replicate h]
  · split at h <;> simp_all

/-- Every count of a split is legal (R121). -/
theorem split_count {v : Byte} {L : Nat} {p : Byte × Nat} (h : p ∈ split v L) : 1 ≤ p.2 ∧ p.2 ≤ 255 := by
  unfold split at h
  rcases List.mem_append.1 h with h | h
  · simp [List.eq_of_mem_replicate h]
  · split at h
    · simp only [List.mem_singleton] at h; subst h; simp only; omega
    · simp at h

theorem split_length (v : Byte) (L : Nat) : (split v L).length = (L + 254) / 255 := by
  unfold split
  split <;> simp <;> omega

/-- The copies of a split are the run (R121). -/
theorem split_concat (v : Byte) (L : Nat) : ((split v L).flatMap fun p => List.replicate p.2 p.1) = List.replicate L v := by
  have h : ∀ q : Nat, ((List.replicate q (v, 255)).flatMap fun p => List.replicate p.2 p.1) = List.replicate (255 * q) v := by
    intro q
    induction q with
    | zero => rfl
    | succ q ih => rw [List.replicate_succ, List.flatMap_cons, ih, List.replicate_append_replicate]; congr 1; omega
  unfold split
  rw [List.flatMap_append, h]
  split
  · simp only [List.flatMap_cons, List.flatMap_nil, List.append_nil, List.replicate_append_replicate]
    congr 1; omega
  · simp only [List.flatMap_nil, List.append_nil]
    congr 1; omega

/-- Every count of the encoder's pairs is legal (R130). -/
theorem rlePairs_count {x : List Byte} {p : Byte × Nat} (h : p ∈ rlePairs x) : 1 ≤ p.2 ∧ p.2 ≤ 255 := by
  simp only [rlePairs, List.mem_flatMap] at h
  obtain ⟨r, _, h⟩ := h
  exact split_count h

/-- The encoder's pairs expand to the input (R130). -/
theorem rlePairs_concat (x : List Byte) : ((rlePairs x).flatMap fun p => List.replicate p.2 p.1) = x := by
  have h : ∀ rs : List (Byte × Nat), ((rs.flatMap fun r => split r.1 r.2).flatMap fun p => List.replicate p.2 p.1) =
      rs.flatMap fun r => List.replicate r.2 r.1 := by
    intro rs
    induction rs with
    | nil => rfl
    | cons r rs ih => simp only [List.flatMap_cons, List.flatMap_append, split_concat, ih]
  rw [rlePairs, h, runs_concat]

@[simp] theorem flatten_nil : flatten [] = [] := rfl

@[simp] theorem flatten_cons (p : Byte × Nat) (ps : List (Byte × Nat)) :
    flatten (p :: ps) = p.1 :: BitVec.ofNat 8 p.2 :: flatten ps := rfl

@[simp] theorem flatten_append (ps qs : List (Byte × Nat)) : flatten (ps ++ qs) = flatten ps ++ flatten qs := by
  simp [flatten]

@[simp] theorem flatten_length (ps : List (Byte × Nat)) : (flatten ps).length = 2 * ps.length := by
  induction ps with
  | nil => rfl
  | cons p ps ih => simp [ih]; omega

theorem rleLen_eq_pairs (x : List Byte) : rleLen x = 2 * (rlePairs x).length := by simp [rleLen, rleEncode]

@[simp] theorem firstZeroCount_nil : firstZeroCount [] = none := rfl

@[simp] theorem firstZeroCount_single (v : Byte) : firstZeroCount [v] = none := rfl

@[simp] theorem firstZeroCount_cons (v c : Byte) (p : List Byte) :
    firstZeroCount (v :: c :: p) = if c = 0#8 then some 1 else (firstZeroCount p).map (· + 2) := rfl

@[simp] theorem expandPairs_nil : expandPairs [] = [] := rfl

@[simp] theorem expandPairs_single (v : Byte) : expandPairs [v] = [] := rfl

@[simp] theorem expandPairs_cons (v c : Byte) (p : List Byte) :
    expandPairs (v :: c :: p) = List.replicate c.toNat v ++ expandPairs p := rfl

/-- Legal pairs, flattened, hold no zero count and expand to their copies. -/
theorem flatten_decodes (ps : List (Byte × Nat)) (h : ∀ p ∈ ps, 1 ≤ p.2 ∧ p.2 ≤ 255) :
    firstZeroCount (flatten ps) = none ∧ expandPairs (flatten ps) = ps.flatMap fun p => List.replicate p.2 p.1 := by
  induction ps with
  | nil => exact ⟨rfl, rfl⟩
  | cons p ps ih =>
    obtain ⟨ih1, ih2⟩ := ih fun q hq => h q (by simp [hq])
    have hp := h p (by simp)
    have hn : (BitVec.ofNat 8 p.2).toNat = p.2 := by simp; omega
    have hz : BitVec.ofNat 8 p.2 ≠ 0#8 := fun e => by
      have := congrArg BitVec.toNat e; rw [hn] at this; simp at this; omega
    refine ⟨by simp [hz, ih1], ?_⟩
    rw [flatten_cons, expandPairs_cons, hn, ih2]
    rfl

/-- Induction over a payload by its pairs: none, a single byte, or a pair in front. -/
theorem pairInduction {motive : List Byte → Prop} (h0 : motive []) (h1 : ∀ v, motive [v])
    (h2 : ∀ v c p, motive p → motive (v :: c :: p)) : ∀ p, motive p
  | [] => h0
  | [v] => h1 v
  | v :: c :: p => h2 v c p (pairInduction h0 h1 h2 p)

@[simp] theorem pairCount_zero (v c : Byte) (p : List Byte) : pairCount (v :: c :: p) 0 = c := rfl

@[simp] theorem pairCount_succ (v c : Byte) (p : List Byte) (k : Nat) :
    pairCount (v :: c :: p) (k + 1) = pairCount p k := by
  simp [pairCount, show 2 * (k + 1) + 1 = (2 * k + 1) + 1 + 1 by omega]

@[simp] theorem pairValue_zero (v c : Byte) (p : List Byte) : pairValue (v :: c :: p) 0 = v := rfl

@[simp] theorem pairValue_succ (v c : Byte) (p : List Byte) (k : Nat) :
    pairValue (v :: c :: p) (k + 1) = pairValue p k := by
  simp [pairValue, show 2 * (k + 1) = (2 * k + 1) + 1 by omega]

theorem pairs_div (v c : Byte) (p : List Byte) : (v :: c :: p).length / 2 = p.length / 2 + 1 := by
  simp only [List.length_cons]; omega

/-- The search for a zero count, in the words of R126. -/
theorem firstZeroCount_spec (p : List Byte) :
    (∃ k, firstZeroCount p = some (2 * k + 1) ∧ FirstZeroPair p k) ∨ (firstZeroCount p = none ∧ NoZeroCount p) := by
  induction p using pairInduction with
  | h0 => exact .inr ⟨rfl, fun k hk => by simp at hk⟩
  | h1 v => exact .inr ⟨rfl, fun k hk => by simp at hk⟩
  | h2 v c p ih =>
    by_cases hc : c = 0#8
    · exact .inl ⟨0, by simp [hc], by rw [pairs_div]; omega, by simp [hc], fun j hj => by omega⟩
    · rcases ih with ⟨k, h, hk, hz, hf⟩ | ⟨h, hn⟩
      · refine .inl ⟨k + 1, by simp [hc, h]; omega, by rw [pairs_div]; omega, by simpa using hz, fun j hj => ?_⟩
        cases j with
        | zero => simpa using hc
        | succ j => simpa using hf j (by omega)
      · refine .inr ⟨by simp [hc, h], fun k hk => ?_⟩
        rw [pairs_div] at hk
        cases k with
        | zero => simpa using hc
        | succ k => simpa using hn k (by omega)

/-- At most one pair is the first with a zero count. -/
theorem FirstZeroPair.unique {p : List Byte} {k k' : Nat} (h : FirstZeroPair p k) (h' : FirstZeroPair p k') : k = k' := by
  rcases Nat.lt_trichotomy k k' with hl | he | hl
  · exact absurd h.2.1 (h'.2.2 k hl)
  · exact he
  · exact absurd h'.2.1 (h.2.2 k' hl)

theorem FirstZeroPair.not_noZeroCount {p : List Byte} {k : Nat} (h : FirstZeroPair p k) : ¬ NoZeroCount p :=
  fun hn => hn k h.1 h.2.1

/-- The expansion, in the words of R126. -/
theorem expandPairs_eq (p : List Byte) : expandPairs p = pairsExpanded p := by
  induction p using pairInduction with
  | h0 => rfl
  | h1 v => simp [pairsExpanded]
  | h2 v c p ih =>
    simp only [expandPairs_cons, ih, pairsExpanded, pairs_div, List.range_succ_eq_map, List.flatMap_cons,
      List.flatMap_map, pairCount_zero, pairValue_zero, pairCount_succ, pairValue_succ]

theorem pairsExpanded_length (p : List Byte) : (pairsExpanded p).length = countSum p := by
  simp [pairsExpanded, countSum, List.length_flatMap]

/-- How a payload decodes, in the words of R126 and R208. -/
theorem rleDecodeCheck_cases (p : List Byte) (base : Nat) :
    (∃ k, FirstZeroPair p k ∧ rleDecodeCheck p base = .err .malformedInput (BitVec.ofNat 32 (base + (2 * k + 1)))) ∨
    (NoZeroCount p ∧ p.length % 2 = 1 ∧
      rleDecodeCheck p base = .err .malformedInput (BitVec.ofNat 32 (base + p.length - 1))) ∨
    (NoZeroCount p ∧ p.length % 2 = 0 ∧ rleDecodeCheck p base = .ok (pairsExpanded p)) := by
  rcases firstZeroCount_spec p with ⟨k, h, hk⟩ | ⟨h, hn⟩
  · exact .inl ⟨k, hk, by simp [rleDecodeCheck, h]⟩
  · by_cases ho : p.length % 2 = 1
    · exact .inr (.inl ⟨hn, ho, by simp [rleDecodeCheck, h, ho]⟩)
    · exact .inr (.inr ⟨hn, by omega, by simp [rleDecodeCheck, h, ho, expandPairs_eq]⟩)

end Sys2Proof.Machine
end

