-- ==== Sys2Proof/Laws/Memory.lean ====
section
/-! SUPPORT. The laws of a buffer: read after write, bytes laid out in order, and the canonical form every operation keeps. -/

namespace Sys2Proof.Machine

/-- Reading after a write: the byte written there, every other index as before. -/
theorem lookup_store (m : Memory) (a : Nat) (b : Byte) (i : Nat) :
    Memory.lookup (Memory.store m a b) i = if i = a then some b else Memory.lookup m i := by
  induction m with
  | nil => simp [Memory.store, Memory.lookup, eq_comm]
  | cons c m ih =>
    obtain ⟨k, v⟩ := c
    unfold Memory.store
    split
    · simp [Memory.lookup, eq_comm]
    · split
      · subst_vars
        by_cases h : i = k
        · simp [Memory.lookup, h]
        · simp [Memory.lookup, h, Ne.symm h]
      · simp only [Memory.lookup, ih]
        by_cases h : k = i
        · subst h
          have : ¬ k = a := fun h => by simp_all
          simp [this]
        · simp [h]

theorem lookup_ofBytes (bs : List Byte) (a i : Nat) :
    Memory.lookup (Memory.ofBytes a bs) i = if i < a then none else bs[i - a]? := by
  induction bs generalizing a with
  | nil => simp [Memory.ofBytes, Memory.lookup]
  | cons b bs ih =>
    simp only [Memory.ofBytes, Memory.lookup, ih]
    by_cases h : a = i
    · simp [h]
    · by_cases h2 : i < a
      · have h3 : i < a + 1 := by omega
        simp [h, h2, h3]
      · have h3 : ¬ i < a + 1 := by omega
        have h4 : i - a = (i - (a + 1)) + 1 := by omega
        simp [h, h2, h3, h4]

/-- OUT_BUF after a success holds the output, index for index. -/
@[simp] theorem lookup_ofBytes_zero (bs : List Byte) (i : Nat) :
    Memory.lookup (Memory.ofBytes 0 bs) i = bs[i]? := by simp [lookup_ofBytes]

theorem fst_ofBytes (bs : List Byte) (a : Nat) :
    (Memory.ofBytes a bs).map Prod.fst = List.range' a bs.length := by
  induction bs generalizing a with
  | nil => rfl
  | cons b bs ih => simp [Memory.ofBytes, ih, List.range'_succ]

theorem wfFrom_mono {m : Memory} {lo lo' cap : Nat} (h : Memory.wfFrom lo cap m = true) (hlo : lo' ≤ lo) :
    Memory.wfFrom lo' cap m = true := by
  cases m with
  | nil => rfl
  | cons c m =>
    simp only [Memory.wfFrom, Bool.and_eq_true, decide_eq_true_eq] at h ⊢
    exact ⟨⟨by omega, h.1.2⟩, h.2⟩

theorem wfFrom_store {m : Memory} {lo cap a : Nat} (b : Byte) (h : Memory.wfFrom lo cap m = true)
    (hlo : lo ≤ a) (hcap : a < cap) : Memory.wfFrom lo cap (Memory.store m a b) = true := by
  induction m generalizing lo with
  | nil => simp [Memory.store, Memory.wfFrom, hlo, hcap]
  | cons c m ih =>
    obtain ⟨k, v⟩ := c
    simp only [Memory.wfFrom, Bool.and_eq_true, decide_eq_true_eq] at h
    obtain ⟨⟨h1, h2⟩, h3⟩ := h
    unfold Memory.store
    split
    · simp only [Memory.wfFrom, Bool.and_eq_true, decide_eq_true_eq]
      exact ⟨⟨hlo, hcap⟩, ⟨by omega, h2⟩, h3⟩
    · split
      · subst_vars
        simp only [Memory.wfFrom, Bool.and_eq_true, decide_eq_true_eq]
        exact ⟨⟨hlo, hcap⟩, h3⟩
      · simp only [Memory.wfFrom, Bool.and_eq_true, decide_eq_true_eq]
        exact ⟨⟨h1, h2⟩, ih h3 (by omega)⟩

theorem wfFrom_ofBytes (bs : List Byte) {a cap : Nat} (h : a + bs.length ≤ cap) :
    Memory.wfFrom a cap (Memory.ofBytes a bs) = true := by
  induction bs generalizing a with
  | nil => rfl
  | cons b bs ih =>
    simp only [List.length_cons] at h
    simp only [Memory.ofBytes, Memory.wfFrom, Bool.and_eq_true, decide_eq_true_eq]
    exact ⟨⟨by omega, by omega⟩, ih (by omega)⟩

/-- A write below the capacity keeps the canonical form. -/
theorem store_keeps_wf {m : Memory} {cap a : Nat} (b : Byte) (h : Memory.wf cap m = true) (ha : a < cap) :
    Memory.wf cap (Memory.store m a b) = true := wfFrom_store b h (Nat.zero_le a) ha

/-- An output that fits is in canonical form. -/
theorem ofBytes_wf (bs : List Byte) {cap : Nat} (h : bs.length ≤ cap) :
    Memory.wf cap (Memory.ofBytes 0 bs) = true := wfFrom_ofBytes bs (by omega)

/-- Memories in canonical form with the same bytes are the same data. -/
theorem wfFrom_lookup_lt {m : Memory} {lo cap i : Nat} (h : Memory.wfFrom lo cap m = true) (hi : i < lo) :
    Memory.lookup m i = none := by
  induction m generalizing lo with
  | nil => rfl
  | cons c m ih =>
    obtain ⟨k, v⟩ := c
    simp only [Memory.wfFrom, Bool.and_eq_true, decide_eq_true_eq] at h
    have hk : k ≠ i := by omega
    simp [Memory.lookup, hk, ih h.2 (by omega)]

theorem wf_ext {m m' : Memory} {lo cap : Nat} (h : Memory.wfFrom lo cap m = true) (h' : Memory.wfFrom lo cap m' = true)
    (hl : ∀ i, Memory.lookup m i = Memory.lookup m' i) : m = m' := by
  induction m generalizing lo m' with
  | nil =>
    cases m' with
    | nil => rfl
    | cons c m' => have := hl c.1; simp [Memory.lookup] at this
  | cons c m ih =>
    obtain ⟨k, v⟩ := c
    cases m' with
    | nil => have := hl k; simp [Memory.lookup] at this
    | cons c' m' =>
      obtain ⟨k', v'⟩ := c'
      simp only [Memory.wfFrom, Bool.and_eq_true, decide_eq_true_eq] at h h'
      have hkk : k = k' := by
        rcases Nat.lt_trichotomy k k' with hlt | heq | hlt
        · have := hl k
          rw [show Memory.lookup ((k', v') :: m') k = none from by
            simp [Memory.lookup, show k' ≠ k by omega, wfFrom_lookup_lt h'.2 (show k < k' + 1 by omega)]] at this
          simp [Memory.lookup] at this
        · exact heq
        · have := hl k'
          rw [show Memory.lookup ((k, v) :: m) k' = none from by
            simp [Memory.lookup, show k ≠ k' by omega, wfFrom_lookup_lt h.2 (show k' < k + 1 by omega)]] at this
          simp [Memory.lookup] at this
      subst hkk
      have hv : v = v' := by have := hl k; simpa [Memory.lookup] using this
      subst hv
      have : m = m' := ih h.2 h'.2 fun i => by
        by_cases hi : i = k
        · subst hi
          rw [wfFrom_lookup_lt h.2 (by omega), wfFrom_lookup_lt h'.2 (by omega)]
        · have := hl i
          simpa [Memory.lookup, Ne.symm hi] using this
      rw [this]

end Sys2Proof.Machine
end

