-- ==== Sys2Proof/Laws/State.lean ====
section
/-! SUPPORT. One lemma per field per named update of the state, true by rfl. -/

namespace Sys2Proof.Machine

@[simp] theorem setIgn_cfg (s : State) : (setIgn s).cfg = s.cfg := rfl
@[simp] theorem setIgn_ie (s : State) : (setIgn s).ie = s.ie := rfl
@[simp] theorem setIgn_op (s : State) : (setIgn s).op = s.op := rfl
@[simp] theorem setIgn_done (s : State) : (setIgn s).done = s.done := rfl
@[simp] theorem setIgn_ign (s : State) : (setIgn s).ign = true := rfl
@[simp] theorem setIgn_errcode (s : State) : (setIgn s).errcode = s.errcode := rfl
@[simp] theorem setIgn_inLen (s : State) : (setIgn s).inLen = s.inLen := rfl
@[simp] theorem setIgn_outLen (s : State) : (setIgn s).outLen = s.outLen := rfl
@[simp] theorem setIgn_errPos (s : State) : (setIgn s).errPos = s.errPos := rfl
@[simp] theorem setIgn_inBuf (s : State) : (setIgn s).inBuf = s.inBuf := rfl
@[simp] theorem setIgn_outBuf (s : State) : (setIgn s).outBuf = s.outBuf := rfl
@[simp] theorem setIgn_eng (s : State) : (setIgn s).eng = s.eng := rfl
@[simp] theorem setIgn_sched (s : State) : (setIgn s).sched = s.sched := rfl
@[simp] theorem setIgn_returned (s : State) : (setIgn s).returned = s.returned := rfl
@[simp] theorem setIgn_draws (s : State) : (setIgn s).draws = s.draws := rfl

@[simp] theorem clearStatus_cfg (w : Word) (s : State) : (clearStatus w s).cfg = s.cfg := rfl
@[simp] theorem clearStatus_ie (w : Word) (s : State) : (clearStatus w s).ie = s.ie := rfl
@[simp] theorem clearStatus_op (w : Word) (s : State) : (clearStatus w s).op = s.op := rfl
@[simp] theorem clearStatus_done (w : Word) (s : State) : (clearStatus w s).done = (s.done && !w[1]) := rfl
@[simp] theorem clearStatus_ign (w : Word) (s : State) : (clearStatus w s).ign = (s.ign && !w[2]) := rfl
@[simp] theorem clearStatus_errcode (w : Word) (s : State) : (clearStatus w s).errcode = s.errcode := rfl
@[simp] theorem clearStatus_inLen (w : Word) (s : State) : (clearStatus w s).inLen = s.inLen := rfl
@[simp] theorem clearStatus_outLen (w : Word) (s : State) : (clearStatus w s).outLen = s.outLen := rfl
@[simp] theorem clearStatus_errPos (w : Word) (s : State) : (clearStatus w s).errPos = s.errPos := rfl
@[simp] theorem clearStatus_inBuf (w : Word) (s : State) : (clearStatus w s).inBuf = s.inBuf := rfl
@[simp] theorem clearStatus_outBuf (w : Word) (s : State) : (clearStatus w s).outBuf = s.outBuf := rfl
@[simp] theorem clearStatus_eng (w : Word) (s : State) : (clearStatus w s).eng = s.eng := rfl
@[simp] theorem clearStatus_sched (w : Word) (s : State) : (clearStatus w s).sched = s.sched := rfl
@[simp] theorem clearStatus_returned (w : Word) (s : State) : (clearStatus w s).returned = s.returned := rfl
@[simp] theorem clearStatus_draws (w : Word) (s : State) : (clearStatus w s).draws = s.draws := rfl

@[simp] theorem drawByte_snd_cfg (s : State) : ((drawByte s).2).cfg = s.cfg := rfl
@[simp] theorem drawByte_snd_ie (s : State) : ((drawByte s).2).ie = s.ie := rfl
@[simp] theorem drawByte_snd_op (s : State) : ((drawByte s).2).op = s.op := rfl
@[simp] theorem drawByte_snd_done (s : State) : ((drawByte s).2).done = s.done := rfl
@[simp] theorem drawByte_snd_ign (s : State) : ((drawByte s).2).ign = s.ign := rfl
@[simp] theorem drawByte_snd_errcode (s : State) : ((drawByte s).2).errcode = s.errcode := rfl
@[simp] theorem drawByte_snd_inLen (s : State) : ((drawByte s).2).inLen = s.inLen := rfl
@[simp] theorem drawByte_snd_outLen (s : State) : ((drawByte s).2).outLen = s.outLen := rfl
@[simp] theorem drawByte_snd_errPos (s : State) : ((drawByte s).2).errPos = s.errPos := rfl
@[simp] theorem drawByte_snd_inBuf (s : State) : ((drawByte s).2).inBuf = s.inBuf := rfl
@[simp] theorem drawByte_snd_outBuf (s : State) : ((drawByte s).2).outBuf = s.outBuf := rfl
@[simp] theorem drawByte_snd_eng (s : State) : ((drawByte s).2).eng = s.eng := rfl
@[simp] theorem drawByte_snd_sched (s : State) : ((drawByte s).2).sched = s.sched := rfl
@[simp] theorem drawByte_snd_returned (s : State) : ((drawByte s).2).returned = s.returned := rfl
@[simp] theorem drawByte_snd_draws (s : State) : ((drawByte s).2).draws = s.draws + 1 := rfl

@[simp] theorem accept_cfg (s : State) : (accept s).cfg = s.cfg := rfl
@[simp] theorem accept_ie (s : State) : (accept s).ie = s.ie := rfl
@[simp] theorem accept_op (s : State) : (accept s).op = s.op := rfl
@[simp] theorem accept_done (s : State) : (accept s).done = false := rfl
@[simp] theorem accept_ign (s : State) : (accept s).ign = false := rfl
@[simp] theorem accept_errcode (s : State) : (accept s).errcode = 0#4 := rfl
@[simp] theorem accept_inLen (s : State) : (accept s).inLen = s.inLen := rfl
@[simp] theorem accept_outLen (s : State) : (accept s).outLen = 0#32 := rfl
@[simp] theorem accept_errPos (s : State) : (accept s).errPos = 0#32 := rfl
@[simp] theorem accept_inBuf (s : State) : (accept s).inBuf = s.inBuf := rfl
@[simp] theorem accept_outBuf (s : State) : (accept s).outBuf = [] := rfl
@[simp] theorem accept_eng (s : State) : (accept s).eng = { Engine.reset with st := .check, opL := s.op, nL := s.inLen } := rfl
@[simp] theorem accept_sched (s : State) : (accept s).sched = s.sched := rfl
@[simp] theorem accept_returned (s : State) : (accept s).returned = s.returned := rfl
@[simp] theorem accept_draws (s : State) : (accept s).draws = s.draws := rfl

@[simp] theorem recordError_cfg (c : ErrCode) (pos : Word) (s : State) : (recordError c pos s).cfg = s.cfg := rfl
@[simp] theorem recordError_ie (c : ErrCode) (pos : Word) (s : State) : (recordError c pos s).ie = s.ie := rfl
@[simp] theorem recordError_op (c : ErrCode) (pos : Word) (s : State) : (recordError c pos s).op = s.op := rfl
@[simp] theorem recordError_done (c : ErrCode) (pos : Word) (s : State) : (recordError c pos s).done = true := rfl
@[simp] theorem recordError_ign (c : ErrCode) (pos : Word) (s : State) : (recordError c pos s).ign = s.ign := rfl
@[simp] theorem recordError_errcode (c : ErrCode) (pos : Word) (s : State) : (recordError c pos s).errcode = c.code := rfl
@[simp] theorem recordError_inLen (c : ErrCode) (pos : Word) (s : State) : (recordError c pos s).inLen = s.inLen := rfl
@[simp] theorem recordError_outLen (c : ErrCode) (pos : Word) (s : State) : (recordError c pos s).outLen = 0#32 := rfl
@[simp] theorem recordError_errPos (c : ErrCode) (pos : Word) (s : State) : (recordError c pos s).errPos = pos := rfl
@[simp] theorem recordError_inBuf (c : ErrCode) (pos : Word) (s : State) : (recordError c pos s).inBuf = s.inBuf := rfl
@[simp] theorem recordError_outBuf (c : ErrCode) (pos : Word) (s : State) : (recordError c pos s).outBuf = [] := rfl
@[simp] theorem recordError_eng (c : ErrCode) (pos : Word) (s : State) : (recordError c pos s).eng = { s.eng with st := .idle, resC := c.code, resP := pos } := rfl
@[simp] theorem recordError_sched (c : ErrCode) (pos : Word) (s : State) : (recordError c pos s).sched = s.sched := rfl
@[simp] theorem recordError_returned (c : ErrCode) (pos : Word) (s : State) : (recordError c pos s).returned = s.returned := rfl
@[simp] theorem recordError_draws (c : ErrCode) (pos : Word) (s : State) : (recordError c pos s).draws = s.draws := rfl

@[simp] theorem complete_ok_cfg (y : List Byte) (s : State) : (complete (.ok y) s).cfg = s.cfg := rfl
@[simp] theorem complete_ok_ie (y : List Byte) (s : State) : (complete (.ok y) s).ie = s.ie := rfl
@[simp] theorem complete_ok_op (y : List Byte) (s : State) : (complete (.ok y) s).op = s.op := rfl
@[simp] theorem complete_ok_done (y : List Byte) (s : State) : (complete (.ok y) s).done = true := rfl
@[simp] theorem complete_ok_ign (y : List Byte) (s : State) : (complete (.ok y) s).ign = s.ign := rfl
@[simp] theorem complete_ok_errcode (y : List Byte) (s : State) : (complete (.ok y) s).errcode = 0#4 := rfl
@[simp] theorem complete_ok_inLen (y : List Byte) (s : State) : (complete (.ok y) s).inLen = s.inLen := rfl
@[simp] theorem complete_ok_outLen (y : List Byte) (s : State) : (complete (.ok y) s).outLen = BitVec.ofNat 32 y.length := rfl
@[simp] theorem complete_ok_errPos (y : List Byte) (s : State) : (complete (.ok y) s).errPos = 0#32 := rfl
@[simp] theorem complete_ok_inBuf (y : List Byte) (s : State) : (complete (.ok y) s).inBuf = s.inBuf := rfl
@[simp] theorem complete_ok_outBuf (y : List Byte) (s : State) : (complete (.ok y) s).outBuf = Memory.ofBytes 0 y := rfl
@[simp] theorem complete_ok_eng (y : List Byte) (s : State) : (complete (.ok y) s).eng = { s.eng with st := .idle, resC := 0#4, resP := 0#32 } := rfl
@[simp] theorem complete_ok_sched (y : List Byte) (s : State) : (complete (.ok y) s).sched = s.sched := rfl
@[simp] theorem complete_ok_returned (y : List Byte) (s : State) : (complete (.ok y) s).returned = s.returned := rfl
@[simp] theorem complete_ok_draws (y : List Byte) (s : State) : (complete (.ok y) s).draws = s.draws := rfl

@[simp] theorem resetEvent_cfg (s : State) : (resetEvent s).cfg = s.cfg := rfl
@[simp] theorem resetEvent_ie (s : State) : (resetEvent s).ie = false := rfl
@[simp] theorem resetEvent_op (s : State) : (resetEvent s).op = 0#3 := rfl
@[simp] theorem resetEvent_done (s : State) : (resetEvent s).done = false := rfl
@[simp] theorem resetEvent_ign (s : State) : (resetEvent s).ign = false := rfl
@[simp] theorem resetEvent_errcode (s : State) : (resetEvent s).errcode = 0#4 := rfl
@[simp] theorem resetEvent_inLen (s : State) : (resetEvent s).inLen = 0#32 := rfl
@[simp] theorem resetEvent_outLen (s : State) : (resetEvent s).outLen = 0#32 := rfl
@[simp] theorem resetEvent_errPos (s : State) : (resetEvent s).errPos = 0#32 := rfl
@[simp] theorem resetEvent_inBuf (s : State) : (resetEvent s).inBuf = [] := rfl
@[simp] theorem resetEvent_outBuf (s : State) : (resetEvent s).outBuf = [] := rfl
@[simp] theorem resetEvent_eng (s : State) : (resetEvent s).eng = Engine.reset := rfl
@[simp] theorem resetEvent_sched (s : State) : (resetEvent s).sched = s.sched := rfl
@[simp] theorem resetEvent_returned (s : State) : (resetEvent s).returned = s.returned := rfl
@[simp] theorem resetEvent_draws (s : State) : (resetEvent s).draws = s.draws := rfl

@[simp] theorem mapEng_cfg (f : Engine → Engine) (s : State) : (s.mapEng f).cfg = s.cfg := rfl
@[simp] theorem mapEng_ie (f : Engine → Engine) (s : State) : (s.mapEng f).ie = s.ie := rfl
@[simp] theorem mapEng_op (f : Engine → Engine) (s : State) : (s.mapEng f).op = s.op := rfl
@[simp] theorem mapEng_done (f : Engine → Engine) (s : State) : (s.mapEng f).done = s.done := rfl
@[simp] theorem mapEng_ign (f : Engine → Engine) (s : State) : (s.mapEng f).ign = s.ign := rfl
@[simp] theorem mapEng_errcode (f : Engine → Engine) (s : State) : (s.mapEng f).errcode = s.errcode := rfl
@[simp] theorem mapEng_inLen (f : Engine → Engine) (s : State) : (s.mapEng f).inLen = s.inLen := rfl
@[simp] theorem mapEng_outLen (f : Engine → Engine) (s : State) : (s.mapEng f).outLen = s.outLen := rfl
@[simp] theorem mapEng_errPos (f : Engine → Engine) (s : State) : (s.mapEng f).errPos = s.errPos := rfl
@[simp] theorem mapEng_inBuf (f : Engine → Engine) (s : State) : (s.mapEng f).inBuf = s.inBuf := rfl
@[simp] theorem mapEng_outBuf (f : Engine → Engine) (s : State) : (s.mapEng f).outBuf = s.outBuf := rfl
@[simp] theorem mapEng_eng (f : Engine → Engine) (s : State) : (s.mapEng f).eng = f s.eng := rfl
@[simp] theorem mapEng_sched (f : Engine → Engine) (s : State) : (s.mapEng f).sched = s.sched := rfl
@[simp] theorem mapEng_returned (f : Engine → Engine) (s : State) : (s.mapEng f).returned = s.returned := rfl
@[simp] theorem mapEng_draws (f : Engine → Engine) (s : State) : (s.mapEng f).draws = s.draws := rfl

@[simp] theorem recordRead_cfg (v : Word) (s : State) : (recordRead v s).cfg = s.cfg := rfl
@[simp] theorem recordRead_ie (v : Word) (s : State) : (recordRead v s).ie = s.ie := rfl
@[simp] theorem recordRead_op (v : Word) (s : State) : (recordRead v s).op = s.op := rfl
@[simp] theorem recordRead_done (v : Word) (s : State) : (recordRead v s).done = s.done := rfl
@[simp] theorem recordRead_ign (v : Word) (s : State) : (recordRead v s).ign = s.ign := rfl
@[simp] theorem recordRead_errcode (v : Word) (s : State) : (recordRead v s).errcode = s.errcode := rfl
@[simp] theorem recordRead_inLen (v : Word) (s : State) : (recordRead v s).inLen = s.inLen := rfl
@[simp] theorem recordRead_outLen (v : Word) (s : State) : (recordRead v s).outLen = s.outLen := rfl
@[simp] theorem recordRead_errPos (v : Word) (s : State) : (recordRead v s).errPos = s.errPos := rfl
@[simp] theorem recordRead_inBuf (v : Word) (s : State) : (recordRead v s).inBuf = s.inBuf := rfl
@[simp] theorem recordRead_outBuf (v : Word) (s : State) : (recordRead v s).outBuf = s.outBuf := rfl
@[simp] theorem recordRead_eng (v : Word) (s : State) : (recordRead v s).eng = s.eng := rfl
@[simp] theorem recordRead_sched (v : Word) (s : State) : (recordRead v s).sched = s.sched := rfl
@[simp] theorem recordRead_returned (v : Word) (s : State) : (recordRead v s).returned = v :: s.returned := rfl
@[simp] theorem recordRead_draws (v : Word) (s : State) : (recordRead v s).draws = s.draws := rfl
@[simp] theorem drawByte_fst (s : State) : (drawByte s).1 = Config.freeByte s.draws := rfl

@[simp] theorem complete_err (c : ErrCode) (pos : Word) (s : State) : complete (.err c pos) s = recordError c pos s := rfl

/-- STATUS.BUSY depends on the engine alone. -/
theorem busy_eq (s : State) : s.busy = (s.eng.st != .idle) := rfl

@[simp] theorem accept_busy (s : State) : (accept s).busy = true := rfl

@[simp] theorem recordError_busy (c : ErrCode) (pos : Word) (s : State) : (recordError c pos s).busy = false := rfl

@[simp] theorem complete_busy (r : Result) (s : State) : (complete r s).busy = false := by cases r <;> rfl

@[simp] theorem complete_done (r : Result) (s : State) : (complete r s).done = true := by cases r <;> rfl

@[simp] theorem resetEvent_busy (s : State) : (resetEvent s).busy = false := rfl

@[simp] theorem setIgn_busy (s : State) : (setIgn s).busy = s.busy := rfl

@[simp] theorem clearStatus_busy (w : Word) (s : State) : (clearStatus w s).busy = s.busy := rfl

@[simp] theorem drawByte_snd_busy (s : State) : (drawByte s).2.busy = s.busy := rfl

@[simp] theorem recordRead_busy (v : Word) (s : State) : (recordRead v s).busy = s.busy := rfl

end Sys2Proof.Machine
end

