-- ==== Sys2Proof/Laws/Ops.lean ====
section
/-! SUPPORT. One lemma per shared operation, saying once everything it can do. -/

namespace Sys2Proof.Machine

/-- A written byte is read as it is, and nothing is drawn. -/
theorem inRead_written {s : State} {i : Nat} {b : Byte} (h : Memory.lookup s.inBuf i = some b) : inRead i s = (b, s) := by
  simp [inRead, h]

/-- A byte not written since reset is the next free value. -/
theorem inRead_unwritten {s : State} {i : Nat} (h : Memory.lookup s.inBuf i = none) : inRead i s = drawByte s := by
  simp [inRead, h]

/-- Reading IN_BUF changes the count of draws alone. -/
theorem inRead_frame (i : Nat) (s : State) : ∃ n, n ≤ 1 ∧ (inRead i s).2 = { s with draws := s.draws + n } := by
  cases h : Memory.lookup s.inBuf i with
  | some b => exact ⟨0, by omega, by simp [inRead_written h]⟩
  | none => exact ⟨1, by omega, by simp [inRead_unwritten h, drawByte]⟩

/-- A range of reads has its length and changes the count of draws alone. -/
theorem readRange_frame (i k : Nat) (s : State) :
    (readRange i k s).1.length = k ∧ ∃ n, (readRange i k s).2 = { s with draws := s.draws + n } := by
  induction k generalizing i s with
  | zero => exact ⟨rfl, 0, rfl⟩
  | succ k ih =>
    obtain ⟨n, _, hn⟩ := inRead_frame i s
    obtain ⟨hl, m, hm⟩ := ih (i + 1) (inRead i s).2
    exact ⟨by simp [readRange, hl], n + m, by rw [readRange, hm, hn, Nat.add_assoc]⟩

/-- A range whose bytes the host has written is those bytes, and nothing is drawn. -/
theorem readRange_written {x : List Byte} {s : State} (i : Nat)
    (h : ∀ j, j < x.length → Memory.lookup s.inBuf (i + j) = x[j]?) : readRange i x.length s = (x, s) := by
  induction x generalizing i with
  | nil => rfl
  | cons b x ih =>
    have h0 : inRead i s = (b, s) := inRead_written (by simpa using h 0 (by simp))
    have hr : readRange (i + 1) x.length s = (x, s) := ih (i + 1) fun j hj => by
      have := h (j + 1) (by simpa using hj)
      rw [show i + 1 + j = i + (j + 1) by omega, this]; simp
    simp [readRange, h0, hr]

/-- The input has the latched length (R93). -/
theorem commandInput_length (s : State) : (commandInput s).1.length = s.eng.nL.toNat := (readRange_frame 0 _ s).1

theorem commandInput_frame (s : State) : ∃ n, (commandInput s).2 = { s with draws := s.draws + n } :=
  (readRange_frame 0 _ s).2

/-- An input the host has written is its bytes, and nothing is drawn. -/
theorem commandInput_written {s : State} {x : List Byte} (hl : x.length = s.eng.nL.toNat) (h : HoldsInput s x) :
    commandInput s = (x, s) := by
  unfold commandInput
  rw [← hl]
  exact readRange_written 0 fun j hj => by simpa using h j hj

/-- A latched length above IN_CAP ends in LENGTH_ERROR before anything is read (R204). -/
theorem runCommand_lengthError {f : List Byte → Result} {s : State} (h : s.cfg.inCap < s.eng.nL.toNat) :
    runCommand f s = recordError .lengthError 0#32 s := by simp [runCommand, h]

/-- A legal length: the command's function on the input, the capacity test, completion (R94). -/
theorem runCommand_legal {f : List Byte → Result} {s : State} (h : s.eng.nL.toNat ≤ s.cfg.inCap) :
    runCommand f s = complete (capacityTest s.cfg (f (commandInput s).1)) (commandInput s).2 := by
  simp [runCommand, Nat.not_lt.2 h]

/-- What holds of every result a command completes with: an output fits in OUT_BUF (R94), and only MALFORMED_INPUT has a
position other than 0 (R208). -/
def LegalResult (p : Params) (r : Result) : Prop :=
  match r with
  | .ok y => y.length ≤ p.outCap
  | .err c pos => pos ≠ 0#32 → c = .malformedInput

/-- The capacity test leaves a legal result of a result whose error, if any, is legal (R94). -/
theorem capacityTest_legal {p : Params} {r : Result} (h : ∀ c pos, r = .err c pos → pos ≠ 0#32 → c = .malformedInput) :
    LegalResult p (capacityTest p r) := by
  cases r with
  | ok y =>
    by_cases hy : p.outCap < y.length
    · simp [capacityTest, hy, LegalResult]
    · simp only [capacityTest, hy, if_false, LegalResult]; omega
  | err c pos => exact h c pos rfl

/-- The decoder's errors are MALFORMED_INPUT alone (R201). -/
theorem rleDecodeCheck_err {p : List Byte} {base : Nat} {c : ErrCode} {pos : Word}
    (h : rleDecodeCheck p base = .err c pos) : c = .malformedInput := by
  unfold rleDecodeCheck at h
  split at h
  · injection h with h; exact h.symm
  · split at h
    · injection h with h; exact h.symm
    · simp at h

/-- Every command is one completion with a legal result, after drawing the input's unspecified bytes. -/
theorem runCommand_complete {f : List Byte → Result} (s : State)
    (hf : ∀ x c pos, f x = .err c pos → pos ≠ 0#32 → c = .malformedInput) :
    ∃ r n, runCommand f s = complete r { s with draws := s.draws + n } ∧ LegalResult s.cfg r := by
  by_cases h : s.cfg.inCap < s.eng.nL.toNat
  · exact ⟨.err .lengthError 0#32, 0, by simp [runCommand_lengthError h], fun hp => absurd rfl hp⟩
  · obtain ⟨n, hn⟩ := commandInput_frame s
    exact ⟨capacityTest s.cfg (f (commandInput s).1), n, by rw [runCommand_legal (by omega), hn],
      capacityTest_legal (hf _)⟩

/-- Every instruction is one completion with a legal result: there is no other way an instruction ends. -/
theorem exec_complete (i : Instr) (s : State) :
    ∃ r n, exec i s = .next (complete r { s with draws := s.draws + n }) ∧ LegalResult s.cfg r := by
  have hb : ∃ r n, Host.Outcome.next (recordError .badCommand 0#32 s) =
      (.next (complete r { s with draws := s.draws + n }) : Host.Outcome State Fault Refusal) ∧ LegalResult s.cfg r :=
    ⟨.err .badCommand 0#32, 0, by simp, fun hp => absurd rfl hp⟩
  have hc : ∀ f, (∀ x c pos, f x = .err c pos → pos ≠ 0#32 → c = .malformedInput) →
      ∃ r n, Host.Outcome.next (runCommand f s) =
        (.next (complete r { s with draws := s.draws + n }) : Host.Outcome State Fault Refusal) ∧ LegalResult s.cfg r :=
    fun f hf => by
      obtain ⟨r, n, h, h'⟩ := runCommand_complete s hf
      exact ⟨r, n, by rw [h], h'⟩
  cases i with
  | reservedOp0 => exact hb
  | reservedOp5 => exact hb
  | reservedOp6 => exact hb
  | reservedOp7 => exact hb
  | rleEnc => exact hc _ fun x c pos h => by simp at h
  | rleDec => exact hc _ fun x c pos h _ => rleDecodeCheck_err h
  | adpComp => exact hc _ fun x c pos h => by simp at h
  | tagR => exact hc _ fun x c pos h _ => rleDecodeCheck_err h
  | tagI => exact hc _ fun x c pos h => by simp at h
  | adpDec =>
    refine hc _ fun x c pos h hp => ?_
    unfold adpDecompressCheck at h
    split at h
    · simp at h
    · split at h
      · exact rleDecodeCheck_err h
      · split at h
        · simp at h
        · injection h with _ h; exact absurd h.symm hp

/-- The engine's turn is one completion if it is Busy, and nothing if it is Idle (R40, R218). -/
theorem engineTurn_cases (s : State) :
    (s.busy = false ∧ engineTurn s = .next s) ∨
    (s.busy = true ∧ ∃ r n, engineTurn s = .next (complete r { s with draws := s.draws + n }) ∧ LegalResult s.cfg r) := by
  by_cases hb : s.busy = true
  · refine .inr ⟨hb, ?_⟩
    unfold engineTurn
    rw [if_pos hb]
    split
    · exact exec_complete _ _
    · obtain ⟨r, n, h, h'⟩ := runCommand_complete (f := fun _ => .err .unknownFormat 0#32) s
        fun x c pos h hp => by injection h with _ h; exact absurd h.symm hp
      exact ⟨r, n, by rw [unknownTag, h], h'⟩
  · exact .inl ⟨by simpa using hb, by simp [engineTurn, hb]⟩

/-- What a completion with output y leaves is a success with it, where it fits in 32 bits (R29, R40). -/
theorem complete_ok_succeeded {y : List Byte} {s : State} (h : y.length < 2 ^ 32) : Succeeded (complete (.ok y) s) y where
  length := by simp; omega
  bytes := fun j => by simp
  errPos := rfl
  errcode := rfl
  done := rfl
  idle := rfl

/-- What recording an error leaves is that error (R207). -/
theorem recordError_failed (c : ErrCode) (pos : Nat) (s : State) (h : pos < 2 ^ 32) :
    Failed (recordError c (BitVec.ofNat 32 pos) s) c pos where
  errcode := rfl
  errPos := by simp; omega
  length := rfl
  bytes := fun _ => rfl
  done := rfl
  idle := rfl

/-- A completion after drawing bytes keeps the frame. -/
theorem complete_frame (r : Result) (s : State) (n : Nat) : CompletionFrame s (complete r { s with draws := n }) := by
  cases r <;> constructor <;> rfl

/-- The constraints of R7 as inequalities. -/
theorem wf_iff (p : Params) : p.wf = true ↔
    1 ≤ p.inCap ∧ 2 * p.inCap ≤ p.outCap ∧ p.outCap ≤ 2 ^ 32 - 1 ∧ 255 * (p.inCap / 2) ≤ 2 ^ p.accW - 1 := by
  simp [Params.wf, and_assoc]

/-- At a command word, the instruction fetched is that of the latched op_l (R90, R91). -/
theorem fetch_cmd {s : State} (h : atTag s = false) : fetch s = .ok (decodeOp s.eng.opL) := by
  have hw : ∀ o : BitVec 3, (packWord ((o.setWidth 32).extractLsb' 0 8) ((o.setWidth 32).extractLsb' 8 8)
      ((o.setWidth 32).extractLsb' 16 8) ((o.setWidth 32).extractLsb' 24 8)).extractLsb' 0 3 = o := by decide
  have key : ∀ o : BitVec 3, (decode .cmd (wordBytes (o.setWidth 32))).map Prod.fst = .ok (decodeOp o) := by
    intro o
    simp only [wordBytes, decode, decodeCmd, hw]; rfl
  simp only [fetch, fetchFormat, fetchBytes, h]
  exact key _

/-- At a tag, the instruction fetched is the tag's, or none where the tag is reserved (R96). -/
theorem fetch_tag {s : State} (h : atTag s = true) : fetch s = decodeTag s.eng.curV := by
  simp only [fetch, fetchFormat, fetchBytes, h, if_true, decode]
  cases decodeTag s.eng.curV <;> rfl

end Sys2Proof.Machine
end

