-- ==== Sys2Proof/Laws/Datapath.lean ====
section
/-! SUPPORT. What an internal step of the reference engine can touch: the working registers, OUT_BUF and the draws (R41). -/

namespace Sys2Proof.Machine

/-- From s to t only working registers, OUT_BUF bytes and draws changed; the latched command stayed. -/
structure Internal (s t : State) : Prop where
  frame : t = { s with eng := t.eng, outBuf := t.outBuf, draws := t.draws }
  opL   : t.eng.opL = s.eng.opL
  nL    : t.eng.nL = s.eng.nL

theorem Internal.refl (s : State) : Internal s s := ⟨rfl, rfl, rfl⟩

theorem Internal.trans {s t u : State} (h : Internal s t) (h' : Internal t u) : Internal s u where
  frame := by rw [h'.frame, h.frame]
  opL := h'.opL.trans h.opL
  nL := h'.nL.trans h.nL

theorem Internal.mapEng {s t : State} {f : Engine → Engine} (h : Internal s t)
    (ho : (f t.eng).opL = t.eng.opL) (hn : (f t.eng).nL = t.eng.nL) : Internal s (t.mapEng f) :=
  h.trans ⟨rfl, ho, hn⟩

theorem internal_inRead (i : Nat) (s : State) : Internal s (inRead i s).2 := by
  obtain ⟨n, _, h⟩ := inRead_frame i s
  rw [h]; exact ⟨rfl, rfl, rfl⟩

theorem inRead_eng (i : Nat) (s : State) : (inRead i s).2.eng = s.eng := by
  obtain ⟨n, _, h⟩ := inRead_frame i s
  rw [h]

theorem internal_outWrite (j : Nat) (v : Byte) (s : State) : Internal s (outWrite j v s) := by
  unfold outWrite; split <;> exact ⟨rfl, rfl, rfl⟩

@[simp] theorem outWrite_eng (j : Nat) (v : Byte) (s : State) : (outWrite j v s).eng = s.eng := by
  unfold outWrite; split <;> rfl

/-- A write of the engine stores its byte below OUT_CAP and nothing at or above it (R70). -/
theorem lookup_outWrite (j : Nat) (v : Byte) (s : State) (i : Nat) :
    Memory.lookup (outWrite j v s).outBuf i = if i = j ∧ j < s.cfg.outCap then some v else Memory.lookup s.outBuf i := by
  unfold outWrite
  split
  · rename_i h; simp [lookup_store, h]
  · rename_i h; simp [h]

theorem outWrite_wf {s : State} (j : Nat) (v : Byte) (h : Memory.wf s.cfg.outCap s.outBuf = true) :
    Memory.wf s.cfg.outCap (outWrite j v s).outBuf = true := by
  unfold outWrite
  split
  · rename_i hj; exact store_keeps_wf v h hj
  · exact h

/-- What one internal step of a Busy engine can do: nothing outside `Internal`, and the engine stays Busy (R41). -/
structure WorkEffect (s t : State) : Prop where
  internal : Internal s t
  busy     : t.eng.st ≠ .idle

theorem workEffect_raisePending (c p) (s u : State) (h : Internal s u) :
    WorkEffect s (raisePending c p u) :=
  ⟨h.mapEng rfl rfl, by simp [raisePending]⟩

theorem workEffect_okPending (s u : State) (h : Internal s u) :
    WorkEffect s (okPending u) :=
  ⟨h.mapEng rfl rfl, by simp [okPending]⟩

theorem workEffect_enterP1 (rd) (s u : State) (h : Internal s u) :
    WorkEffect s (enterP1 rd u) :=
  ⟨h.mapEng rfl rfl, by simp [enterP1]⟩

theorem workEffect_enterP2 (rd wr) (s u : State) (h : Internal s u) :
    WorkEffect s (enterP2 rd wr u) :=
  ⟨h.mapEng rfl rfl, by simp [enterP2]⟩

theorem inRead_st (i : Nat) (s : State) : (inRead i s).2.eng.st = s.eng.st := by rw [inRead_eng]

theorem workEffect_openRun (s : State) (hs : s.eng.st ≠ .idle) : WorkEffect s (openRun s) :=
  ⟨(internal_inRead _ s).mapEng rfl rfl, by simp [openRun, inRead_st, hs]⟩

theorem workEffect_countPair (s u : State) (h : Internal s u) (hs : u.eng.st ≠ .idle) :
    WorkEffect s (countPair u) :=
  ⟨h.mapEng rfl rfl, by simp [countPair, hs]⟩

theorem workEffect_emitPair (s u : State) (h : Internal s u) (hs : u.eng.st ≠ .idle) : WorkEffect s (emitPair u) :=
  ⟨(h.trans ((internal_outWrite _ _ _).trans (internal_outWrite _ _ _))).mapEng rfl rfl, by simp [emitPair, hs]⟩

theorem workEffect_extendRun (cp : State → State)
    (hcp : ∀ s u, Internal s u → u.eng.st ≠ .idle → WorkEffect s (cp u)) (s : State) (hs : s.eng.st ≠ .idle) :
    WorkEffect s (extendRun cp s) := by
  unfold extendRun
  split
  · split
    · exact ⟨(internal_inRead _ s).mapEng rfl rfl, by simp [inRead_st, hs]⟩
    · exact hcp _ _ (internal_inRead _ s) (by rw [inRead_st]; exact hs)
  · exact hcp _ _ (Internal.refl s) hs

/-- Every internal step of a Busy engine (R41). -/
theorem workStep_effect (s : State) (hs : s.eng.st ≠ .idle) : WorkEffect s (workStep s) := by
  have hr := Internal.refl s
  have hm : ∀ b, Internal s (s.mapEng fun e => { e with sel := b }) := fun b => hr.mapEng rfl rfl
  have hsz : WorkEffect s (sizeStep s) := by
    unfold sizeStep sizeDone
    split
    · split
      · exact workEffect_openRun s hs
      · simp only
        split
        · split <;> split
          · exact workEffect_raisePending _ _ _ _ hr
          · exact workEffect_enterP2 _ _ _ _ ((hm _).trans (internal_outWrite _ _ _))
          · exact workEffect_raisePending _ _ _ _ hr
          · exact workEffect_enterP2 _ _ _ _ ((hm _).trans (internal_outWrite _ _ _))
        · split
          · exact workEffect_raisePending _ _ _ _ hr
          · exact workEffect_enterP2 _ _ _ _ hr
    · exact workEffect_extendRun _ workEffect_countPair s hs
  have hem : WorkEffect s (emitStep s) := by
    unfold emitStep
    split
    · split
      · exact workEffect_openRun s hs
      · exact workEffect_okPending _ _ hr
    · exact workEffect_extendRun _ workEffect_emitPair s hs
  have hcopy : WorkEffect s (copyStep s) := by
    unfold copyStep
    split
    · exact ⟨((internal_inRead _ s).trans (internal_outWrite _ _ _)).mapEng rfl rfl, by simp [inRead_st, hs]⟩
    · exact workEffect_okPending _ _ hr
  have hsum : WorkEffect s (sumStep s) := by
    unfold sumStep
    split
    · split
      · exact workEffect_raisePending _ _ _ _ (internal_inRead _ s)
      · exact ⟨(internal_inRead _ s).mapEng rfl rfl, by simp [inRead_st, hs]⟩
    · split
      · exact workEffect_raisePending _ _ _ _ hr
      · split
        · exact workEffect_raisePending _ _ _ _ hr
        · exact workEffect_enterP2 _ _ _ _ hr
  have hexp : WorkEffect s (expandStep s) := by
    unfold expandStep
    split
    · split
      · exact ⟨((internal_inRead _ s).trans (internal_inRead _ _)).mapEng rfl rfl, by simp [inRead_st, hs]⟩
      · exact workEffect_okPending _ _ hr
    · exact ⟨(internal_outWrite _ _ s).mapEng rfl rfl, by simp [hs]⟩
  unfold workStep
  split
  · exact absurd ‹_› hs
  · unfold checkStep
    split
    · split
      · exact workEffect_raisePending _ _ _ _ hr
      · exact workEffect_enterP1 _ _ _ hr
    · split
      · exact workEffect_raisePending _ _ _ _ hr
      · exact workEffect_enterP1 _ _ _ hr
    · split
      · exact workEffect_raisePending _ _ _ _ hr
      · split
        · exact workEffect_okPending _ _ hr
        · exact workEffect_enterP1 _ _ _ hr
    · split
      · exact workEffect_raisePending _ _ _ _ hr
      · split
        · exact workEffect_okPending _ _ hr
        · split
          · unfold dispatchTag
            split
            · exact workEffect_enterP1 _ _ _ (hm _)
            · split
              · exact workEffect_enterP2 _ _ _ _ (hm _)
              · exact workEffect_raisePending _ _ _ _ hr
          · exact ⟨(internal_inRead _ s).mapEng rfl rfl, by simp [readTag, inRead_st, hs]⟩
    · exact workEffect_raisePending _ _ _ _ hr
  · unfold p1Step; split <;> first | exact hsz | exact hsum
  · unfold p2Step; split
    · exact hem
    · exact hexp
    · split <;> first | exact hem | exact hcopy
    · split <;> first | exact hexp | exact hcopy
  · exact ⟨hr, hs⟩

end Sys2Proof.Machine
end

