-- ==== Sys2Proof/Laws/Decode.lean ====
section
/-! SUPPORT. The fields of a transaction record read back, and the two spellings of a command word's OP. -/

namespace Sys2Proof

@[simp] theorem decodeRegion_encodeRegion (r : Region) : decodeRegion (encodeRegion r) = r := by cases r <;> rfl

@[simp] theorem encodeRegion_decodeRegion (b : BitVec 2) : encodeRegion (decodeRegion b) = b := by
  revert b; decide

/-- Every field of a record is where R104 lays it, so it reads back. -/
theorem packRecord_fields (wr : Bool) (r : Region) (w32 : Bool) (off data : Word) :
    (packRecord wr r w32 off data).extractLsb' 0 32 = data ∧
    (packRecord wr r w32 off data).extractLsb' 32 32 = off ∧
    (packRecord wr r w32 off data)[64] = w32 ∧
    (packRecord wr r w32 off data)[67] = wr ∧
    (packRecord wr r w32 off data).extractLsb' 65 2 = encodeRegion r ∧
    (packRecord wr r w32 off data).extractLsb' 68 4 = 0#4 ∧
    (packRecord wr r w32 off data).extractLsb' 0 8 = data.extractLsb' 0 8 ∧
    (packRecord wr r w32 off data).extractLsb' 8 24 = data.extractLsb' 8 24 := by
  have hd : (recordDigit wr r w32)[0] = w32 ∧ (recordDigit wr r w32)[3] = wr ∧
      ∀ i (h : i < 2), (recordDigit wr r w32)[1 + i] = (encodeRegion r)[i] := by
    refine ⟨?_, ?_, ?_⟩ <;> cases wr <;> cases r <;> cases w32 <;> decide
  unfold packRecord
  refine ⟨?_, ?_, ?_, ?_, ?_, ?_, ?_, ?_⟩
  · apply BitVec.eq_of_getElem_eq; intro i hi
    simp [hi, show i < 72 by omega, show i < 64 by omega]
  · apply BitVec.eq_of_getElem_eq; intro i hi
    simp [hi, show 32 + i < 72 by omega, show 32 + i < 64 by omega]
  · simp; simpa [BitVec.getLsbD_eq_getElem] using hd.1
  · simp; simpa [BitVec.getLsbD_eq_getElem] using hd.2.1
  · apply BitVec.eq_of_getElem_eq; intro i hi
    have := hd.2.2 i hi
    simp [show 65 + i < 72 by omega, show ¬ 65 + i < 64 by omega, show 65 + i - 64 = 1 + i by omega,
      show 65 + i - 32 = 33 + i by omega]
    rw [BitVec.getLsbD_eq_getElem (show 1 + i < 4 by omega), BitVec.getLsbD_of_ge off (33 + i) (by omega),
      BitVec.getLsbD_of_ge data (65 + i) (by omega)]
    simpa using this
  · apply BitVec.eq_of_getElem_eq; intro i hi
    simp [show 68 + i < 72 by omega, show ¬ 68 + i < 64 by omega, show 68 + i - 64 = 4 + i by omega,
      show 68 + i - 32 = 36 + i by omega, BitVec.getLsbD_of_ge off (36 + i) (by omega),
      BitVec.getLsbD_of_ge data (68 + i) (by omega)]
  · apply BitVec.eq_of_getElem_eq; intro i hi
    simp [show i < 32 by omega, show i < 72 by omega, show i < 64 by omega]
  · apply BitVec.eq_of_getElem_eq; intro i hi
    simp [show 8 + i < 32 by omega, show 8 + i < 72 by omega, show 8 + i < 64 by omega]

/-- OP is the command word modulo 8 (R26, R90). -/
theorem opField_eq (w : Word) : w.extractLsb' 0 3 = BitVec.ofNat 3 w.toNat := by
  apply BitVec.eq_of_toNat_eq; simp [BitVec.extractLsb']

/-- The bytes of a word, packed again, are the word (R64). -/
theorem packWord_wordBytes (w : Word) :
    packWord (w.extractLsb' 0 8) (w.extractLsb' 8 8) (w.extractLsb' 16 8) (w.extractLsb' 24 8) = w := by
  apply BitVec.eq_of_getLsbD_eq
  intro i hi
  simp only [packWord, BitVec.getLsbD_append, BitVec.getLsbD_extractLsb']
  by_cases h0 : i < 8
  · simp [h0]
  by_cases h1 : i < 16
  · simp [h0, show i - 8 < 8 by omega, show 8 + (i - 8) = i by omega]
  by_cases h2 : i < 24
  · simp [h0, show ¬ i - 8 < 8 by omega, show i - 8 - 8 < 8 by omega, show 16 + (i - 8 - 8) = i by omega]
  · simp [h0, show ¬ i - 8 < 8 by omega, show ¬ i - 8 - 8 < 8 by omega, show i - 8 - 8 - 8 < 8 by omega,
      show 24 + (i - 8 - 8 - 8) = i by omega]

/-- Four bytes as a number, the first the least significant (R64). -/
theorem packWord_eq (b0 b1 b2 b3 : Byte) :
    packWord b0 b1 b2 b3 =
      BitVec.ofNat 32 (b0.toNat + 256 * b1.toNat + 65536 * b2.toNat + 16777216 * b3.toNat) := by
  apply BitVec.eq_of_toNat_eq
  have h0 := b0.isLt
  have h1 := b1.isLt
  have h2 := b2.isLt
  have h3 := b3.isLt
  simp only [packWord, BitVec.toNat_append, BitVec.toNat_ofNat]
  rw [← Nat.shiftLeft_add_eq_or_of_lt h2, ← Nat.shiftLeft_add_eq_or_of_lt h1, ← Nat.shiftLeft_add_eq_or_of_lt h0]
  simp only [Nat.shiftLeft_eq]
  omega

/-- Lane k of a word (R64). -/
theorem lane_eq (w : Word) (k : Nat) : w.extractLsb' (8 * k) 8 = BitVec.ofNat 8 (w.toNat / 2 ^ (8 * k)) := by
  apply BitVec.eq_of_toNat_eq; simp [BitVec.extractLsb', Nat.shiftRight_eq_div_pow]

end Sys2Proof
end

