-- ==== Sys2Proof/Laws/Runs.lean ====
section
/-! SUPPORT. The runs of a sequence and their pairs: what follows what, and how many there are. -/

namespace Sys2Proof.Machine

/-- Adjacent runs have different values (R120). -/
theorem runs_adjacent (x : List Byte) : (runs x).IsChain (fun r r' => r.1 ≠ r'.1) := by
  induction x with
  | nil => simp
  | cons b x ih =>
    rcases runs_cons b x with ⟨h0, h⟩ | ⟨n, rs, h, h'⟩ | ⟨v, n, rs, hne, h, h'⟩
    · simp [h]
    · rw [h']; rw [h] at ih
      cases rs with
      | nil => simp
      | cons r rs => simpa [List.isChain_cons_cons] using ih
    · rw [h']; rw [h] at ih
      rw [List.isChain_cons_cons]; exact ⟨hne, ih⟩

/-- A run in front of a sequence that does not start with its value is its first run (R120). -/
theorem runs_replicate_append (v : Byte) (L : Nat) (hL : 1 ≤ L) (y : List Byte)
    (h : ∀ r ∈ (runs y).head?, r.1 ≠ v) : runs (List.replicate L v ++ y) = (v, L) :: runs y := by
  induction L with
  | zero => omega
  | succ L ih =>
    rw [List.replicate_succ, List.cons_append]
    by_cases h0 : L = 0
    · subst h0
      simp only [List.replicate_zero, List.nil_append]
      rcases runs_cons v y with ⟨h0, h'⟩ | ⟨n, rs, h0, h'⟩ | ⟨w, n, rs, hne, h0, h'⟩
      · rw [h', h0]
      · exact absurd rfl (h (v, n) (by simp [h0]))
      · rw [h', h0]
    · have := ih (by omega)
      rcases runs_cons v (List.replicate L v ++ y) with ⟨h0, h'⟩ | ⟨n, rs, h0, h'⟩ | ⟨w, n, rs, hne, h0, h'⟩
      · rw [this] at h0; simp at h0
      · rw [this] at h0; simp at h0; rw [h', ← h0.1, ← h0.2]
      · rw [this] at h0; simp at h0; exact absurd h0.1.1 hne

/-- In `split(v, L)` a pair that another pair follows has the count 255 (R121). -/
theorem split_canonical (v : Byte) (L : Nat) : (split v L).IsChain (fun p q => p.1 = q.1 → p.2 = 255) := by
  unfold split
  rw [List.isChain_append]
  refine ⟨?_, ?_, ?_⟩
  · rw [List.isChain_iff_getElem]; intro i hi; simp
  · split <;> simp
  · intro p hp q hq _
    have := List.mem_of_mem_getLast? hp
    rw [List.eq_of_mem_replicate this]

/-- A run of length at least 1 has at least one pair (R121). -/
theorem split_ne_nil (v : Byte) (L : Nat) (h : 1 ≤ L) : split v L ≠ [] := by
  intro e; have := split_length v L; rw [e] at this; simp at this; omega

/-- In the pairs of a list of runs, a pair followed by one of the same value has the count 255 (R130). -/
theorem flatMap_split_canonical (rs : List (Byte × Nat)) (h1 : ∀ r ∈ rs, 1 ≤ r.2)
    (h2 : rs.IsChain (fun r r' => r.1 ≠ r'.1)) :
    (rs.flatMap fun r => split r.1 r.2).IsChain (fun p q => p.1 = q.1 → p.2 = 255) := by
  induction rs with
  | nil => simp
  | cons r rs ih =>
    rw [List.flatMap_cons, List.isChain_append]
    refine ⟨split_canonical _ _, ih (fun q hq => h1 q (by simp [hq])) h2.tail, ?_⟩
    intro p hp q hq e
    have hp1 := split_fst (List.mem_of_mem_getLast? hp)
    cases rs with
    | nil => simp at hq
    | cons r' rs =>
      rw [List.flatMap_cons, List.head?_append_of_ne_nil _ (split_ne_nil _ _ (h1 r' (by simp)))] at hq
      have hq1 := split_fst (List.mem_of_mem_head? hq)
      rw [List.isChain_cons_cons] at h2
      exact absurd (hp1.symm.trans (e.trans hq1)) h2.1

/-- The number of pairs (R123). -/
theorem rlePairs_length (x : List Byte) : (rlePairs x).length = ((runs x).map fun r => (r.2 + 254) / 255).sum := by
  simp [rlePairs, List.length_flatMap, split_length]

/-- The lengths of the runs sum to the length of the input (R120). -/
theorem runs_length_sum (x : List Byte) : ((runs x).map Prod.snd).sum = x.length := by
  conv_rhs => rw [← runs_concat x]
  simp [List.length_flatMap]

/-- A payload is valid exactly when no count of a complete pair is 0 and its length is even (R97, R98). -/
theorem payloadWf_iff (p : List Byte) : payloadWf p = true ↔ (NoZeroCount p ∧ p.length % 2 = 0) := by
  induction p using pairInduction with
  | h0 => simp [payloadWf, NoZeroCount]
  | h1 v => simp [payloadWf]
  | h2 v c p ih =>
    simp only [payloadWf, Bool.and_eq_true, ih, bne_iff_ne, List.length_cons]
    constructor
    · rintro ⟨hc, hn, he⟩
      refine ⟨fun k hk => ?_, by omega⟩
      rw [pairs_div] at hk
      cases k with
      | zero => simpa using hc
      | succ k => simpa using hn k (by omega)
    · rintro ⟨hn, he⟩
      exact ⟨by simpa using hn 0 (by rw [pairs_div]; omega),
        fun k hk => by simpa using hn (k + 1) (by rw [pairs_div]; omega), by omega⟩

end Sys2Proof.Machine
end

