-- ==== Sys2Proof/Laws/Passes.lean ====
section
/-! SUPPORT. The passes of the reference datapath over a written input: what each loop of R124, R131 and R168 leaves. -/

namespace Sys2Proof.Machine

/-- The input of the running command is x, every byte of it written, of a legal length (R7, R93). -/
structure Running (x : List Byte) (s : State) : Prop where
  params : s.cfg.wf = true
  input  : HoldsInput s x
  length : s.eng.nL.toNat = x.length
  legal  : x.length ≤ s.cfg.inCap

theorem Running.small {x : List Byte} {s : State} (h : Running x s) : 2 * x.length < 2 ^ 32 := by
  have := (wf_iff _).1 h.params
  have := h.legal
  omega

theorem Running.read {x : List Byte} {s : State} (h : Running x s) {i : Nat} (hi : i < x.length) :
    inRead i s = (x[i], s) :=
  inRead_written (by rw [h.input i hi, List.getElem?_eq_getElem hi])

/-- Working registers and OUT_BUF rewritten, the latched length kept: the input is the same. -/
theorem Running.keep {x : List Byte} {s t : State} (h : Running x s) (hc : t.cfg = s.cfg) (hb : t.inBuf = s.inBuf)
    (hn : t.eng.nL = s.eng.nL) : Running x t where
  params := by rw [hc]; exact h.params
  input := fun i hi => by rw [hb]; exact h.input i hi
  length := by rw [hn]; exact h.length
  legal := by rw [hc]; exact h.legal

theorem workSteps_add (j k : Nat) (s : State) : workSteps (j + k) s = workSteps k (workSteps j s) := by
  induction j generalizing s with
  | zero => rw [Nat.zero_add]; rfl
  | succ j ih => rw [Nat.succ_add]; exact ih _

theorem mapEng_eq_self {s : State} {f : Engine → Engine} (h : f s.eng = s.eng) : s.mapEng f = s := by
  unfold State.mapEng; rw [h]

@[simp] theorem mapEng_mapEng (s : State) (f g : Engine → Engine) : (s.mapEng f).mapEng g = s.mapEng fun e => g (f e) := rfl

/-- How many of the bytes l the scan adds to a piece of value v that has c bytes (R124). -/
def pieceExt (v : Byte) : Nat → List Byte → Nat
  | _, [] => 0
  | c, b :: l => if b = v ∧ c < 255 then 1 + pieceExt v (c + 1) l else 0

theorem pieceExt_le (v : Byte) (c : Nat) (l : List Byte) : pieceExt v c l ≤ l.length := by
  induction l generalizing c with
  | nil => simp [pieceExt]
  | cons b l ih =>
    unfold pieceExt
    split
    · have := ih (c + 1); simp; omega
    · simp

theorem pieceExt_count (v : Byte) (c : Nat) (l : List Byte) (hc : c ≤ 255) : c + pieceExt v c l ≤ 255 := by
  induction l generalizing c with
  | nil => simpa [pieceExt]
  | cons b l ih =>
    unfold pieceExt
    split
    · have := ih (c + 1) (by omega); omega
    · omega

theorem split_small (v : Byte) {c : Nat} (h : 1 ≤ c) (h' : c ≤ 255) : split v c = [(v, c)] := by
  unfold split
  by_cases e : c = 255
  · subst e; rfl
  · rw [Nat.div_eq_of_lt (by omega), Nat.mod_eq_of_lt (by omega), if_pos (by omega)]; rfl

theorem split_more (v : Byte) {q : Nat} : split v (255 + q) = (v, 255) :: split v q := by
  unfold split
  rw [show (255 + q) / 255 = q / 255 + 1 by omega, show (255 + q) % 255 = q % 255 by omega]; rfl

theorem runs_replicate_merge (v : Byte) (c : Nat) (l : List Byte) {q : Nat} {rs : List (Byte × Nat)}
    (h : runs (v :: l) = (v, q) :: rs) : runs (List.replicate c v ++ v :: l) = (v, c + q) :: rs := by
  induction c with
  | zero => simpa using h
  | succ c ih => simp [List.replicate_succ, runs, ih]; omega

/-- The greedy scan finds the pairs of the run-length form, one piece after another (R124 against R122). -/
theorem rlePairs_piece (v : Byte) (c : Nat) (l : List Byte) (h : 1 ≤ c) (h' : c ≤ 255) :
    rlePairs (List.replicate c v ++ l) = (v, c + pieceExt v c l) :: rlePairs (l.drop (pieceExt v c l)) := by
  induction l generalizing c with
  | nil =>
    have := runs_replicate_append v c h [] (by simp)
    rw [List.append_nil] at this ⊢
    simp [rlePairs, this, pieceExt, split_small v h h']
  | cons b l ih =>
    unfold pieceExt
    by_cases hb : b = v
    · subst hb
      by_cases hc : c < 255
      · rw [if_pos ⟨rfl, hc⟩]
        have e : List.replicate c b ++ b :: l = List.replicate (c + 1) b ++ l := by
          rw [List.replicate_succ']; simp
        rw [e, ih (c + 1) (by omega) (by omega), show 1 + pieceExt b (c + 1) l = pieceExt b (c + 1) l + 1 by omega,
          List.drop_succ_cons]
        congr 2; omega
      · obtain rfl : c = 255 := by omega
        rw [if_neg (by omega)]
        obtain ⟨q, rs, hq⟩ : ∃ q rs, runs (b :: l) = (b, q) :: rs := by
          rcases runs_cons b l with ⟨_, h⟩ | ⟨n, rs, _, h⟩ | ⟨w, n, rs, _, _, h⟩ <;> exact ⟨_, _, h⟩
        simp only [rlePairs, runs_replicate_merge b 255 l hq, hq, List.flatMap_cons, split_more, Nat.add_zero, List.drop_zero]
        rfl
    · rw [if_neg (by simp [hb])]
      have hd : ∀ r ∈ (runs (b :: l)).head?, r.1 ≠ v := by
        intro r hr
        rcases runs_cons b l with ⟨_, h⟩ | ⟨n, rs, _, h⟩ | ⟨w, n, rs, _, _, h⟩ <;>
          (rw [h] at hr; simp at hr; subst hr; exact hb)
      simp only [rlePairs, runs_replicate_append v c h _ hd, List.flatMap_cons, split_small v h h', Nat.add_zero, List.drop_zero]
      rfl

/-- In this pass the engine scans runs, closing a piece as `close` says (R124). -/
def Scans (close : State → State) (s : State) : Prop :=
  ∀ u : State, u.eng.st = s.eng.st → u.eng.opL = s.eng.opL → u.eng.sel = s.eng.sel →
    (u.eng.runC ≠ 0#8 → workStep u = extendRun close u) ∧
    (u.eng.runC = 0#8 → u.eng.rd.toNat < u.eng.nL.toNat → workStep u = openRun u)

theorem scan_extend {x : List Byte} {close : State → State} (l : List Byte) : ∀ (c r : Nat) (s : State), Running x s → Scans close s →
    x.drop r = l → r ≤ x.length → 1 ≤ c → c ≤ 255 → s.eng.runC = BitVec.ofNat 8 c → s.eng.rd = BitVec.ofNat 32 r →
    ∃ k, workSteps k s = close (s.mapEng fun e => { e with
      runC := BitVec.ofNat 8 (c + pieceExt s.eng.curV c l), rd := BitVec.ofNat 32 (r + pieceExt s.eng.curV c l) }) := by
  induction l with
  | nil =>
    intro c r s hr hs hl hrl h1 h2 hc hd
    have hx : r = x.length := by
      have := congrArg List.length hl; simp at this; omega
    have hsm := hr.small
    have hne : s.eng.runC ≠ 0#8 := by
      rw [hc]; intro e; have := congrArg BitVec.toNat e; simp at this; omega
    refine ⟨1, ?_⟩
    show workStep s = _
    rw [(hs s rfl rfl rfl).1 hne, mapEng_eq_self (by simp [pieceExt, ← hc, ← hd])]
    unfold extendRun
    rw [if_neg (by rw [hr.length, hd]; simp; omega)]
  | cons b l ih =>
    intro c r s hr hs hl hrl h1 h2 hc hd
    have hsm := hr.small
    have hx : r < x.length := by
      have := congrArg List.length hl; simp at this; omega
    have hb : x[r] = b := by
      have := congrArg (fun l => l[0]?) hl
      simpa [hx] using this
    have hrn : s.eng.rd.toNat = r := by rw [hd]; simp; omega
    have hcn : s.eng.runC.toNat = c := by rw [hc]; simp; omega
    have hne : s.eng.runC ≠ 0#8 := by
      rw [hc]; intro e; have := congrArg BitVec.toNat e; simp at this; omega
    have hread : inRead s.eng.rd.toNat s = (b, s) := by rw [hrn, hr.read hx, hb]
    by_cases hcond : b = s.eng.curV ∧ c < 255
    · have e : workStep s = s.mapEng fun e => { e with runC := BitVec.ofNat 8 (c + 1), rd := BitVec.ofNat 32 (r + 1) } := by
        rw [(hs s rfl rfl rfl).1 hne]
        unfold extendRun
        rw [if_pos (by rw [hr.length, hrn]; omega), hread, if_pos ⟨hcond.1, by rw [hcn]; exact hcond.2⟩]
        simp only [State.mapEng, hc, hd, BitVec.ofNat_add]
      obtain ⟨k, hk⟩ := ih (c + 1) (r + 1) (s.mapEng fun e => { e with runC := BitVec.ofNat 8 (c + 1), rd := BitVec.ofNat 32 (r + 1) })
        (hr.keep rfl rfl rfl) (fun u a b c => hs u a b c) (by rw [← List.drop_drop, hl]; rfl) (by omega) (by omega) (by omega) rfl rfl
      refine ⟨k + 1, ?_⟩
      show workSteps k (workStep s) = _
      rw [e, hk]
      have hv : ∀ f : Engine → Engine, (s.mapEng f).eng.curV = (f s.eng).curV := fun _ => rfl
      simp only [mapEng_mapEng, hv, pieceExt, if_pos hcond]
      congr 3
      funext e
      rw [show c + (1 + pieceExt s.eng.curV (c + 1) l) = c + 1 + pieceExt s.eng.curV (c + 1) l by omega,
        show r + (1 + pieceExt s.eng.curV (c + 1) l) = r + 1 + pieceExt s.eng.curV (c + 1) l by omega]
    · refine ⟨1, ?_⟩
      show workStep s = _
      rw [(hs s rfl rfl rfl).1 hne, mapEng_eq_self (by simp only [pieceExt, if_neg hcond, Nat.add_zero, ← hc, ← hd])]
      unfold extendRun
      rw [if_pos (by rw [hr.length, hrn]; omega), hread, if_neg (by rw [hcn]; exact hcond)]

/-- The engine scans one piece of run and closes it. -/
theorem scan_piece {x : List Byte} {close : State → State} {i : Nat} {s : State} (hr : Running x s) (hs : Scans close s)
    (hi : i < x.length) (h0 : s.eng.runC = 0#8) (hd : s.eng.rd = BitVec.ofNat 32 i) :
    ∃ k m, i + 1 + m ≤ x.length ∧ 1 + m ≤ 255 ∧ rlePairs (x.drop i) = (x[i], 1 + m) :: rlePairs (x.drop (i + 1 + m)) ∧
      workSteps k s = close (s.mapEng fun e => { e with
        curV := x[i], runC := BitVec.ofNat 8 (1 + m), rd := BitVec.ofNat 32 (i + 1 + m) }) := by
  have hsm := hr.small
  have hrn : s.eng.rd.toNat = i := by rw [hd]; simp; omega
  have e : workStep s = s.mapEng fun e => { e with curV := x[i], runC := BitVec.ofNat 8 1, rd := BitVec.ofNat 32 (i + 1) } := by
    rw [(hs s rfl rfl rfl).2 h0 (by rw [hr.length, hrn]; exact hi)]
    unfold openRun
    rw [hrn, hr.read hi]
    simp only [State.mapEng, hd, BitVec.ofNat_add]
  obtain ⟨k, hk⟩ := scan_extend (x.drop (i + 1)) 1 (i + 1)
    (s.mapEng fun e => { e with curV := x[i], runC := BitVec.ofNat 8 1, rd := BitVec.ofNat 32 (i + 1) })
    (hr.keep rfl rfl rfl) (fun u a b c => hs u a b c) rfl (by omega) (by omega) (by omega) rfl rfl
  refine ⟨k + 1, pieceExt x[i] 1 (x.drop (i + 1)), ?_, pieceExt_count _ 1 _ (by omega), ?_, ?_⟩
  · have := pieceExt_le x[i] 1 (x.drop (i + 1)); simp at this; omega
  · have := rlePairs_piece x[i] 1 (x.drop (i + 1)) (by omega) (by omega)
    rw [List.drop_drop] at this
    rw [← this, List.drop_eq_getElem_cons hi]; rfl
  · show workSteps k (workStep s) = _
    rw [e, hk]; rfl

/-- The SIZE pass counts the pairs of the run-length form (R124). -/
theorem size_pass {x : List Byte} (n : Nat) : ∀ (i : Nat) (s : State), Running x s → Scans countPair s → x.length - i ≤ n →
    i ≤ x.length → s.eng.runC = 0#8 → s.eng.rd = BitVec.ofNat 32 i →
    ∃ k cv, workSteps k s = s.mapEng fun e => { e with
      curV := cv, rd := BitVec.ofNat 32 x.length, pairs := e.pairs + BitVec.ofNat 32 (rlePairs (x.drop i)).length } := by
  induction n with
  | zero =>
    intro i s hr hs hn hi h0 hd
    obtain rfl : i = x.length := by omega
    exact ⟨0, s.eng.curV, by show s = _; rw [mapEng_eq_self]; simp [rlePairs, ← hd]⟩
  | succ n ih =>
    intro i s hr hs hn hi h0 hd
    by_cases hx : i = x.length
    · subst hx
      exact ⟨0, s.eng.curV, by show s = _; rw [mapEng_eq_self]; simp [rlePairs, ← hd]⟩
    · obtain ⟨k, m, hm, _, hp, hk⟩ := scan_piece hr hs (show i < x.length by omega) h0 hd
      obtain ⟨k', cv, hk'⟩ := ih (i + 1 + m) (countPair (s.mapEng fun e => { e with
        curV := x[i], runC := BitVec.ofNat 8 (1 + m), rd := BitVec.ofNat 32 (i + 1 + m) }))
        (hr.keep rfl rfl rfl) (fun u a b c => hs u a b c) (by omega) hm rfl rfl
      refine ⟨k + k', cv, ?_⟩
      rw [workSteps_add, hk, hk', hp]
      unfold countPair State.mapEng
      simp only [List.length_cons, BitVec.ofNat_add]
      congr 2
      · exact h0.symm
      · rw [BitVec.add_assoc, BitVec.add_comm 1#32]

/-- A write of the engine below OUT_CAP, as a state. -/
theorem outWrite_eq {j : Nat} {s : State} (v : Byte) (h : j < s.cfg.outCap) :
    outWrite j v s = { s with outBuf := Memory.store s.outBuf j v } := by
  unfold outWrite; rw [if_pos h]

/-- The EMIT pass writes the run-length form from index w on (R124). -/
theorem emit_pass {x : List Byte} (n : Nat) : ∀ (i w : Nat) (s : State), Running x s → Scans emitPair s → x.length - i ≤ n →
    i ≤ x.length → s.eng.runC = 0#8 → s.eng.rd = BitVec.ofNat 32 i → s.eng.wr = BitVec.ofNat 32 w →
    w + 2 * (rlePairs (x.drop i)).length ≤ s.cfg.outCap →
    ∃ k cv m, workSteps k s = ({ s with outBuf := m } : State).mapEng (fun e => { e with
        curV := cv, rd := BitVec.ofNat 32 x.length, wr := BitVec.ofNat 32 (w + 2 * (rlePairs (x.drop i)).length) }) ∧
      ∀ j, Memory.lookup m j =
        if w ≤ j ∧ j < w + 2 * (rlePairs (x.drop i)).length then (rleEncode (x.drop i))[j - w]?
        else Memory.lookup s.outBuf j := by
  have done : ∀ (w : Nat) (s : State), s.eng.rd = BitVec.ofNat 32 x.length → s.eng.wr = BitVec.ofNat 32 w →
      ∃ k cv m, workSteps k s = ({ s with outBuf := m } : State).mapEng (fun e => { e with
          curV := cv, rd := BitVec.ofNat 32 x.length, wr := BitVec.ofNat 32 (w + 2 * (rlePairs (x.drop x.length)).length) }) ∧
        ∀ j, Memory.lookup m j =
          if w ≤ j ∧ j < w + 2 * (rlePairs (x.drop x.length)).length then (rleEncode (x.drop x.length))[j - w]?
          else Memory.lookup s.outBuf j := by
    intro w s hd hw
    refine ⟨0, s.eng.curV, s.outBuf, ?_, fun j => ?_⟩
    · show s = _
      rw [mapEng_eq_self]
      simp [rlePairs, ← hd, ← hw]
    · rw [if_neg]; simp [rlePairs]
  induction n with
  | zero =>
    intro i w s hr hs hn hi h0 hd hw hcap
    obtain rfl : i = x.length := by omega
    exact done w s hd hw
  | succ n ih =>
    intro i w s hr hs hn hi h0 hd hw hcap
    by_cases hx : i = x.length
    · subst hx; exact done w s hd hw
    · obtain ⟨k, m, hm, hm', hp, hk⟩ := scan_piece hr hs (show i < x.length by omega) h0 hd
      have hb := (wf_iff _).1 hr.params
      rw [hp] at hcap ⊢
      simp only [List.length_cons] at hcap ⊢
      have hwn : s.eng.wr.toNat = w := by rw [hw]; simp; omega
      have e : emitPair (s.mapEng fun e => { e with
          curV := x[i], runC := BitVec.ofNat 8 (1 + m), rd := BitVec.ofNat 32 (i + 1 + m) }) =
          ({ s with outBuf := Memory.store (Memory.store s.outBuf w x[i]) (w + 1) (BitVec.ofNat 8 (1 + m)) } : State).mapEng
            fun e => { e with curV := x[i], runC := 0#8, rd := BitVec.ofNat 32 (i + 1 + m), wr := BitVec.ofNat 32 (w + 2) } := by
        unfold emitPair
        simp only [mapEng_eng, hwn]
        rw [outWrite_eq (j := w) _ (by simp; omega), outWrite_eq (j := w + 1) _ (by simp; omega)]
        unfold State.mapEng
        simp only [hw, BitVec.ofNat_add]
      obtain ⟨k', cv, m', hk', hl'⟩ := ih (i + 1 + m) (w + 2)
        (({ s with outBuf := Memory.store (Memory.store s.outBuf w x[i]) (w + 1) (BitVec.ofNat 8 (1 + m)) } : State).mapEng
            fun e => { e with curV := x[i], runC := 0#8, rd := BitVec.ofNat 32 (i + 1 + m), wr := BitVec.ofNat 32 (w + 2) })
        (hr.keep rfl rfl rfl) (fun u a b c => hs u a b c) (by omega) hm rfl rfl rfl (by simp; omega)
      refine ⟨k + k', cv, m', ?_, fun j => ?_⟩
      · rw [workSteps_add, hk, e, hk']
        unfold State.mapEng
        simp only []
        congr 2
        · congr 1; omega
        · exact h0.symm
      · rw [hl']
        have hlen : (rleEncode (x.drop (i + 1 + m))).length = 2 * (rlePairs (x.drop (i + 1 + m))).length := by simp [rleEncode]
        have hf : rleEncode (x.drop i) = x[i] :: BitVec.ofNat 8 (1 + m) :: rleEncode (x.drop (i + 1 + m)) := by
          rw [rleEncode, hp]; simp [rleEncode]
        rw [hf]
        simp only [mapEng_outBuf, lookup_store]
        by_cases h1 : w + 2 ≤ j
        · by_cases h2 : j < w + 2 + 2 * (rlePairs (x.drop (i + 1 + m))).length
          · rw [if_pos ⟨h1, h2⟩, if_pos (by omega), show j - w = j - (w + 2) + 1 + 1 by omega]; simp
          · rw [if_neg (by omega), if_neg (by omega), if_neg (by omega), if_neg (by omega)]
        · rw [if_neg (by omega)]
          by_cases h2 : j = w + 1
          · subst h2; rw [if_pos rfl, if_pos (by omega)]; simp
          · rw [if_neg h2]
            by_cases h3 : j = w
            · subst h3; rw [if_pos rfl, if_pos (by omega)]; simp
            · rw [if_neg h3, if_neg (by omega)]

/-- The verbatim copy writes the rest of the input from index w on (R168). -/
theorem copy_pass {x : List Byte} (n : Nat) : ∀ (i w : Nat) (s : State), Running x s →
    (∀ u : State, u.eng.st = s.eng.st → u.eng.opL = s.eng.opL → u.eng.sel = s.eng.sel → workStep u = copyStep u) →
    x.length - i = n → i ≤ x.length → s.eng.rd = BitVec.ofNat 32 i → s.eng.wr = BitVec.ofNat 32 w →
    w + n ≤ s.cfg.outCap →
    ∃ k m, workSteps k s = ({ s with outBuf := m } : State).mapEng (fun e => { e with
        rd := BitVec.ofNat 32 x.length, wr := BitVec.ofNat 32 (w + n) }) ∧
      ∀ j, Memory.lookup m j = if w ≤ j ∧ j < w + n then x[i + (j - w)]? else Memory.lookup s.outBuf j := by
  induction n with
  | zero =>
    intro i w s hr hs hn hi hd hw hcap
    obtain rfl : i = x.length := by omega
    refine ⟨0, s.outBuf, ?_, fun j => by rw [if_neg (by omega)]⟩
    show s = _
    rw [mapEng_eq_self]
    simp [← hd, ← hw]
  | succ n ih =>
    intro i w s hr hs hn hi hd hw hcap
    have hsm := hr.small
    have hb := (wf_iff _).1 hr.params
    have hx : i < x.length := by omega
    have hrn : s.eng.rd.toNat = i := by rw [hd]; simp; omega
    have hwn : s.eng.wr.toNat = w := by rw [hw]; simp; omega
    have e : workStep s = ({ s with outBuf := Memory.store s.outBuf w x[i] } : State).mapEng fun e => { e with
        rd := BitVec.ofNat 32 (i + 1), wr := BitVec.ofNat 32 (w + 1) } := by
      rw [hs s rfl rfl rfl]
      unfold copyStep
      rw [if_pos (by rw [hr.length, hrn]; exact hx), hrn, hr.read hx, hwn, outWrite_eq _ (by show w < s.cfg.outCap; omega)]
      unfold State.mapEng
      simp only [hd, hw, BitVec.ofNat_add]
    obtain ⟨k, m, hk, hl⟩ := ih (i + 1) (w + 1) (({ s with outBuf := Memory.store s.outBuf w x[i] } : State).mapEng fun e => { e with
        rd := BitVec.ofNat 32 (i + 1), wr := BitVec.ofNat 32 (w + 1) }) (hr.keep rfl rfl rfl) (fun u a b c => hs u a b c)
        (by omega) hx rfl rfl (by simp; omega)
    refine ⟨k + 1, m, ?_, fun j => ?_⟩
    · show workSteps k (workStep s) = _
      rw [e, hk]
      unfold State.mapEng
      simp only []
      congr 3; omega
    · rw [hl]
      simp only [mapEng_outBuf, lookup_store]
      by_cases h1 : w + 1 ≤ j
      · by_cases h2 : j < w + 1 + n
        · rw [if_pos ⟨h1, h2⟩, if_pos (by omega), show i + 1 + (j - (w + 1)) = i + (j - w) by omega]
        · rw [if_neg (by omega), if_neg (by omega), if_neg (by omega)]
      · rw [if_neg (by omega)]
        by_cases h3 : j = w
        · subst h3; rw [if_pos rfl, if_pos (by omega)]; simp
        · rw [if_neg h3, if_neg (by omega)]

theorem expandPairs_length_le (p : List Byte) : (expandPairs p).length ≤ 255 * (p.length / 2) := by
  induction p using pairInduction with
  | h0 => simp
  | h1 v => simp
  | h2 v c p ih =>
    rw [pairs_div]; simp only [expandPairs_cons, List.length_append, List.length_replicate]; have := c.isLt; omega

/-- The CHECK pass stops at the first zero count, else at an odd length, else has summed the counts exactly (R127, R131). -/
theorem sum_pass {x : List Byte} (q : List Byte) : ∀ (r A : Nat) (s : State), Running x s →
    (∀ u : State, u.eng.st = s.eng.st → u.eng.opL = s.eng.opL → u.eng.sel = s.eng.sel → workStep u = sumStep u) →
    x.drop r = q → r ≤ x.length → s.eng.rd = BitVec.ofNat 32 r → s.eng.acc = A →
    A + 255 * (q.length / 2) ≤ 255 * (s.cfg.inCap / 2) →
    ∃ k, match firstZeroCount q with
      | some z => ∃ f : Engine → Engine, workSteps k s = raisePending .malformedInput (BitVec.ofNat 32 (r + z)) (s.mapEng f)
      | none =>
        if q.length % 2 = 1 then
          ∃ f : Engine → Engine, workSteps k s = raisePending .malformedInput (BitVec.ofNat 32 (x.length - 1)) (s.mapEng f)
        else workSteps k s = s.mapEng fun e => { e with rd := BitVec.ofNat 32 x.length, acc := A + (expandPairs q).length } := by
  induction q using pairInduction with
  | h0 =>
    intro r A s hr hs hq hrl hd hA _
    have hx : r = x.length := by have := congrArg List.length hq; simp at this; omega
    refine ⟨0, ?_⟩
    show s = _
    subst hA
    rw [mapEng_eq_self]; simp [← hx, ← hd]
  | h1 v =>
    intro r A s hr hs hq hrl hd hA _
    have hx : r + 1 = x.length := by have := congrArg List.length hq; simp at this; omega
    have hsm := hr.small
    have hrn : s.eng.rd.toNat = r := by rw [hd]; simp; omega
    refine ⟨1, id, ?_⟩
    show workStep s = _
    rw [hs s rfl rfl rfl]
    unfold sumStep
    rw [if_neg (by rw [hr.length, hrn]; omega), if_pos (by rw [hr.length, hrn]; omega)]
    have : s.eng.nL - 1#32 = BitVec.ofNat 32 (x.length - 1) := by
      apply BitVec.eq_of_toNat_eq
      rw [BitVec.toNat_sub, hr.length]; simp; omega
    rw [this]; rfl
  | h2 v c p ih =>
    intro r A s hr hs hq hrl hd hA hcap
    have hlen : x.length = r + 2 + p.length := by have := congrArg List.length hq; simp at this; omega
    have hsm := hr.small
    have hw := (wf_iff _).1 hr.params
    have hrn : s.eng.rd.toNat = r := by rw [hd]; simp; omega
    have hc : x[r + 1]'(by omega) = c := by
      have := congrArg (fun l => l[1]?) hq
      simpa [show r + 1 < x.length by omega] using this
    have hread : inRead (s.eng.rd.toNat + 1) s = (c, s) := by rw [hrn, hr.read (by omega), hc]
    by_cases h0 : c = 0#8
    · refine ⟨1, ?_⟩
      simp only [firstZeroCount_cons, h0, if_true]
      refine ⟨id, ?_⟩
      show workStep s = _
      rw [hs s rfl rfl rfl]
      unfold sumStep
      rw [if_pos (by rw [hr.length, hrn]; omega), hread, if_pos h0, hd]
      simp only [BitVec.ofNat_add]; rfl
    · rw [pairs_div] at hcap
      have hcl := c.isLt
      have e : workStep s = s.mapEng fun e => { e with rd := BitVec.ofNat 32 (r + 2), acc := A + c.toNat } := by
        rw [hs s rfl rfl rfl]
        unfold sumStep
        rw [if_pos (by rw [hr.length, hrn]; omega), hread, if_neg h0]
        simp only [State.mapEng, hA, hd]
        rw [Nat.mod_eq_of_lt (by have := Nat.two_pow_pos s.cfg.accW; omega), ← BitVec.ofNat_add]
      obtain ⟨k, hk⟩ := ih (r + 2) (A + c.toNat) (s.mapEng fun e => { e with rd := BitVec.ofNat 32 (r + 2), acc := A + c.toNat })
        (hr.keep rfl rfl rfl) (fun u a b c => hs u a b c) (by rw [← List.drop_drop, hq]; rfl) (by omega) rfl rfl (by simp; omega)
      refine ⟨k + 1, ?_⟩
      simp only [firstZeroCount_cons, h0, if_false]
      have hws : workSteps (k + 1) s = workSteps k (s.mapEng fun e => { e with rd := BitVec.ofNat 32 (r + 2), acc := A + c.toNat }) := by
        rw [← e]; rfl
      rw [hws]
      cases hz : firstZeroCount p with
      | some z =>
        simp only [hz] at hk
        obtain ⟨f, hf⟩ := hk
        simp only [Option.map_some]
        exact ⟨fun e => f { e with rd := BitVec.ofNat 32 (r + 2), acc := A + c.toNat }, by
          rw [hf, show r + 2 + z = r + (z + 2) by omega]; rfl⟩
      | none =>
        simp only [hz] at hk
        simp only [Option.map_none]
        by_cases ho : p.length % 2 = 1
        · rw [if_pos ho] at hk
          rw [if_pos (by simp; omega)]
          obtain ⟨f, hf⟩ := hk
          exact ⟨fun e => f { e with rd := BitVec.ofNat 32 (r + 2), acc := A + c.toNat }, by rw [hf]; rfl⟩
        · rw [if_neg ho] at hk
          rw [if_neg (by simp; omega), hk]
          simp only [mapEng_mapEng, expandPairs_cons, List.length_append, List.length_replicate, Nat.add_assoc]

/-- The EXPAND pass writes the c copies of a loaded pair (R131). -/
theorem expand_pair {s₀ : State} (c : Nat) : ∀ (w : Nat) (s : State),
    (∀ u : State, u.eng.st = s.eng.st → u.eng.opL = s.eng.opL → u.eng.sel = s.eng.sel → workStep u = expandStep u) →
    s.cfg = s₀.cfg → s₀.cfg.wf = true → c ≤ 255 → s.eng.runC = BitVec.ofNat 8 c → s.eng.wr = BitVec.ofNat 32 w →
    w + c ≤ s.cfg.outCap →
    ∃ m, workSteps c s = ({ s with outBuf := m } : State).mapEng (fun e => { e with runC := 0#8, wr := BitVec.ofNat 32 (w + c) }) ∧
      ∀ j, Memory.lookup m j = if w ≤ j ∧ j < w + c then some s.eng.curV else Memory.lookup s.outBuf j := by
  induction c with
  | zero =>
    intro w s hs _ _ _ hc hw _
    refine ⟨s.outBuf, ?_, fun j => by rw [if_neg (by omega)]⟩
    show s = _
    have hc : s.eng.runC = 0#8 := hc
    rw [mapEng_eq_self]; simp only [Nat.add_zero, ← hw, ← hc]
  | succ c ih =>
    intro w s hs hcfg hwf hc' hc hw hcap
    have hb := (wf_iff _).1 hwf
    rw [hcfg] at hcap
    have hwn : s.eng.wr.toNat = w := by rw [hw]; simp; omega
    have hne : s.eng.runC ≠ 0#8 := by
      rw [hc]; intro e; have := congrArg BitVec.toNat e; simp at this; omega
    have e : workStep s = ({ s with outBuf := Memory.store s.outBuf w s.eng.curV } : State).mapEng fun e => { e with
        runC := BitVec.ofNat 8 c, wr := BitVec.ofNat 32 (w + 1) } := by
      rw [hs s rfl rfl rfl]
      unfold expandStep
      rw [if_neg hne, hwn, outWrite_eq _ (by rw [hcfg]; omega)]
      unfold State.mapEng
      have : s.eng.runC - 1#8 = BitVec.ofNat 8 c := by rw [hc]; apply BitVec.eq_of_toNat_eq; simp; omega
      simp only [hw, BitVec.ofNat_add, this]
    obtain ⟨m, hk, hl⟩ := ih (w + 1) (({ s with outBuf := Memory.store s.outBuf w s.eng.curV } : State).mapEng fun e => { e with
        runC := BitVec.ofNat 8 c, wr := BitVec.ofNat 32 (w + 1) }) (fun u a b c => hs u a b c) hcfg hwf (by omega) rfl rfl
        (by simp [hcfg]; omega)
    refine ⟨m, ?_, fun j => ?_⟩
    · show workSteps c (workStep s) = _
      rw [e, hk]
      unfold State.mapEng
      simp only []
      congr 3; omega
    · rw [hl]
      simp only [mapEng_outBuf, mapEng_eng, lookup_store]
      by_cases h1 : w + 1 ≤ j ∧ j < w + 1 + c
      · rw [if_pos h1, if_pos (by omega)]
      · rw [if_neg h1]
        by_cases h3 : j = w
        · subst h3; rw [if_pos rfl, if_pos (by omega)]
        · rw [if_neg h3, if_neg (by omega)]

/-- The EXPAND pass writes the expansion of a valid payload from index w on (R131). -/
theorem expand_pass {x : List Byte} (q : List Byte) : ∀ (r w : Nat) (s : State), Running x s →
    (∀ u : State, u.eng.st = s.eng.st → u.eng.opL = s.eng.opL → u.eng.sel = s.eng.sel → workStep u = expandStep u) →
    x.drop r = q → r ≤ x.length → q.length % 2 = 0 → s.eng.runC = 0#8 → s.eng.rd = BitVec.ofNat 32 r →
    s.eng.wr = BitVec.ofNat 32 w → w + (expandPairs q).length ≤ s.cfg.outCap →
    ∃ k cv m, workSteps k s = ({ s with outBuf := m } : State).mapEng (fun e => { e with
        curV := cv, rd := BitVec.ofNat 32 x.length, wr := BitVec.ofNat 32 (w + (expandPairs q).length) }) ∧
      ∀ j, Memory.lookup m j =
        if w ≤ j ∧ j < w + (expandPairs q).length then (expandPairs q)[j - w]? else Memory.lookup s.outBuf j := by
  induction q using pairInduction with
  | h0 =>
    intro r w s hr hs hq hrl _ h0 hd hw _
    have hx : r = x.length := by have := congrArg List.length hq; simp at this; omega
    refine ⟨0, s.eng.curV, s.outBuf, ?_, fun j => by rw [if_neg]; simp⟩
    show s = _
    rw [mapEng_eq_self]; simp [← hx, ← hd, ← hw]
  | h1 v => intro r w s _ _ _ _ ho; simp at ho
  | h2 v c p ih =>
    intro r w s hr hs hq hrl ho h0 hd hw hcap
    have hlen : x.length = r + 2 + p.length := by have := congrArg List.length hq; simp at this; omega
    have hsm := hr.small
    have hb := (wf_iff _).1 hr.params
    have hrn : s.eng.rd.toNat = r := by rw [hd]; simp; omega
    have hv : x[r]'(by omega) = v := by
      have := congrArg (fun l => l[0]?) hq
      simpa [show r < x.length by omega] using this
    have hc : x[r + 1]'(by omega) = c := by
      have := congrArg (fun l => l[1]?) hq
      simpa [show r + 1 < x.length by omega] using this
    simp only [expandPairs_cons, List.length_append, List.length_replicate] at hcap ⊢
    have hcl := c.isLt
    have e : workStep s = s.mapEng fun e => { e with curV := v, runC := c, rd := BitVec.ofNat 32 (r + 2) } := by
      rw [hs s rfl rfl rfl]
      unfold expandStep
      rw [if_pos h0, if_pos (by rw [hr.length, hrn]; omega), hrn, hr.read (show r < x.length by omega)]
      simp only []
      rw [hr.read (show r + 1 < x.length by omega), hv, hc]
      simp only [State.mapEng, hd, BitVec.ofNat_add]
    obtain ⟨m, hk, hl⟩ := expand_pair (s₀ := s) c.toNat w (s.mapEng fun e => { e with curV := v, runC := c, rd := BitVec.ofNat 32 (r + 2) })
      (fun u a b c => hs u a b c) rfl hr.params (by omega) (by simp) hw (by simp; omega)
    obtain ⟨k', cv, m', hk', hl'⟩ := ih (r + 2) (w + c.toNat) (({ s with outBuf := m } : State).mapEng fun e => { e with
        curV := v, runC := 0#8, rd := BitVec.ofNat 32 (r + 2), wr := BitVec.ofNat 32 (w + c.toNat) }) (hr.keep rfl rfl rfl)
      (fun u a b c => hs u a b c) (by rw [← List.drop_drop, hq]; rfl) (by omega) (by simp at ho; omega) rfl rfl rfl (by simp; omega)
    refine ⟨1 + c.toNat + k', cv, m', ?_, fun j => ?_⟩
    · rw [workSteps_add, workSteps_add]
      show workSteps k' (workSteps c.toNat (workStep s)) = _
      rw [e, hk]
      have : (({ (s.mapEng fun e => { e with curV := v, runC := c, rd := BitVec.ofNat 32 (r + 2) }) with outBuf := m } : State).mapEng
          fun e => { e with runC := 0#8, wr := BitVec.ofNat 32 (w + c.toNat) }) = ({ s with outBuf := m } : State).mapEng fun e => { e with
        curV := v, runC := 0#8, rd := BitVec.ofNat 32 (r + 2), wr := BitVec.ofNat 32 (w + c.toNat) } := rfl
      rw [this, hk']
      unfold State.mapEng
      simp only []
      congr 2
      · congr 1; omega
      · exact h0.symm
    · rw [hl']
      simp only [mapEng_outBuf, hl]
      simp only [mapEng_eng]
      by_cases h1 : w + c.toNat ≤ j
      · by_cases h2 : j < w + c.toNat + (expandPairs p).length
        · rw [if_pos ⟨h1, h2⟩, if_pos (by omega), List.getElem?_append_right (by simp; omega)]
          simp only [List.length_replicate]
          congr 1; omega
        · rw [if_neg (by omega), if_neg (by omega), if_neg (by omega)]
      · rw [if_neg (by omega)]
        by_cases h2 : w ≤ j
        · rw [if_pos (by omega), if_pos (by omega), List.getElem?_append_left (by simp; omega)]
          simp [show j - w < c.toNat by omega]
        · rw [if_neg (by omega), if_neg (by omega)]

end Sys2Proof.Machine
end

