-- ==== Sys2Proof/Laws/PerInstr.lean ====
section
/-! SUPPORT. Statements about every instruction as syntax, one lemma per constructor. -/

/-- The encoding of an instruction has as many bytes as a word of its format: four for a command word, one for a tag (R90, R96). -/
def Sys2Proof.Laws.EncodeLength.Statement (i : Sys2Proof.Instr) : Prop :=
  (Sys2Proof.encode i).2.length = Sys2Proof.formatBytes (Sys2Proof.encode i).1

theorem Sys2Proof.Laws.EncodeLength.reservedOp0 : Sys2Proof.Laws.EncodeLength.Statement .reservedOp0 := rfl
theorem Sys2Proof.Laws.EncodeLength.rleEnc : Sys2Proof.Laws.EncodeLength.Statement .rleEnc := rfl
theorem Sys2Proof.Laws.EncodeLength.rleDec : Sys2Proof.Laws.EncodeLength.Statement .rleDec := rfl
theorem Sys2Proof.Laws.EncodeLength.adpComp : Sys2Proof.Laws.EncodeLength.Statement .adpComp := rfl
theorem Sys2Proof.Laws.EncodeLength.adpDec : Sys2Proof.Laws.EncodeLength.Statement .adpDec := rfl
theorem Sys2Proof.Laws.EncodeLength.reservedOp5 : Sys2Proof.Laws.EncodeLength.Statement .reservedOp5 := rfl
theorem Sys2Proof.Laws.EncodeLength.reservedOp6 : Sys2Proof.Laws.EncodeLength.Statement .reservedOp6 := rfl
theorem Sys2Proof.Laws.EncodeLength.reservedOp7 : Sys2Proof.Laws.EncodeLength.Statement .reservedOp7 := rfl
theorem Sys2Proof.Laws.EncodeLength.tagR : Sys2Proof.Laws.EncodeLength.Statement .tagR := rfl
theorem Sys2Proof.Laws.EncodeLength.tagI : Sys2Proof.Laws.EncodeLength.Statement .tagI := rfl
end

