-- ==== Sys2Proof/Laws/Port.lean ====
section
/-! SUPPORT. What the lanes and accesses of the host port can do. -/

namespace Sys2Proof.Machine

theorem inLane_frame (i : Nat) (s : State) : ∃ n, n ≤ 1 ∧ (inLane i s).2 = { s with draws := s.draws + n } := by
  unfold inLane
  split
  · exact inRead_frame i s
  · exact ⟨0, by omega, rfl⟩

theorem outLane_frame (i : Nat) (s : State) : ∃ n, n ≤ 1 ∧ (outLane i s).2 = { s with draws := s.draws + n } := by
  unfold outLane
  split
  · split
    · exact ⟨1, by omega, rfl⟩
    · split
      · exact ⟨0, by omega, rfl⟩
      · exact ⟨1, by omega, rfl⟩
  · exact ⟨0, by omega, rfl⟩

/-- Four lanes that each change the draws alone change the draws alone. -/
theorem readLanes_frame {lane : Nat → State → Byte × State}
    (h : ∀ i s, ∃ n, n ≤ 1 ∧ (lane i s).2 = { s with draws := s.draws + n }) (a : Nat) (s : State) :
    ∃ n, n ≤ 4 ∧ (readLanes lane a s).2 = { s with draws := s.draws + n } := by
  obtain ⟨n0, h0, e0⟩ := h a s
  obtain ⟨n1, h1, e1⟩ := h (a + 1) (lane a s).2
  obtain ⟨n2, h2, e2⟩ := h (a + 2) (lane (a + 1) (lane a s).2).2
  obtain ⟨n3, h3, e3⟩ := h (a + 3) (lane (a + 2) (lane (a + 1) (lane a s).2).2).2
  refine ⟨n0 + n1 + n2 + n3, by omega, ?_⟩
  show (lane (a + 3) (lane (a + 2) (lane (a + 1) (lane a s).2).2).2).2 = _
  rw [e3, e2, e1, e0]
  simp only [Nat.add_assoc]

theorem hostRead8_frame (r : Region) (off : Word) (s : State) :
    ∃ n, n ≤ 1 ∧ (hostRead8 r off s).2 = { s with draws := s.draws + n } := by
  cases r with
  | reg => exact ⟨0, by omega, rfl⟩
  | inp => exact inLane_frame _ s
  | out => exact outLane_frame _ s
  | reserved => exact ⟨0, by omega, rfl⟩

theorem hostRead32_frame (r : Region) (off : Word) (s : State) :
    ∃ n, n ≤ 4 ∧ (hostRead32 r off s).2 = { s with draws := s.draws + n } := by
  unfold hostRead32
  split
  · cases r with
    | reg => exact ⟨0, by omega, rfl⟩
    | inp => exact readLanes_frame inLane_frame _ s
    | out => exact readLanes_frame outLane_frame _ s
    | reserved => exact ⟨0, by omega, rfl⟩
  · exact ⟨0, by omega, rfl⟩

/-- One lane of a write: IN_BUF at that index, below the capacity, and nothing else (R66). -/
theorem writeLane_eq (i : Nat) (b : Byte) (s : State) :
    ∃ m, writeLane i b s = { s with inBuf := m } ∧ (Memory.wf s.cfg.inCap s.inBuf = true → Memory.wf s.cfg.inCap m = true) ∧
      ∀ k, Memory.lookup m k = if k = i ∧ i < s.cfg.inCap then some b else Memory.lookup s.inBuf k := by
  unfold writeLane
  split
  · rename_i h
    exact ⟨_, rfl, fun hw => store_keeps_wf b hw h, fun k => by simp [lookup_store, h]⟩
  · rename_i h
    exact ⟨s.inBuf, rfl, id, fun k => by simp [h]⟩

/-- A write of the IN region: IGN while BUSY, else IN_BUF bytes below the capacity alone (R247). -/
theorem writeIn8_cases (off : Word) (d : Byte) (s : State) :
    (s.busy = true ∧ writeIn8 off d s = setIgn s) ∨
    (s.busy = false ∧ ∃ m, writeIn8 off d s = { s with inBuf := m } ∧
      (Memory.wf s.cfg.inCap s.inBuf = true → Memory.wf s.cfg.inCap m = true)) := by
  by_cases hb : s.busy = true
  · exact .inl ⟨hb, by simp [writeIn8, hb]⟩
  · obtain ⟨m, h, hw, _⟩ := writeLane_eq off.toNat d s
    exact .inr ⟨by simpa using hb, m, by simp [writeIn8, hb, h], hw⟩

theorem writeIn32_cases (off d : Word) (s : State) :
    (s.busy = true ∧ writeIn32 off d s = setIgn s) ∨
    (s.busy = false ∧ ∃ m, writeIn32 off d s = { s with inBuf := m } ∧
      (Memory.wf s.cfg.inCap s.inBuf = true → Memory.wf s.cfg.inCap m = true)) := by
  by_cases hb : s.busy = true
  · exact .inl ⟨hb, by simp [writeIn32, hb]⟩
  · refine .inr ⟨by simpa using hb, ?_⟩
    by_cases ha : aligned off = true
    · obtain ⟨m0, e0, w0, _⟩ := writeLane_eq off.toNat (d.extractLsb' 0 8) s
      obtain ⟨m1, e1, w1, _⟩ := writeLane_eq (off.toNat + 1) (d.extractLsb' 8 8) { s with inBuf := m0 }
      obtain ⟨m2, e2, w2, _⟩ := writeLane_eq (off.toNat + 2) (d.extractLsb' 16 8) { s with inBuf := m1 }
      obtain ⟨m3, e3, w3, _⟩ := writeLane_eq (off.toNat + 3) (d.extractLsb' 24 8) { s with inBuf := m2 }
      exact ⟨m3, by simp [writeIn32, hb, ha, e0, e1, e2, e3], fun h => w3 (w2 (w1 (w0 h)))⟩
    · exact ⟨s.inBuf, by simp [writeIn32, hb, ha], id⟩

/-- The offset of an aligned register access, back from its number. -/
theorem off_eq {off : Word} {n : Nat} (h : off.toNat = n) : off = BitVec.ofNat 32 n := by
  apply BitVec.eq_of_toNat_eq; have := off.isLt; simp; omega

/-- Everything a register write can do, with the condition under which it does it (R25 to R33). -/
theorem regWrite_cases (off : Word) (w : Word) (s : State) :
    (off = 0x04#32 ∧ w[0] = true ∧ s.busy = false ∧ regWrite off.toNat w s = accept { s with ie := w[1] }) ∨
    (off = 0x04#32 ∧ w[0] = true ∧ s.busy = true ∧ regWrite off.toNat w s = setIgn { s with ie := w[1] }) ∨
    (off = 0x04#32 ∧ w[0] = false ∧ regWrite off.toNat w s = { s with ie := w[1] }) ∨
    (off = 0x08#32 ∧ s.busy = true ∧ regWrite off.toNat w s = setIgn s) ∨
    (off = 0x08#32 ∧ s.busy = false ∧ regWrite off.toNat w s = { s with op := w.extractLsb' 0 3 }) ∨
    (off = 0x0C#32 ∧ regWrite off.toNat w s = clearStatus w s) ∨
    (off = 0x10#32 ∧ s.busy = true ∧ regWrite off.toNat w s = setIgn s) ∨
    (off = 0x10#32 ∧ s.busy = false ∧ regWrite off.toNat w s = { s with inLen := w }) ∨
    (off ∉ [0x04#32, 0x08#32, 0x0C#32, 0x10#32] ∧ regWrite off.toNat w s = s) := by
  by_cases h4 : off = 0x04#32
  · subst h4
    cases hw : w[0] <;> cases hb : s.busy <;>
      simp [regWrite, writeCtrl, hw, hb]
  · by_cases h8 : off = 0x08#32
    · subst h8; cases hb : s.busy <;> simp [regWrite, writeCmd, hb]
    · by_cases hc : off = 0x0C#32
      · subst hc; simp [regWrite]
      · by_cases h10 : off = 0x10#32
        · subst h10; cases hb : s.busy <;> simp [regWrite, writeInLen, hb]
        · simp only [h4, h8, hc, h10, false_and, false_or, List.mem_cons, List.not_mem_nil, or_self, not_false_eq_true,
            true_and]
          unfold regWrite
          split
          · exact absurd (off_eq (by assumption)) h4
          · exact absurd (off_eq (by assumption)) h8
          · exact absurd (off_eq (by assumption)) hc
          · exact absurd (off_eq (by assumption)) h10
          · rfl

/-- Everything a host transaction can do, with the condition under which it does it (R25 to R33, R62 to R69, R247). -/
inductive TxnEffect (t : Txn) (s : State) : State → Prop where
  | read (v : Word) (n : Nat) (h : (∃ r off, t = .rd8 r off) ∨ ∃ r off, t = .rd32 r off) :
      TxnEffect t s { s with returned := v :: s.returned, draws := s.draws + n }
  | start (w : Word) (h : t = .wr32 .reg 0x04#32 w) (hw : w[0] = true) (hb : s.busy = false) :
      TxnEffect t s (accept { s with ie := w[1] })
  | ignoredStart (w : Word) (h : t = .wr32 .reg 0x04#32 w) (hw : w[0] = true) (hb : s.busy = true) :
      TxnEffect t s (setIgn { s with ie := w[1] })
  | enable (w : Word) (h : t = .wr32 .reg 0x04#32 w) (hw : w[0] = false) :
      TxnEffect t s { s with ie := w[1] }
  | ignored (h : Protected t) (hb : s.busy = true) : TxnEffect t s (setIgn s)
  | command (w : Word) (h : t = .wr32 .reg 0x08#32 w) (hb : s.busy = false) :
      TxnEffect t s { s with op := w.extractLsb' 0 3 }
  | length (w : Word) (h : t = .wr32 .reg 0x10#32 w) (hb : s.busy = false) : TxnEffect t s { s with inLen := w }
  | status (w : Word) (h : t = .wr32 .reg 0x0C#32 w) : TxnEffect t s (clearStatus w s)
  | input (m : Memory) (h : (∃ off d, t = .wr8 .inp off d) ∨ ∃ off w, t = .wr32 .inp off w) (hb : s.busy = false)
      (hw : Memory.wf s.cfg.inCap s.inBuf = true → Memory.wf s.cfg.inCap m = true) :
      TxnEffect t s { s with inBuf := m }
  | nothing (h : NoEffect t) : TxnEffect t s s

theorem hostTxn_effect (t : Txn) (s : State) : TxnEffect t s (hostTxn t s) := by
  cases t with
  | rd8 r off =>
    obtain ⟨n, _, h⟩ := hostRead8_frame r off s
    have : hostTxn (.rd8 r off) s = { s with returned := (hostRead8 r off s).1.setWidth 32 :: s.returned, draws := s.draws + n } := by
      simp only [hostTxn, recordRead, h]
    rw [this]
    exact .read _ _ (.inl ⟨r, off, rfl⟩)
  | rd32 r off =>
    obtain ⟨n, _, h⟩ := hostRead32_frame r off s
    have : hostTxn (.rd32 r off) s = { s with returned := (hostRead32 r off s).1 :: s.returned, draws := s.draws + n } := by
      simp only [hostTxn, recordRead, h]
    rw [this]
    exact .read _ _ (.inr ⟨r, off, rfl⟩)
  | wr8 r off d =>
    cases r with
    | reg => exact .nothing trivial
    | out => exact .nothing trivial
    | reserved => exact .nothing trivial
    | inp =>
      show TxnEffect _ s (writeIn8 off d s)
      rcases writeIn8_cases off d s with ⟨hb, h⟩ | ⟨hb, m, h, hw⟩ <;> rw [h]
      · exact .ignored trivial hb
      · exact .input m (.inl ⟨off, d, rfl⟩) hb hw
  | wr32 r off w =>
    cases r with
    | out => exact .nothing trivial
    | reserved => exact .nothing trivial
    | inp =>
      show TxnEffect _ s (writeIn32 off w s)
      rcases writeIn32_cases off w s with ⟨hb, h⟩ | ⟨hb, m, h, hw⟩ <;> rw [h]
      · exact .ignored trivial hb
      · exact .input m (.inr ⟨off, w, rfl⟩) hb hw
    | reg =>
      show TxnEffect _ s (if aligned off then regWrite off.toNat w s else s)
      by_cases ha : aligned off = true
      · rw [if_pos ha]
        rcases regWrite_cases off w s with ⟨ho, hw, hb, h⟩ | ⟨ho, hw, hb, h⟩ | ⟨ho, hw, h⟩ | ⟨ho, hb, h⟩ | ⟨ho, hb, h⟩ |
          ⟨ho, h⟩ | ⟨ho, hb, h⟩ | ⟨ho, hb, h⟩ | ⟨ho, h⟩ <;> rw [h]
        · subst ho; exact .start w rfl hw hb
        · subst ho; exact .ignoredStart w rfl hw hb
        · subst ho; exact .enable w rfl hw
        · exact .ignored (.inl ho) hb
        · subst ho; exact .command w rfl hb
        · subst ho; exact .status w rfl
        · exact .ignored (.inr (.inl ho)) hb
        · subst ho; exact .length w rfl hb
        · exact .nothing ho
      · rw [if_neg ha]
        refine .nothing ?_
        show off ∉ _
        intro hm
        apply ha
        simp only [List.mem_cons, List.not_mem_nil, or_false] at hm
        rcases hm with rfl | rfl | rfl | rfl <;> rfl

/-- The lanes of an aligned access do not wrap round the offset (R64). -/
theorem laneOffset {off : Word} (h : off.toNat % 4 = 0) {k : Nat} (hk : k < 4) :
    (off + BitVec.ofNat 32 k).toNat = off.toNat + k := by
  have := off.isLt
  rw [BitVec.toNat_add]; simp; omega

/-- STATUS as a number (R27). -/
theorem statusWord_eq (s : State) : statusWord s =
    BitVec.ofNat 32 (16 * s.errcode.toNat + 4 * s.ign.toNat + 2 * s.done.toNat + s.busy.toNat) := by
  unfold statusWord
  generalize s.errcode = e
  cases s.ign <;> cases s.done <;> cases s.busy <;> revert e <;> decide

end Sys2Proof.Machine
end

