-- ==== Sys2Proof/Laws/Step.lean ====
section
/-! SUPPORT. What one step can do, said once. -/

namespace Sys2Proof.Machine

/-- Everything a step can do, with the event it takes. -/
inductive StepEffect (s : State) : State → Prop where
  /-- A host transaction. -/
  | host (t : Txn) (rest : List Event) (h : s.sched = .host t :: rest) (u : State)
      (hu : TxnEffect t { s with sched := rest } u) : StepEffect s u
  /-- The reset event. -/
  | reset (rest : List Event) (h : s.sched = .reset :: rest) : StepEffect s (resetEvent { s with sched := rest })
  /-- An internal step of the engine. -/
  | work (rest : List Event) (h : s.sched = .work :: rest) : StepEffect s (workStep { s with sched := rest })
  /-- The turn of an Idle engine. -/
  | idle (hb : s.busy = false) (h : s.nextEvent = .complete) : StepEffect s { s with sched := s.sched.tail }
  /-- Completion. -/
  | complete (hb : s.busy = true) (h : s.nextEvent = .complete) (r : Result) (n : Nat)
      (hr : LegalResult s.cfg r) :
      StepEffect s (complete r { s with sched := s.sched.tail, draws := s.draws + n })

theorem step_effect {s t : State} (h : step s = .next t) : s.cfg.wf = true ∧ StepEffect s t := by
  unfold step at h
  split at h
  · rename_i hwf
    refine ⟨hwf, ?_⟩
    have turn : s.nextEvent = .complete → engineTurn { s with sched := s.sched.tail } = .next t → StepEffect s t := by
      intro hn ht
      rcases engineTurn_cases { s with sched := s.sched.tail } with ⟨hb, h'⟩ | ⟨hb, r, n, h', hr⟩
      · rw [h'] at ht; injection ht with ht; subst ht
        exact .idle hb hn
      · rw [h'] at ht; injection ht with ht; subst ht
        exact StepEffect.complete (s := s) hb hn r n hr
    split at h
    · rename_i hs
      exact turn (by simp [State.nextEvent, hs]) (by rw [hs, List.tail_nil, ← hs]; exact h)
    · rename_i tx rest hs
      injection h with h; subst h
      exact .host tx rest hs _ (hostTxn_effect tx _)
    · rename_i rest hs
      injection h with h; subst h
      exact .reset rest hs
    · rename_i rest hs
      injection h with h; subst h
      exact .work rest hs
    · rename_i rest hs
      exact turn (by simp [State.nextEvent, hs]) (by rw [hs]; exact h)
  · exact absurd h (by simp)

/-- Running on after a step that answers a next state. -/
theorem run_next {s t : State} (k : Nat) (h : step s = .next t) :
    Sys2Proof.core.run (k + 1) s = Sys2Proof.core.run k t := by
  simp only [Host.Core.run, show Sys2Proof.core.step s = .next t from h]

end Sys2Proof.Machine
end

