-- ==== Sys2Proof/Tests/Slice0.lean ====
section
/-! SUPPORT. The model's own tests: encodings written out from the spec, ill-formed terms the checks refuse, vectors of
`95_test_vectors.md`, and one witness per statement that has hypotheses. -/

open Sys2Proof Sys2Proof.Machine Host

namespace Sys2Proof.Tests

/-! ### Decoding: words written out from the encoding tables -/

/-- R91, OP values 0 to 7 in bits 2:0. -/
theorem test_decode_command_words :
    decodeCmd 0b00000000000000000000000000000000#32 = .reservedOp0 ∧
    decodeCmd 0b00000000000000000000000000000001#32 = .rleEnc ∧
    decodeCmd 0b00000000000000000000000000000010#32 = .rleDec ∧
    decodeCmd 0b00000000000000000000000000000011#32 = .adpComp ∧
    decodeCmd 0b00000000000000000000000000000100#32 = .adpDec ∧
    decodeCmd 0b00000000000000000000000000000101#32 = .reservedOp5 ∧
    decodeCmd 0b00000000000000000000000000000110#32 = .reservedOp6 ∧
    decodeCmd 0b00000000000000000000000000000111#32 = .reservedOp7 := by decide

/-- R90 and PORT-6: bits 31:3 are ignored, so 0xFFFFFFFC is OP 4. -/
theorem test_decode_ignores_reserved_bits : decodeCmd 0xFFFFFFFC#32 = .adpDec := by decide

/-- R64: the command word lies lowest byte first. -/
theorem test_decode_bytes : decode .cmd [0x03#8, 0#8, 0#8, 0x80#8, 0x55#8] = .ok (.adpComp, [0x55#8]) := by decide

/-- R96: 0x52 is `R`, 0x49 is `I`; 0x72 and 0x69 are reserved. -/
theorem test_decode_tags :
    decodeTag 0b01010010#8 = .ok .tagR ∧ decodeTag 0b01001001#8 = .ok .tagI ∧
    decodeTag 0x72#8 = .error (.unknownTag 0x72#8) ∧ decodeTag 0x69#8 = .error (.unknownTag 0x69#8) := by decide

/-- Fewer bytes than the word has are rejected by name. -/
theorem test_decode_truncated :
    decode .cmd [1#8, 0#8, 0#8] = .error (.truncated .cmd) ∧
    decode .adaptiveTag [] = .error (.truncated .adaptiveTag) := by decide

/-- A table word of more than 32 bits is no instruction; a 32-bit table word is a command word. -/
theorem test_decode_table_words :
    decodeTableWord 40 1 = none ∧ decodeTableWord 32 0x52 = some .rleDec ∧ decodeTableWord 8 0x52 = some .tagR := by decide

/-- R92: the start words. -/
theorem test_start_words : startWord false = 1#32 ∧ startWord true = 3#32 := by decide

/-! ### Ill-formed terms -/

/-- R7, P0 and the smallest instance are accepted. -/
theorem test_params_accepted :
    Config.p0.wf = true ∧ Params.wf { inCap := 1, outCap := 2, accW := 0 } = true := by decide

/-- R7, `1 <= IN_CAP`. -/
theorem test_params_no_input : Params.wf { inCap := 0, outCap := 1024, accW := 16 } = false := by decide

/-- R7, `2 * IN_CAP <= OUT_CAP`. -/
theorem test_params_small_output : Params.wf { inCap := 512, outCap := 1023, accW := 16 } = false := by decide

/-- R7, `OUT_CAP <= 2^32 - 1`. -/
theorem test_params_large_output : Params.wf { inCap := 512, outCap := 4294967296, accW := 16 } = false := by decide

/-- R7, `2^ACC_W - 1 >= 255 * (IN_CAP div 2)`. -/
theorem test_params_narrow_sum : Params.wf { inCap := 512, outCap := 1024, accW := 15 } = false := by decide

/-- R104: a record with a bit above the digit h is refused, by the check and by the decoder. -/
theorem test_record_padding :
    recordWf 0x190000000800000003#72 = false ∧
    decodeRecord 0x190000000800000003#72 = .error .recordPadding := by decide

/-- R104: a read with data is refused. -/
theorem test_record_read_data :
    recordWf 0x10000000C00000001#72 = false ∧ decodeRecord 0x10000000C00000001#72 = .error .readWithData := by decide

/-- R104: an 8-bit write has its data in bits 7:0. -/
theorem test_record_wide_byte : recordWf 0xA0000000400000142#72 = false := by decide

/-- R104, the example `WR32 REG, CMD, 3`, decoded. -/
theorem test_record_decodes : decodeRecord 0x90000000800000003#72 = .ok (.wr32 .reg 0x08#32 3#32) := by decide

/-- R97, R98: an odd payload and one with a zero count are refused. -/
theorem test_payload_checks :
    payloadWf [0x41#8, 3#8, 0x42#8] = false ∧ payloadWf [0x41#8, 0#8] = false ∧ payloadWf [0x41#8, 3#8] = true := by decide

/-- R95, C3: an unknown tag is refused, a tag alone is accepted. -/
theorem test_stream_checks :
    adaptiveWf [0x72#8] = false ∧ adaptiveWf [0x52#8, 0x41#8] = false ∧ adaptiveWf [0x52#8] = true ∧
    adaptiveWf [0x49#8] = true ∧ adaptiveWf [] = true := by decide

/-! ### Vectors -/

/-- A command of P0 just accepted, its input written by the host. -/
def started (op : BitVec 3) (x : List Byte) : State :=
  accept { State.reset with op := op, inLen := BitVec.ofNat 32 x.length, inBuf := Memory.ofBytes 0 x }

/-- The state an outcome goes on with. -/
def after (o : Outcome State Fault Refusal) : State :=
  match o with
  | .next s => s
  | .fault _ => State.reset
  | .refused _ => State.reset

/-- The outcome goes on. -/
def goesOn (o : Outcome State Fault Refusal) : Bool :=
  match o with
  | .next _ => true
  | .fault _ => false
  | .refused _ => false

theorem goesOn_eq {o : Outcome State Fault Refusal} (h : goesOn o = true) : o = .next (after o) := by
  cases o <;> first | rfl | simp [goesOn] at h

/-- What a host reads of a completed command: STATUS, ERR_POS, and the output bytes. -/
def result (s : State) : Word × Word × List Byte := (statusWord s, s.errPos, s.outBuf.map Prod.snd)

/-- One step of the machine from a started command. -/
def outcome (op : BitVec 3) (x : List Byte) : Word × Word × List Byte := result (after (step (started op x)))

/-- CMD-1, CMD-2: reserved codes. -/
theorem test_reserved_commands :
    outcome 0#3 [] = (0x32#32, 0#32, []) ∧ outcome 5#3 [1#8] = (0x32#32, 0#32, []) ∧
    outcome 6#3 [] = (0x32#32, 0#32, []) ∧ outcome 7#3 [] = (0x32#32, 0#32, []) := by decide

/-- CMD-3: BAD_COMMAND outranks LENGTH_ERROR. CMD-4, CMD-5: LENGTH_ERROR. -/
theorem test_length_error :
    result (after (step (accept { State.reset with op := 7#3, inLen := 600#32 }))) = (0x32#32, 0#32, []) ∧
    result (after (step (accept { State.reset with op := 2#3, inLen := 513#32 }))) = (0x42#32, 0#32, []) ∧
    result (after (step (accept { State.reset with op := 4#3, inLen := 0xFFFFFFFF#32 }))) = (0x42#32, 0#32, []) := by decide

/-- RLE_ENC-3 (EX-1). -/
theorem test_rle_enc_example :
    outcome 1#3 [0x41#8, 0x41#8, 0x41#8, 0x42#8] = (2#32, 0#32, [0x41#8, 3#8, 0x42#8, 1#8]) := by decide

/-- R121's examples, the pairs of RLE_ENC-6, RLE_ENC-7 and EX-3: runs of 256, 510 and 300. -/
theorem test_rle_enc_split :
    split 0xAA#8 256 = [(0xAA#8, 255), (0xAA#8, 1)] ∧ split 0xAA#8 510 = [(0xAA#8, 255), (0xAA#8, 255)] ∧
    split 0#8 300 = [(0#8, 255), (0#8, 45)] := by decide

/-- RLE_DEC-2, RLE_DEC-8: the inverse of EX-1; a zero count outranks an odd length. -/
theorem test_rle_dec_vectors :
    outcome 2#3 [0x41#8, 3#8, 0x42#8, 1#8] = (2#32, 0#32, [0x41#8, 0x41#8, 0x41#8, 0x42#8]) ∧
    outcome 2#3 [0x41#8, 2#8, 0x42#8, 0#8, 0x43#8] = (0x12#32, 3#32, []) := by decide

/-- R205, R209 on a small instance of R7 (8 bytes of output): a sum of 8 fits, a sum of 9 is OUT_CAPACITY, and an odd length
outranks it. -/
theorem test_rle_dec_capacity :
    let p : Params := { inCap := 4, outCap := 8, accW := 9 }
    p.wf = true ∧
    capacityTest p (rleDecodeCheck [0x41#8, 8#8] 0) = .ok (List.replicate 8 0x41#8) ∧
    capacityTest p (rleDecodeCheck [0x41#8, 9#8] 0) = .err .outCapacity 0#32 ∧
    capacityTest p (rleDecodeCheck [0x41#8, 9#8, 0x42#8] 0) = .err .malformedInput 2#32 := by decide

/-- ADP_COMP-6 (EX-2, the tie), ADP_COMP-5 (the shortest R). -/
theorem test_adp_comp_vectors :
    outcome 3#3 [0x41#8, 0x41#8, 0x41#8, 0x42#8] = (2#32, 0#32, [0x49#8, 0x41#8, 0x41#8, 0x41#8, 0x42#8]) ∧
    outcome 3#3 [0x41#8, 0x41#8, 0x41#8] = (2#32, 0#32, [0x52#8, 0x41#8, 3#8]) := by decide

/-- ADP_DEC-2, ADP_DEC-12: tag R; a zero count at IN_BUF index 2 outranks the odd payload. -/
theorem test_adp_dec_vectors :
    outcome 4#3 [0x52#8, 0x41#8, 3#8, 0x42#8, 1#8] = (2#32, 0#32, [0x41#8, 0x41#8, 0x41#8, 0x42#8]) ∧
    outcome 4#3 [0x52#8, 0x41#8, 0#8, 0x42#8] = (0x12#32, 2#32, []) := by decide

/-- ADP_DEC-9, ADP_DEC-3: an unknown tag outranks the payload; tag I copies. -/
theorem test_adp_dec_tags :
    outcome 4#3 [0xFF#8, 0x41#8, 0#8] = (0x22#32, 0#32, []) ∧
    outcome 4#3 [0x49#8, 1#8, 2#8] = (2#32, 0#32, [1#8, 2#8]) := by decide

/-- ADP_DEC-10 and ADP_DEC-3 at the tag: one internal step reads the tag, and the next turn runs its instruction. -/
theorem test_tag_turn :
    fetch (workStep (started 4#3 [0x52#8, 0x41#8])) = .ok .tagR ∧
    result (after (step (workStep (started 4#3 [0x52#8, 0x41#8])))) = (0x12#32, 1#32, []) ∧
    fetch (workStep (started 4#3 [0x49#8, 1#8, 2#8])) = .ok .tagI ∧
    result (after (step (workStep (started 4#3 [0x49#8, 1#8, 2#8])))) = (2#32, 0#32, [1#8, 2#8]) := by decide

/-- The fetch point of a table word: a command runs on the empty input, a tag on an input of one byte (log 6, log 7). -/
theorem test_fetch_word :
    result (after (step (State.reset.withFetchWord 8 0))) = (0x32#32, 0#32, []) ∧
    result (after (step (State.reset.withFetchWord 8 1))) = (2#32, 0#32, []) ∧
    fetch (State.reset.withFetchWord 8 4) = .ok .adpDec ∧
    fetch (State.reset.withFetchWord 8 0x52) = .ok .tagR ∧
    fetch (State.reset.withFetchWord 8 0x49) = .ok .tagI := by decide

/-- PORT-3, PORT-4: little-endian lanes, and misaligned accesses. -/
theorem test_port_lanes :
    (hostTxns [.wr32 .inp 0#32 0x44332211#32, .rd8 .inp 0#32, .rd8 .inp 3#32, .wr32 .inp 2#32 0xFFFFFFFF#32, .rd32 .inp 0#32,
      .rd32 .inp 1#32] State.reset).returned = [0#32, 0x44332211#32, 0x44#32, 0x11#32] := by decide

/-- PORT-7, PORT-9, PORT-12: the last word of IN_BUF and one beyond it; a reserved offset; CTRL. -/
theorem test_port_registers :
    (hostTxns [.wr32 .inp 508#32 0x0D0C0B0A#32, .wr32 .inp 512#32 0x12345678#32, .rd32 .inp 508#32, .rd32 .inp 512#32,
      .rd32 .reg 0x24#32, .wr32 .reg 0x04#32 2#32, .rd32 .reg 0x04#32] State.reset).returned =
      [2#32, 0#32, 0#32, 0x0D0C0B0A#32] := by decide

/-- PORT-15, PORT-16: an IN write sets IGN while BUSY, even beyond IN_CAP, and not while Idle. -/
theorem test_port_ignored :
    (hostTxn (.wr8 .inp 700#32 1#8) (started 1#3 [])).ign = true ∧
    (hostTxn (.wr32 .inp 1#32 5#32) State.reset).ign = false := by decide

/-- PORT-14, IRQ-2, IRQ-5: clearing DONE lowers irq and keeps ERRCODE. -/
theorem test_irq :
    let s := after (step { started 0#3 [] with ie := true })
    s.irq = true ∧ (hostTxn (.wr32 .reg 0x0C#32 2#32) s).irq = false ∧
      statusWord (hostTxn (.wr32 .reg 0x0C#32 2#32) s) = 0x30#32 := by decide

/-- R124 by the reference datapath: EX-1 through the SIZE and EMIT passes ends at END with the output in OUT_BUF. -/
theorem test_datapath_encodes :
    let s := workSteps 17 (started 1#3 [0x41#8, 0x41#8, 0x41#8, 0x42#8])
    s.eng.st = .fin ∧ s.outBuf.map Prod.snd = [0x41#8, 3#8, 0x42#8, 1#8] := by decide

/-! ### Witnesses: concrete states and operands that meet a statement's hypotheses -/

/-- RLE_ENC accepted on two equal bytes. -/
def busyState : State := started 1#3 [0x41#8, 0x41#8]

/-- RLE_ENC on them completed: output 41 02. -/
def doneState : State := after (step busyState)

/-- ADP_DEC standing after the read of its tag `R`. -/
def tagState : State := workStep (started 4#3 [0x52#8, 0x41#8, 3#8])

/-- The same state with something scheduled. -/
def scheduled (s : State) (es : List Event) : State := { s with sched := es }

theorem witness_AdaptiveTagDecodesExactly : (0x72#8 : Byte) ≠ 0x52#8 ∧ (0x72#8 : Byte) ≠ 0x49#8 := by decide

theorem witness_RecordDecodingLosesNothing :
    recordWf 0#72 = true ∧ recordWf 0x7FFFFFFFF00000000#72 = true ∧ recordWf 0xEFFFFFFFF000000FF#72 = true ∧
    recordWf 0xFFFFFFFFFFFFFFFFF#72 = true := by decide

theorem witness_StepRunsFetchedInstruction :
    (busyState.cfg.wf = true ∧ busyState.busy = true ∧ busyState.sched = [] ∧
      decode (fetchFormat busyState) (fetchBytes busyState) = .ok (.rleEnc, [])) ∧
    (tagState.cfg.wf = true ∧ tagState.busy = true ∧ (scheduled tagState [.complete, .work]).sched = .complete :: [.work] ∧
      decode (fetchFormat tagState) (fetchBytes tagState) = .ok (.tagR, [])) := by decide

theorem witness_StepTakesTheScheduledEvent :
    State.reset.cfg.wf = true ∧ State.reset.busy = false ∧ State.reset.sched = [] ∧
    (scheduled busyState [.host (.rd8 .out 0#32)]).sched = .host (.rd8 .out 0#32) :: [] ∧
    (scheduled busyState [.reset, .work]).sched = .reset :: [.work] ∧
    (scheduled busyState [.work]).sched = .work :: [] ∧
    (scheduled State.reset [.complete]).sched = .complete :: [] := by decide

theorem witness_StepAlwaysAnswers :
    State.reset.cfg.wf = true ∧ (State.resetOf { inCap := 0, outCap := 0, accW := 0 }).cfg.wf = false := by decide

theorem inv_busyState : Inv busyState :=
  ⟨by decide, by decide, by decide, by decide, by decide, by decide, by decide, by decide, by decide⟩

theorem inv_doneState : Inv doneState :=
  ⟨by decide, by decide, by decide, by decide, by decide, by decide, by decide, by decide, by decide⟩

theorem engineInv_busyState : EngineInv busyState :=
  ⟨by decide, by decide, by decide, by decide, by decide, fun h => absurd h (by decide)⟩

theorem witness_InvariantKeptByEveryStep :
    (Inv busyState ∧ step busyState = .next doneState) ∧
    (Inv doneState ∧ step (scheduled doneState [.reset]) = .next (resetEvent doneState)) :=
  ⟨⟨inv_busyState, goesOn_eq (by decide)⟩, inv_doneState, rfl⟩

theorem witness_InvariantsHoldAtReset :
    Config.p0.wf = true ∧ Params.wf { inCap := 1, outCap := 2, accW := 0 } = true := by decide

theorem witness_EnginePositionKeptByEveryStep :
    Inv busyState ∧ EngineInv busyState ∧ step busyState = .next doneState :=
  ⟨inv_busyState, engineInv_busyState, goesOn_eq (by decide)⟩

theorem witness_EveryCommandCompletes :
    busyState.cfg.wf = true ∧ busyState.busy = true ∧ busyState.nextEvent = .complete := by decide

theorem holdsInput_ofBytes_two : HoldsInput busyState [0x41#8, 0x41#8] := by
  unfold HoldsInput; decide

/-- A valid command of legal length, a reserved command, and a length of IN_CAP + 1. -/
theorem witness_ReferenceDatapathReachesTheResult :
    ((busyState.cfg.wf = true ∧ busyState.op ∈ [1#3, 2#3, 3#3, 4#3] ∧ busyState.inLen.toNat ≤ busyState.cfg.inCap) ∧
      [0x41#8, 0x41#8].length = busyState.inLen.toNat ∧ HoldsInput busyState [0x41#8, 0x41#8]) ∧
    (State.reset.cfg.wf = true ∧ State.reset.op ∉ [1#3, 2#3, 3#3, 4#3]) ∧
    ¬ (513#32 : Word).toNat ≤ State.reset.cfg.inCap :=
  ⟨⟨by decide, by decide, holdsInput_ofBytes_two⟩, by decide, by decide⟩

theorem witness_InternalStepsAreInvisible : State.reset.busy = false := by decide

theorem witness_CommandInputFixedWhileBusy :
    busyState.busy = true ∧
    step (scheduled busyState [.host (.wr8 .inp 0#32 7#8)]) = .next (setIgn busyState) ∧ (setIgn busyState).busy = true :=
  ⟨by decide, rfl, by decide⟩

theorem witness_OutcomeKeptUntilNextStart :
    let s := scheduled doneState [.host (.wr32 .reg 0x04#32 2#32)]
    s.busy = false ∧ ¬ AcceptsStart s ∧ ¬ Resets s ∧ ∃ t, step s = .next t := by
  refine ⟨by decide, ?_, by unfold Resets; decide, _, rfl⟩
  rintro ⟨_, w, h, hw⟩
  simp only [scheduled, State.nextEvent, List.headD_cons, Event.host.injEq, Txn.wr32.injEq, true_and] at h
  subst h
  exact absurd hw (by decide)

/-- Each clause of the statement has a step that changes its flag. -/
theorem witness_FlagsChangeOnlyByTheirEvents :
    (State.reset.busy = false ∧ (after (step (scheduled State.reset [.host (.wr32 .reg 0x04#32 1#32)]))).busy = true) ∧
    (busyState.busy = true ∧ busyState.done = false ∧ (after (step busyState)).busy = false ∧
      (after (step busyState)).done = true) ∧
    (doneState.done = true ∧ (after (step (scheduled doneState [.host (.wr32 .reg 0x0C#32 2#32)]))).done = false) ∧
    (busyState.ign = false ∧ (after (step (scheduled busyState [.host (.wr32 .reg 0x08#32 4#32)]))).ign = true) ∧
    ((setIgn busyState).ign = true ∧
      (after (step (scheduled (setIgn busyState) [.host (.wr32 .reg 0x0C#32 4#32)]))).ign = false) ∧
    ((started 0#3 []).errcode ≠ (after (step (started 0#3 []))).errcode) ∧
    goesOn (step busyState) = true ∧ goesOn (step (started 0#3 [])) = true := by decide

theorem witness_OutcomeDependsOnlyOnTheInput :
    let s' : State := { busyState with ie := true, draws := 9, errPos := 3#32 }
    (busyState.cfg = s'.cfg ∧ busyState.eng.nL = s'.eng.nL ∧ busyState.eng.nL.toNat = [0x41#8, 0x41#8].length) ∧
    HoldsInput busyState [0x41#8, 0x41#8] ∧ HoldsInput s' [0x41#8, 0x41#8] ∧
    (∃ t, exec .rleEnc busyState = .next t) ∧ (∃ t, exec .rleEnc s' = .next t) ∧
    State.reset.cfg.inCap < (accept { State.reset with inLen := 513#32 }).eng.nL.toNat :=
  ⟨by decide, holdsInput_ofBytes_two, holdsInput_ofBytes_two, ⟨_, rfl⟩, ⟨_, rfl⟩, by decide⟩

theorem witness_ResetEventLeavesResetValues :
    busyState.cfg.wf = true ∧ busyState.busy = true ∧ (scheduled busyState [.reset, .work]).sched = .reset :: [.work] := by decide

theorem witness_StartAfterReset :
    Config.p0.wf = true ∧ (1#32 : Word)[0] = true ∧ (3#32 : Word)[0] = true ∧ (4#32 : Word) ∈ [1#32, 2#32, 3#32, 4#32] := by
  decide

/-- A reserved offset, the first above the registers, and a misaligned one. -/
theorem witness_RegisterReads :
    (0x20 < (0x24#32 : Word).toNat) ∧ (0x20 < (0xFFFFFFFC#32 : Word).toNat) ∧ (0x0D#32 : Word).toNat % 4 ≠ 0 := by decide

theorem witness_AcceptedStart : State.reset.busy = false ∧ (0xFFFFFFFF#32 : Word)[0] = true := by decide

theorem witness_ControlWrites :
    (2#32 : Word)[0] = false ∧ (1#32 : Word)[0] = true ∧ State.reset.busy = false ∧ busyState.busy = true := by decide

theorem witness_CommandAndLengthWrites : State.reset.busy = false := by decide

/-- A protected write and one that is not; transactions of the last two clauses. -/
theorem witness_WritesIgnoredWhileBusy :
    busyState.busy = true ∧ (3#32 : Word)[0] = true ∧ ¬ Protected (.rd32 .inp 0#32) ∧ ¬ ShowsBusy (.rd32 .inp 0#32) ∧
    (¬ Protected (.wr32 .reg 0x04#32 2#32) ∧ ¬ ShowsBusy (.wr32 .reg 0x04#32 2#32)) ∧
    (setIgn busyState).ign = true ∧ (∀ w : Word, w[2] = true → Txn.wr32 .reg 0x0C#32 2#32 ≠ .wr32 .reg 0x0C#32 w) := by
  refine ⟨by decide, by decide, id, id, ⟨?_, id⟩, by decide, ?_⟩
  · show ¬ ((0x04#32 : Word) = 0x08#32 ∨ (0x04#32 : Word) = 0x10#32 ∨ ((0x04#32 : Word) = 0x04#32 ∧ (2#32 : Word)[0] = true))
    decide
  · intro w hw h
    simp only [Txn.wr32.injEq, true_and] at h
    subst h
    exact absurd hw (by decide)

theorem witness_WritesWithoutEffect :
    NoEffect (.wr32 .reg 0x00#32 1#32) ∧ NoEffect (.wr32 .out 0#32 1#32) ∧ State.reset.busy = false ∧
    State.reset.cfg.inCap ≤ (512#32 : Word).toNat ∧ (1#32 : Word).toNat % 4 ≠ 0 := by
  refine ⟨?_, trivial, by decide, by decide, by decide⟩
  show (0x00#32 : Word) ∉ [0x04#32, 0x08#32, 0x0C#32, 0x10#32]
  decide

/-- The last byte of IN_BUF, and its last word. -/
theorem witness_InputBufferWrites :
    State.reset.busy = false ∧ (511#32 : Word).toNat < State.reset.cfg.inCap ∧ (508#32 : Word).toNat % 4 = 0 := by decide

/-- IN_BUF with its last word written. -/
def lastWord : State := hostTxn (.wr32 .inp 508#32 0x0D0C0B0A#32) State.reset

theorem witness_InputBufferReads :
    ((511#32 : Word).toNat < lastWord.cfg.inCap ∧ Memory.lookup lastWord.inBuf 511 = some 0x0D#8) ∧
    ((508#32 : Word).toNat % 4 = 0 ∧ (508#32 : Word).toNat + 3 < lastWord.cfg.inCap ∧
      Memory.lookup lastWord.inBuf 508 = some 0x0A#8 ∧ Memory.lookup lastWord.inBuf 509 = some 0x0B#8 ∧
      Memory.lookup lastWord.inBuf 510 = some 0x0C#8 ∧ Memory.lookup lastWord.inBuf 511 = some 0x0D#8) ∧
    (509#32 : Word).toNat % 4 ≠ 0 ∧ lastWord.cfg.inCap ≤ (512#32 : Word).toNat ∧
    ((504#32 : Word).toNat < lastWord.cfg.inCap ∧ Memory.lookup lastWord.inBuf 504 = none) := by decide

/-- An instance whose capacities are no multiples of 4: a word straddles each of them. -/
def oddCaps : Params := { inCap := 5, outCap := 10, accW := 9 }

/-- The aligned words at offset 4 of IN and 8 of OUT straddle the capacities 5 and 10. -/
theorem witness_straddling_words :
    oddCaps.wf = true ∧ ((4#32 : Word).toNat % 4 = 0 ∧ (4#32 : Word).toNat < oddCaps.inCap ∧ oddCaps.inCap ≤ (4#32 : Word).toNat + 1) ∧
    ((8#32 : Word).toNat % 4 = 0 ∧ (8#32 : Word).toNat + 1 < oddCaps.outCap ∧ oddCaps.outCap ≤ (8#32 : Word).toNat + 2) := by decide

/-- R64, R66: byte 4 is written and returned, the three lanes at or above IN_CAP = 5 are not written and read 0. -/
theorem test_port_straddle :
    (hostTxns [.wr32 .inp 4#32 0x44332211#32, .rd32 .inp 4#32, .rd32 .inp 8#32] (State.resetOf oddCaps)).returned =
      [0#32, 0x11#32] := by decide

/-- RLE_DEC done, its output four bytes 41. -/
def fourOut : State := after (step (started 2#3 [0x41#8, 4#8]))

theorem witness_OutputBufferReads :
    (fourOut.busy = false ∧ (0#32 : Word).toNat + 3 < fourOut.cfg.outCap ∧ (0#32 : Word).toNat % 4 = 0 ∧
      Memory.lookup fourOut.outBuf 0 = some 0x41#8 ∧ Memory.lookup fourOut.outBuf 1 = some 0x41#8 ∧
      Memory.lookup fourOut.outBuf 2 = some 0x41#8 ∧ Memory.lookup fourOut.outBuf 3 = some 0x41#8) ∧
    ((1023#32 : Word).toNat < fourOut.cfg.outCap ∧ Memory.lookup fourOut.outBuf 1023 = none) ∧ busyState.busy = true ∧
    fourOut.cfg.outCap ≤ (1024#32 : Word).toNat ∧ (2#32 : Word).toNat % 4 ≠ 0 := by decide

theorem witness_InterruptLine :
    (2#32 : Word)[1] = true ∧ (1#32 : Word)[1] = false ∧ State.reset.busy = false ∧ (1#32 : Word)[0] = true ∧
    exec .rleEnc busyState = .next doneState :=
  ⟨by decide, by decide, by decide, by decide, goesOn_eq (by decide)⟩

/-- Five bytes, one word and one byte; and none. -/
theorem witness_LoadinFillsTheInputBuffer :
    State.reset.cfg.wf = true ∧ State.reset.busy = false ∧ [1#8, 2#8, 3#8, 4#8, 5#8].length ≤ State.reset.cfg.inCap ∧
    ([] : List Byte).length ≤ State.reset.cfg.inCap := by decide

theorem succeeded_doneState : Succeeded doneState [0x41#8, 2#8] where
  length := by decide
  bytes := fun j => by
    have h : doneState.outBuf = Memory.ofBytes 0 [0x41#8, 2#8] := by decide
    rw [h]; simp
  errPos := by decide
  errcode := by decide
  done := by decide
  idle := by decide

theorem witness_ReadoutReturnsTheOutput :
    doneState.cfg.wf = true ∧ [0x41#8, 2#8].length ≤ doneState.cfg.outCap ∧ Succeeded doneState [0x41#8, 2#8] :=
  ⟨by decide, by decide, succeeded_doneState⟩

theorem witness_ReservedCommandsAreBadCommands :
    Instr.reservedOp7 ∈ [Instr.reservedOp0, .reservedOp5, .reservedOp6, .reservedOp7] ∧
    (started 5#3 []).cfg.wf = true ∧ (started 5#3 []).busy = true ∧ (started 5#3 []).eng.opL ∈ [0#3, 5#3, 6#3, 7#3] ∧
    (started 5#3 []).nextEvent = .complete := by decide

/-- A legal length for RLE_ENC, RLE_DEC, ADP_COMP, ADP_DEC, TAG_R, TAG_I: 2, 0, and IN_CAP. -/
theorem witness_legal_lengths :
    State.reset.cfg.wf = true ∧ busyState.eng.nL.toNat ≤ State.reset.cfg.inCap ∧
    (started 2#3 []).eng.nL.toNat ≤ State.reset.cfg.inCap ∧
    (accept { State.reset with inLen := 512#32 }).eng.nL.toNat ≤ State.reset.cfg.inCap := by decide

theorem witness_RleEncCompletes : busyState.cfg.wf = true ∧ busyState.eng.nL.toNat ≤ busyState.cfg.inCap := by decide

/-- The four ends of a decoding: a zero count, an odd length, a sum above OUT_CAP, and success at the largest sum. -/
theorem witness_RleDecCompletes :
    (let s := started 2#3 [0x41#8, 0#8]
     s.cfg.wf = true ∧ s.eng.nL.toNat ≤ s.cfg.inCap ∧ (commandInput s).1 = [0x41#8, 0#8]) ∧
    (1 % 2 = 1 ∧ (commandInput (started 2#3 [0x41#8])).1.length = 1) ∧
    (State.reset.cfg.outCap < countSum ((List.replicate 5 [0#8, 0xFF#8]).flatten)) ∧
    countSum ((List.replicate 4 [0#8, 0xFF#8]).flatten ++ [0#8, 4#8]) = State.reset.cfg.outCap := by decide

/-- The empty input; `R` strictly smaller; the tie. -/
theorem witness_AdpCompCompletes :
    (commandInput (started 3#3 [])).1 = [] ∧
    (let x := (commandInput (started 3#3 [0x41#8, 0x41#8, 0x41#8])).1
     x ≠ [] ∧ 1 + rleLen x < 1 + x.length) ∧
    (let x := (commandInput (started 3#3 [0x41#8, 0x41#8])).1
     x ≠ [] ∧ 1 + x.length ≤ 1 + rleLen x) := by decide

/-- The empty stream; each tag; a reserved one. -/
theorem witness_AdpDecCompletes :
    (commandInput (started 4#3 [])).1 = [] ∧
    (commandInput (started 4#3 [0x52#8, 0x41#8, 3#8])).1 = 0x52#8 :: [0x41#8, 3#8] ∧
    (commandInput (started 4#3 [0x49#8])).1 = 0x49#8 :: [] ∧
    (commandInput (started 4#3 [0x53#8, 1#8])).1 = 0x53#8 :: [1#8] ∧ (0x53#8 : Byte) ≠ 0x52#8 ∧ (0x53#8 : Byte) ≠ 0x49#8 := by
  decide

theorem witness_TagsSelectTheirPayload : tagState.cfg.wf = true ∧ tagState.eng.nL.toNat ≤ tagState.cfg.inCap := by decide

theorem witness_LengthErrorBeforeAnyRead :
    Instr.tagI ∈ [Instr.rleEnc, .rleDec, .adpComp, .adpDec, .tagR, .tagI] ∧
    State.reset.cfg.inCap < (accept { State.reset with op := 1#3, inLen := 513#32 }).eng.nL.toNat := by decide

theorem witness_CompletionChangesNothingElse :
    (started 0#3 []).cfg.wf = true ∧ (after (exec .reservedOp0 (started 0#3 []))).errcode ≠ 0#4 := by decide

theorem witness_TurnFollowsTheDispatchRule :
    busyState.busy = true ∧ atTag busyState = false ∧ (started 7#3 []).eng.opL ∉ [1#3, 2#3, 3#3, 4#3] ∧
    atTag (started 7#3 []) = false ∧
    State.reset.cfg.inCap < (accept { State.reset with op := 1#3, inLen := 513#32 }).eng.nL.toNat := by decide

theorem witness_TagTurnAgreesWithAdpDec :
    atTag tagState = true ∧ 1 ≤ tagState.eng.nL.toNat ∧ Memory.lookup tagState.inBuf 0 = some tagState.eng.curV := by decide

/-- A written byte, an unwritten one, and a whole written input. -/
theorem witness_CommandInputIsTheBuffer :
    (0 < busyState.eng.nL.toNat ∧ Memory.lookup busyState.inBuf 0 = some 0x41#8) ∧
    (let s := accept { State.reset with op := 1#3, inLen := 1#32 }
     0 < s.eng.nL.toNat ∧ Memory.lookup s.inBuf 0 = none) ∧
    [0x41#8, 0x41#8].length = busyState.eng.nL.toNat ∧ HoldsInput busyState [0x41#8, 0x41#8] :=
  ⟨by decide, by decide, by decide, holdsInput_ofBytes_two⟩

theorem witness_SplitIntoLegalCounts : 1 ≤ 256 ∧ 0 < 256 / 255 ∧ 256 % 255 > 0 ∧ 510 % 255 = 0 := by decide

theorem witness_RunLengthSizeBounds : ([0x41#8] : List Byte) ≠ [] := by decide

/-- The output of RLE_ENC moved to IN_BUF. -/
theorem witness_RunLengthRoundTrip :
    let s' := started 2#3 [0x41#8, 2#8]
    (busyState.cfg.wf = true ∧ s'.cfg = busyState.cfg ∧ busyState.eng.nL.toNat ≤ busyState.cfg.inCap) ∧
    exec .rleEnc busyState = .next doneState ∧ doneState.outLen.toNat ≤ busyState.cfg.inCap ∧
    s'.eng.nL = doneState.outLen ∧
    ∀ i, i < doneState.outLen.toNat → Memory.lookup s'.inBuf i = Memory.lookup doneState.outBuf i :=
  ⟨by decide, goesOn_eq (by decide), by decide, by decide, by decide⟩

/-- Two adjacent pairs of one value: a run of 256. -/
theorem witness_EncoderOutputIsCanonical :
    let y := flatten (split 0x41#8 256)
    2 * (0 + 1) + 1 < y.length ∧ pairValue y 0 = pairValue y 1 ∧ pairCount y 0 = 255#8 := by decide

theorem witness_DecodedLengthIsTheCountSum :
    rleDecodeCheck [0x41#8, 2#8, 0x41#8, 1#8] 0 = .ok [0x41#8, 0x41#8, 0x41#8] := by decide

theorem witness_AdaptiveOverheadIsOneByte :
    ([0x41#8, 0x41#8] : List Byte) ≠ [] ∧ 1 + rleLen [0x41#8, 0x41#8] = 1 + [0x41#8, 0x41#8].length := by decide

/-- The output of ADP_COMP moved to IN_BUF. -/
theorem witness_AdaptiveRoundTrip :
    let s := started 3#3 [0x41#8, 0x41#8, 0x41#8]
    let s' := started 4#3 [0x52#8, 0x41#8, 3#8]
    let t := after (exec .adpComp s)
    (s.cfg.wf = true ∧ s'.cfg = s.cfg ∧ s.eng.nL.toNat ≤ s.cfg.inCap) ∧ exec .adpComp s = .next t ∧
    t.outLen.toNat ≤ s.cfg.inCap ∧ s'.eng.nL = t.outLen ∧
    ∀ i, i < t.outLen.toNat → Memory.lookup s'.inBuf i = Memory.lookup t.outBuf i :=
  ⟨by decide, goesOn_eq (by decide), by decide, by decide, by decide⟩

theorem witness_AdaptiveChoosesTheSmaller :
    ([0x41#8] : List Byte) ≠ [] ∧ (∀ i, i + 1 < [0x41#8, 0x42#8].length → [0x41#8, 0x42#8][i]? ≠ [0x41#8, 0x42#8][i + 1]?) ∧
    3 ≤ 3 ∧ 1 ≤ 1 ∧ 2 ≤ 2 := by
  refine ⟨by decide, ?_, by decide, by decide, by decide⟩
  intro i hi
  obtain rfl : i = 0 := by simp at hi; omega
  decide

end Sys2Proof.Tests
end

section
/-! Every step keeps the machine's invariant (R7, R12, R35, R36, R41, R42, R68, R206 to R208). The events of a step are taken
one at a time: what reads and writes nothing of the invariant, acceptance, completion, the reset event, an internal step. -/

namespace Sys2Proof.Machine

/-! ### The part of the invariant an internal step can touch -/

/-- The two conditions of `Inv` on what an internal step may write (R41): OUT_BUF in canonical form, acc within ACC_W bits. -/
structure DatapathInv (s : State) : Prop where
  outBuf : Memory.wf s.cfg.outCap s.outBuf = true
  acc    : s.eng.acc < 2 ^ s.cfg.accW

namespace DatapathInv

variable {s : State}

/-- Rewriting working registers keeps it where the new acc fits. -/
theorem mapEng {f : Engine → Engine} (h : DatapathInv s) (hf : (f s.eng).acc < 2 ^ s.cfg.accW) :
    DatapathInv (s.mapEng f) := ⟨h.outBuf, hf⟩

theorem inRead (h : DatapathInv s) (i : Nat) : DatapathInv (inRead i s).2 := by
  obtain ⟨n, _, hn⟩ := inRead_frame i s
  rw [hn]
  exact ⟨h.outBuf, h.acc⟩

theorem outWrite (h : DatapathInv s) (j : Nat) (v : Byte) : DatapathInv (outWrite j v s) := by
  have hcfg : (Machine.outWrite j v s).cfg = s.cfg := by rw [(internal_outWrite j v s).frame]
  exact ⟨by rw [hcfg]; exact outWrite_wf j v h.outBuf, by rw [hcfg, outWrite_eng]; exact h.acc⟩

theorem raisePending (h : DatapathInv s) (c : ErrCode) (pos : Word) : DatapathInv (raisePending c pos s) := h.mapEng h.acc

theorem okPending (h : DatapathInv s) : DatapathInv (okPending s) := h.mapEng h.acc

theorem enterP1 (h : DatapathInv s) (rd : Word) : DatapathInv (enterP1 rd s) := h.mapEng (Nat.two_pow_pos _)

theorem enterP2 (h : DatapathInv s) (rd wr : Word) : DatapathInv (enterP2 rd wr s) := h.mapEng h.acc

theorem dispatchTag (h : DatapathInv s) : DatapathInv (dispatchTag s) := by
  unfold Machine.dispatchTag
  split_ifs
  · exact (h.mapEng h.acc).enterP1 _
  · exact (h.mapEng h.acc).enterP2 _ _
  · exact h.raisePending _ _

theorem readTag (h : DatapathInv s) : DatapathInv (readTag s) := (h.inRead 0).mapEng (h.inRead 0).acc

theorem checkStep (h : DatapathInv s) : DatapathInv (checkStep s) := by
  unfold Machine.checkStep
  split
  · split_ifs
    · exact h.raisePending _ _
    · exact h.enterP1 _
  · split_ifs
    · exact h.raisePending _ _
    · exact h.enterP1 _
  · split_ifs
    · exact h.raisePending _ _
    · exact h.okPending
    · exact h.enterP1 _
  · split_ifs
    · exact h.raisePending _ _
    · exact h.okPending
    · exact h.dispatchTag
    · exact h.readTag
  · exact h.raisePending _ _

theorem openRun (h : DatapathInv s) : DatapathInv (openRun s) := (h.inRead _).mapEng (h.inRead _).acc

theorem countPair (h : DatapathInv s) : DatapathInv (countPair s) := h.mapEng h.acc

theorem emitPair (h : DatapathInv s) : DatapathInv (emitPair s) :=
  have hw := (h.outWrite s.eng.wr.toNat s.eng.curV).outWrite (s.eng.wr.toNat + 1) s.eng.runC
  hw.mapEng hw.acc

theorem extendRun {closePiece : State → State} (h : DatapathInv s)
    (hclose : ∀ u, DatapathInv u → DatapathInv (closePiece u)) : DatapathInv (extendRun closePiece s) := by
  unfold Machine.extendRun
  split_ifs
  · exact (h.inRead _).mapEng (h.inRead _).acc
  · exact hclose _ (h.inRead _)
  · exact hclose _ h

theorem sizeDone (h : DatapathInv s) : DatapathInv (sizeDone s) := by
  unfold Machine.sizeDone
  dsimp only
  split_ifs
  · exact h.raisePending _ _
  · exact ((h.mapEng h.acc).outWrite _ _).enterP2 _ _
  · exact h.raisePending _ _
  · exact ((h.mapEng h.acc).outWrite _ _).enterP2 _ _
  · exact h.raisePending _ _
  · exact h.enterP2 _ _

theorem sizeStep (h : DatapathInv s) : DatapathInv (sizeStep s) := by
  unfold Machine.sizeStep
  split_ifs
  · exact h.openRun
  · exact h.sizeDone
  · exact h.extendRun fun _ hu => hu.countPair

theorem emitStep (h : DatapathInv s) : DatapathInv (emitStep s) := by
  unfold Machine.emitStep
  split_ifs
  · exact h.openRun
  · exact h.okPending
  · exact h.extendRun fun _ hu => hu.emitPair

theorem copyStep (h : DatapathInv s) : DatapathInv (copyStep s) := by
  have hw := (h.inRead s.eng.rd.toNat).outWrite s.eng.wr.toNat (Machine.inRead s.eng.rd.toNat s).1
  unfold Machine.copyStep
  split_ifs
  · exact hw.mapEng hw.acc
  · exact h.okPending

/-- The CHECK pass of R131 keeps acc within its width because the sum is taken modulo `2 ^ ACC_W`. -/
theorem sumStep (h : DatapathInv s) : DatapathInv (sumStep s) := by
  have hr := h.inRead (s.eng.rd.toNat + 1)
  have hcfg : (Machine.inRead (s.eng.rd.toNat + 1) s).2.cfg = s.cfg := by rw [(internal_inRead _ s).frame]
  unfold Machine.sumStep
  split_ifs
  · exact hr.raisePending _ _
  · exact hr.mapEng (hcfg ▸ Nat.mod_lt _ (Nat.two_pow_pos _))
  · exact h.raisePending _ _
  · exact h.raisePending _ _
  · exact h.enterP2 _ _

theorem expandStep (h : DatapathInv s) : DatapathInv (expandStep s) := by
  have hr := (h.inRead s.eng.rd.toNat).inRead (s.eng.rd.toNat + 1)
  have hw := h.outWrite s.eng.wr.toNat s.eng.curV
  unfold Machine.expandStep
  split_ifs
  · exact hr.mapEng hr.acc
  · exact h.okPending
  · exact hw.mapEng hw.acc

theorem p1Step (h : DatapathInv s) : DatapathInv (p1Step s) := by
  unfold Machine.p1Step
  split
  · exact h.sizeStep
  · exact h.sizeStep
  · exact h.sumStep

theorem p2Step (h : DatapathInv s) : DatapathInv (p2Step s) := by
  unfold Machine.p2Step
  split
  · exact h.emitStep
  · exact h.expandStep
  · split_ifs
    · exact h.emitStep
    · exact h.copyStep
  · split_ifs
    · exact h.expandStep
    · exact h.copyStep

/-- Every internal step keeps OUT_BUF canonical and acc within its width. -/
theorem workStep (h : DatapathInv s) : DatapathInv (workStep s) := by
  unfold Machine.workStep
  split
  · exact h
  · exact h.checkStep
  · exact h.p1Step
  · exact h.p2Step
  · exact h

end DatapathInv

/-! ### The invariant, event by event -/

/-- Codes 6 to 15 have no error (R206). -/
theorem ErrCode.code_le_five (c : ErrCode) : c.code.toNat ≤ 5 := by cases c <;> decide

/-- The state after reset satisfies the invariant, for all admitted parameters. -/
theorem inv_resetOf {p : Params} (hp : p.wf = true) : Inv (State.resetOf p) where
  params := hp
  inBuf := rfl
  outBuf := rfl
  legalCode := Nat.zero_le 5
  running hb := absurd hb (by simp [State.resetOf, State.busy, Engine.reset])
  output _ := rfl
  oneResult _ := rfl
  position hp := absurd rfl hp
  acc := Nat.two_pow_pos _

namespace Inv

variable {s : State}

/-- The model's own fields take no part in the invariant. -/
theorem modelFields (h : Inv s) (q : List Event) (vs : List Word) (n : Nat) :
    Inv { s with sched := q, returned := vs, draws := n } := { h with }

theorem accept (h : Inv s) : Inv (accept s) where
  params := h.params
  inBuf := h.inBuf
  outBuf := rfl
  legalCode := by simp
  running _ := ⟨rfl, rfl, rfl, rfl⟩
  output hb := absurd hb (by simp)
  oneResult _ := rfl
  position hp := absurd rfl hp
  acc := Nat.two_pow_pos _

/-- Recording an error whose position R208 allows. -/
theorem recordError (h : Inv s) {c : ErrCode} {pos : Word} (hr : LegalResult s.cfg (.err c pos)) :
    Inv (recordError c pos s) where
  params := h.params
  inBuf := h.inBuf
  outBuf := rfl
  legalCode := c.code_le_five
  running hb := absurd hb (by simp)
  output _ := rfl
  oneResult _ := rfl
  position hp := congrArg ErrCode.code (hr hp)
  acc := h.acc

/-- Completing with an output that fits: its length fits in OUT_LEN because OUT_CAP is a 32-bit number (R7). -/
theorem complete_ok (h : Inv s) {y : List Byte} (hy : y.length ≤ s.cfg.outCap) : Inv (complete (.ok y) s) where
  params := h.params
  inBuf := h.inBuf
  outBuf := ofBytes_wf y hy
  legalCode := by simp
  running hb := absurd hb (by simp)
  output _ := by
    obtain ⟨-, -, hcap, -⟩ := (wf_iff _).1 h.params
    rw [complete_ok_outBuf, fst_ofBytes, (complete_ok_succeeded (s := s) (y := y) (by omega)).length, List.range_eq_range']
  oneResult he := absurd rfl he
  position hp := absurd rfl hp
  acc := h.acc

theorem complete (h : Inv s) {r : Result} (hr : LegalResult s.cfg r) : Inv (complete r s) := by
  cases r with
  | ok y => exact h.complete_ok hr
  | err c pos => exact h.recordError hr

/-- The reset event keeps the configuration, so what it leaves is the reset state of admitted parameters (R240). -/
theorem resetEvent (h : Inv s) : Inv (resetEvent s) := (inv_resetOf h.params).modelFields _ _ _

/-- Every host transaction. Only an accepted START, a write of STATUS and a write of IN_BUF touch what the invariant is about. -/
theorem hostTxn {t : Txn} {u : State} (h : Inv s) (hu : TxnEffect t s u) : Inv u := by
  cases hu with
  | read v n => exact h.modelFields _ _ _
  | start w => exact Inv.accept (s := { s with ie := w[1] }) { h with }
  | ignoredStart w => exact { h with }
  | enable w => exact { h with }
  | ignored => exact { h with }
  | command w => exact { h with }
  | length w => exact { h with }
  | status w =>
    refine { h with running := fun hb => ?_ }
    obtain ⟨hdone, hrest⟩ := h.running hb
    exact ⟨by simp [hdone], hrest⟩
  | input m _ _ hw => exact { h with inBuf := hw h.inBuf }
  | nothing => exact h

/-- An internal step of a Busy engine changes working registers, OUT_BUF and draws alone and leaves it Busy (R41); an Idle
engine takes none (R218). -/
theorem workStep (h : Inv s) : Inv (workStep s) := by
  by_cases hidle : s.eng.st = .idle
  · have : Machine.workStep s = s := by simp [Machine.workStep, hidle]
    rwa [this]
  · obtain ⟨⟨hframe, -, -⟩, hbusy⟩ := workStep_effect s hidle
    obtain ⟨hout, hacc⟩ := DatapathInv.workStep ⟨h.outBuf, h.acc⟩
    rw [hframe] at hout hacc ⊢
    exact { h with
      outBuf := hout
      acc := hacc
      running := fun _ => h.running (by simp [State.busy, hidle])
      output := fun hb => absurd hb (by simp [State.busy, hbusy]) }

end Inv

/-- Settles O11: each effect a step can have (`step_effect`) keeps the invariant. -/
theorem invariantKeptByEveryStep : Obligations.InvariantKeptByEveryStep := by
  intro s t hs hstep
  obtain ⟨-, heffect⟩ := step_effect hstep
  cases heffect with
  | host tx rest _ _ hu => exact (hs.modelFields rest _ _).hostTxn hu
  | reset rest => exact (hs.modelFields rest _ _).resetEvent
  | work rest => exact (hs.modelFields rest _ _).workStep
  | idle => exact hs.modelFields _ _ _
  | complete _ _ r n hr => exact (hs.modelFields s.sched.tail s.returned (s.draws + n)).complete hr

end Sys2Proof.Machine
end

section
/-! The engine's turn, its internal steps and completion, as far as a host sees them: what they change and what they leave alone
(R37, R40, R41, R74, R94, R207, R210). -/

namespace Sys2Proof.Machine

/-! ### Internal steps -/

/-- An Idle engine takes no internal step (R218). -/
theorem workStep_idle {s : State} (hb : s.busy = false) : workStep s = s := by
  have hst : s.eng.st = .idle := by simpa [busy_eq] using hb
  simp [workStep, hst]

theorem workStep_internal (s : State) : Internal s (workStep s) := by
  by_cases hst : s.eng.st = .idle
  · rw [workStep_idle (by simp [busy_eq, hst])]
    exact Internal.refl s
  · exact (workStep_effect s hst).internal

theorem workStep_busy (s : State) : (workStep s).busy = s.busy := by
  by_cases hst : s.eng.st = .idle
  · rw [workStep_idle (by simp [busy_eq, hst])]
  · rw [busy_eq, busy_eq, bne_iff_ne.2 hst, bne_iff_ne.2 (workStep_effect s hst).busy]

/-- Of what an internal step changes, the registers show whether the engine is Busy alone. -/
theorem regRead_internal {s t : State} (h : Internal s t) (hb : t.busy = s.busy) (off : Nat) : regRead off t = regRead off s := by
  obtain ⟨hframe, -, -⟩ := h
  have hstatus : statusWord t = statusWord s := by rw [statusWord_eq, statusWord_eq, hb, hframe]
  unfold regRead
  rw [hstatus, hframe]

/-- Settles O16: an internal step is `Internal`, and leaves BUSY as it is. -/
theorem internalStepsAreInvisible : Obligations.InternalStepsAreInvisible := by
  intro s
  have h := workStep_internal s
  exact ⟨h.frame, workStep_busy s, h.opL, h.nL, workStep_idle, regRead_internal h (workStep_busy s)⟩

/-- Settles O17: of the steps that leave the engine Busy, none writes the command's input. -/
theorem commandInputFixedWhileBusy : Obligations.CommandInputFixedWhileBusy := by
  intro s t hb hstep hbt
  obtain ⟨-, heffect⟩ := step_effect hstep
  cases heffect with
  | host tx rest _ _ hu =>
    cases hu with
    | read | ignoredStart | enable | ignored | status | nothing => exact ⟨rfl, rfl, rfl, rfl, rfl⟩
    | start _ _ _ hidle | command _ _ hidle | length _ _ hidle | input _ _ hidle => exact absurd (hb.symm.trans hidle) (by decide)
  | reset => exact absurd hbt (by simp)
  | work rest =>
    obtain ⟨hframe, hop, hn⟩ := workStep_internal { s with sched := rest }
    exact ⟨by rw [hframe], by rw [hframe], by rw [hframe], hop, hn⟩
  | idle hidle => exact absurd (hb.symm.trans hidle) (by decide)
  | complete => exact absurd hbt (by simp)

/-! ### Completion -/

/-- OUT_BUF after a completion holds values exactly below OUT_LEN, where the result is legal (R40, R207). -/
theorem complete_outBuf_iff {r : Result} {s : State} (hwf : s.cfg.wf = true) (hr : LegalResult s.cfg r) (j : Nat) :
    (Memory.lookup (complete r s).outBuf j).isSome = true ↔ j < (complete r s).outLen.toNat := by
  cases r with
  | ok y =>
    obtain ⟨-, -, hcap, -⟩ := (wf_iff _).1 hwf
    have hlen : y.length ≤ s.cfg.outCap := hr
    obtain ⟨hy, hbytes, -⟩ := complete_ok_succeeded (s := s) (y := y) (by omega)
    rw [hbytes, hy]
    simp
  | err c pos => simp [Memory.lookup]

theorem complete_oneResult (r : Result) (s : State) : (complete r s).errcode ≠ 0#4 → (complete r s).outLen = 0#32 := by
  cases r with
  | ok y => exact fun h => absurd rfl h
  | err c pos => exact fun _ => rfl

/-- Settles O44: every instruction is one completion (`exec_complete`). -/
theorem completionChangesNothingElse : Obligations.CompletionChangesNothingElse := by
  intro i s hwf
  obtain ⟨r, n, hexec, hr⟩ := exec_complete i s
  have hframe := complete_frame r s (s.draws + n)
  exact ⟨_, hexec, hframe, complete_busy _ _, complete_done _ _, fun a => by rw [hframe.inBuf], complete_outBuf_iff hwf hr,
    complete_oneResult _ _⟩

/-- What a command leaves for the host: its outcome (R40). -/
structure SameOutcome (t t' : State) : Prop where
  outLen  : t.outLen = t'.outLen
  errPos  : t.errPos = t'.errPos
  errcode : t.errcode = t'.errcode
  outBuf  : t.outBuf = t'.outBuf
  done    : t.done = t'.done
  busy    : t.busy = t'.busy

theorem complete_sameOutcome (r : Result) (s s' : State) : SameOutcome (complete r s) (complete r s') := by
  cases r <;> exact ⟨rfl, rfl, rfl, rfl, rfl, rfl⟩

/-- The latched length is illegal, or the input is the bytes x, each written by the host. -/
def IllegalOrHolds (x : List Byte) (s : State) : Prop :=
  s.cfg.inCap < s.eng.nL.toNat ∨ (s.eng.nL.toNat = x.length ∧ HoldsInput s x)

/-- A command is a function of the parameters, the latched length and the input bytes. -/
theorem runCommand_sameOutcome {x : List Byte} {s s' : State} (f : List Byte → Result) (hcfg : s.cfg = s'.cfg)
    (hn : s.eng.nL = s'.eng.nL) (h : IllegalOrHolds x s) (h' : IllegalOrHolds x s') : SameOutcome (runCommand f s) (runCommand f s') := by
  by_cases hlen : s.cfg.inCap < s.eng.nL.toNat
  · rw [runCommand_lengthError hlen, runCommand_lengthError (by rwa [← hcfg, ← hn])]
    exact complete_sameOutcome (.err .lengthError 0#32) s s'
  · have hlen' : ¬ s'.cfg.inCap < s'.eng.nL.toNat := by rwa [← hcfg, ← hn]
    obtain ⟨hx, hin⟩ := h.resolve_left hlen
    obtain ⟨hx', hin'⟩ := h'.resolve_left hlen'
    rw [runCommand_legal (Nat.not_lt.1 hlen), runCommand_legal (Nat.not_lt.1 hlen'), commandInput_written hx.symm hin,
      commandInput_written hx'.symm hin', hcfg]
    exact complete_sameOutcome _ s s'

/-- An instruction is a reserved command or a command run on its input: there is no third kind (R94). -/
theorem exec_kind (i : Instr) :
    (∀ s, exec i s = .next (recordError .badCommand 0#32 s)) ∨ ∃ f, ∀ s, exec i s = .next (runCommand f s) := by
  cases i with
  | reservedOp0 | reservedOp5 | reservedOp6 | reservedOp7 => exact .inl fun _ => rfl
  | rleEnc | rleDec | adpComp | adpDec | tagR | tagI => exact .inr ⟨_, fun _ => rfl⟩

/-- Settles O20: a reserved command reads nothing, and any other is `runCommand_sameOutcome`. -/
theorem outcomeDependsOnlyOnTheInput : Obligations.OutcomeDependsOnlyOnTheInput := by
  intro i s s' t t' x hcfg hn hinput ht ht'
  have h : IllegalOrHolds x s := hinput.imp_right fun ⟨hx, hin, _⟩ => ⟨hx, hin⟩
  have h' : IllegalOrHolds x s' := by
    rw [IllegalOrHolds, ← hcfg, ← hn]
    exact hinput.imp_right fun ⟨hx, _, hin'⟩ => ⟨hx, hin'⟩
  have hsame : SameOutcome t t' := by
    rcases exec_kind i with he | ⟨f, he⟩
    · rw [he, Host.Outcome.next.injEq] at ht ht'
      subst ht ht'
      exact complete_sameOutcome (.err .badCommand 0#32) s s'
    · rw [he, Host.Outcome.next.injEq] at ht ht'
      subst ht ht'
      exact runCommand_sameOutcome f hcfg hn h h'
  obtain ⟨hlen, hpos, hcode, hbuf, hdone, hbusy⟩ := hsame
  exact ⟨hlen, hpos, hcode, hbuf, hdone, hbusy⟩

/-! ### The engine's turn -/

theorem engineTurn_fetched {s : State} {i : Instr} (hb : s.busy = true) (h : fetch s = .ok i) : engineTurn s = exec i s := by
  simp [engineTurn, hb, h]

theorem fetch_of_decode {s : State} {i : Instr} {rest : List Byte}
    (h : decode (fetchFormat s) (fetchBytes s) = .ok (i, rest)) : fetch s = .ok i := by
  rw [fetch, h]; rfl

/-- Settles O8: with nothing scheduled, or an engine turn, a step is the engine's turn, and that runs what is fetched. -/
theorem stepRunsFetchedInstruction : Obligations.StepRunsFetchedInstruction := by
  intro s rest i hwf hb hsched hdecode
  have hturn : engineTurn { s with sched := rest } = exec i { s with sched := rest } :=
    engineTurn_fetched hb (fetch_of_decode hdecode)
  rw [← hturn]
  rcases hsched with ⟨hs, rfl⟩ | hs
  · rw [show ({ s with sched := [] } : State) = s by rw [← hs]]
    simp [step, hwf, hs]
  · simp [step, hwf, hs]

end Sys2Proof.Machine
end

section
/-! Every step keeps the engine's position within its input (R38, R70, R131, R168). A pass moves the position in one of three ways
(`PassMove`): it ends, it reads further, or it hands over to the pass that writes the output; the rest of the steps enter a pass,
a pending result or the Idle engine. -/

namespace Sys2Proof.Machine

/-! ### The passes by command -/

theorem payloadBase_lt_two (s : State) : (payloadBase s).toNat < 2 := by unfold payloadBase; split <;> decide

theorem p1Step_encoder {s : State} (h : s.eng.opL = 1#3 ∨ s.eng.opL = 3#3) : p1Step s = sizeStep s := by
  rcases h with h | h <;> simp [p1Step, h]

theorem p1Step_decoder {s : State} (h : s.eng.opL = 2#3 ∨ s.eng.opL = 4#3) : p1Step s = sumStep s := by
  rcases h with h | h <;> simp [p1Step, h]

theorem p2Step_emit {s : State} (h : s.eng.opL = 1#3 ∨ (s.eng.opL = 3#3 ∧ s.eng.sel = true)) : p2Step s = emitStep s := by
  rcases h with h | ⟨h, hsel⟩
  · simp [p2Step, h]
  · simp [p2Step, h, hsel]

theorem p2Step_expand {s : State} (h : s.eng.opL = 2#3 ∨ (s.eng.opL = 4#3 ∧ s.eng.sel = true)) :
    p2Step s = expandStep s := by
  rcases h with h | ⟨h, hsel⟩
  · simp [p2Step, h]
  · simp [p2Step, h, hsel]

theorem p2Step_copy {s : State} (h : (s.eng.opL = 3#3 ∨ s.eng.opL = 4#3) ∧ s.eng.sel = false) : p2Step s = copyStep s := by
  obtain ⟨h | h, hsel⟩ := h <;> simp [p2Step, h, hsel]

/-! ### The invariant in each value of eng_st -/

/-- An Idle engine has no position. -/
theorem engineInv_idle {s : State} (hst : s.eng.st = .idle) : EngineInv s where
  inRange hb := absurd hb (by simp [busy_eq, hst])
  atCheck hc := absurd (hst.symm.trans hc) (by decide)
  tested hp := by simp [hst] at hp
  checkPass hp := absurd (hst.symm.trans hp) (by decide)
  expand hp := absurd (hst.symm.trans hp) (by decide)
  tag ht := absurd ht (by simp [atTag, hst])

theorem engineInv_fin {s : State} (hst : s.eng.st = .fin)
    (hrd : s.eng.nL.toNat ≤ s.cfg.inCap → s.eng.rd.toNat ≤ s.eng.nL.toNat) : EngineInv s where
  inRange _ := hrd
  atCheck hc := absurd (hst.symm.trans hc) (by decide)
  tested hp := by simp [hst] at hp
  checkPass hp := absurd (hst.symm.trans hp) (by decide)
  expand hp := absurd (hst.symm.trans hp) (by decide)
  tag ht := absurd ht (by simp [atTag, hst])

/-- The latched command is one of the four, of a legal length: what the tests of R94 let through (R70). -/
def PassedTests (s : State) : Prop := s.eng.opL ∈ [1#3, 2#3, 3#3, 4#3] ∧ s.eng.nL.toNat ≤ s.cfg.inCap

theorem engineInv_p1 {s : State} (hst : s.eng.st = .p1) (htests : PassedTests s) (hrd : s.eng.rd.toNat ≤ s.eng.nL.toNat)
    (hpairs : s.eng.opL = 2#3 ∨ s.eng.opL = 4#3 →
      s.eng.rd.toNat % 2 = (payloadBase s).toNat ∧ (payloadBase s).toNat ≤ s.eng.rd.toNat) : EngineInv s where
  inRange _ _ := hrd
  atCheck hc := absurd (hst.symm.trans hc) (by decide)
  tested _ := htests
  checkPass _ := hpairs
  expand hp := absurd (hst.symm.trans hp) (by decide)
  tag ht := absurd ht (by simp [atTag, hst])

theorem engineInv_p2 {s : State} (hst : s.eng.st = .p2) (htests : PassedTests s) (hrd : s.eng.rd.toNat ≤ s.eng.nL.toNat)
    (hpairs : s.eng.opL = 2#3 ∨ (s.eng.opL = 4#3 ∧ s.eng.sel = true) → (s.eng.nL.toNat - s.eng.rd.toNat) % 2 = 0) :
    EngineInv s where
  inRange _ _ := hrd
  atCheck hc := absurd (hst.symm.trans hc) (by decide)
  tested _ := htests
  checkPass hp := absurd (hst.symm.trans hp) (by decide)
  expand _ := hpairs
  tag ht := absurd ht (by simp [atTag, hst])

/-- P1 is entered at the payload's first byte. -/
theorem engineInv_enterP1 {s : State} {rd : Word} (htests : PassedTests s) (hrd : rd = payloadBase s)
    (hn : rd.toNat ≤ s.eng.nL.toNat) : EngineInv (enterP1 rd s) :=
  engineInv_p1 rfl htests hn fun _ => by
    subst hrd
    exact ⟨Nat.mod_eq_of_lt (payloadBase_lt_two s), le_rfl⟩

/-- Every command but ADP_DEC has its payload at index 0. -/
theorem engineInv_enterP1_zero {s : State} {op : BitVec 3} (hop : s.eng.opL = op) (hmem : op ∈ [1#3, 2#3, 3#3])
    (hlen : s.eng.nL.toNat ≤ s.cfg.inCap) : EngineInv (enterP1 0#32 s) := by
  subst hop
  have hbase : payloadBase s = 0#32 := if_neg fun h4 => by simp [h4] at hmem
  exact engineInv_enterP1 ⟨List.mem_append_left [4#3] hmem, hlen⟩ hbase.symm (Nat.zero_le _)

/-- Acceptance starts with nothing read (R39). -/
theorem engineInv_accept (s : State) : EngineInv (accept s) where
  inRange _ _ := Nat.zero_le _
  atCheck _ := .inl rfl
  tested hp := by simp at hp
  checkPass hp := by simp at hp
  expand hp := by simp at hp
  tag ht := absurd ht (by simp [atTag, Engine.reset])

/-! ### What a step of a pass does to the position -/

/-- The pass is one of a decoder, which reads a pair at a time (R38, R131). -/
def ReadsPairs (s : State) : Prop :=
  (s.eng.st = .p1 ∧ (s.eng.opL = 2#3 ∨ s.eng.opL = 4#3)) ∨
  (s.eng.st = .p2 ∧ (s.eng.opL = 2#3 ∨ (s.eng.opL = 4#3 ∧ s.eng.sel = true)))

/-- The ways a step of a pass moves eng_st and rd. -/
inductive PassMove (s t : State) : Prop where
  /-- The result is pending. -/
  | ends (hst : t.eng.st = .fin) (hrd : t.eng.rd = s.eng.rd)
  /-- The pass goes on, k bytes further, within the input, and by whole pairs in a decoder. -/
  | reads (k : Nat) (hst : t.eng.st = s.eng.st) (hsel : t.eng.sel = s.eng.sel) (hrd : t.eng.rd = s.eng.rd + BitVec.ofNat 32 k)
      (hin : s.eng.rd.toNat ≤ s.eng.nL.toNat → s.eng.rd.toNat + k ≤ s.eng.nL.toNat) (hpairs : ReadsPairs s → k % 2 = 0)
  /-- The whole input is read, and the pass that writes the output starts at the payload's first byte. -/
  | handsOver (hp : s.eng.st = .p1) (hst : t.eng.st = .p2) (hrd : t.eng.rd = payloadBase s)
      (hend : s.eng.nL.toNat ≤ s.eng.rd.toNat)

theorem openRun_moves {s : State} (hpairs : ¬ ReadsPairs s) (hlt : s.eng.rd.toNat < s.eng.nL.toNat) :
    PassMove s (openRun s) :=
  .reads 1 (by simp [openRun, inRead_eng]) (by simp [openRun, inRead_eng]) (by simp [openRun, inRead_eng]) (fun _ => hlt)
    fun hp => absurd hp hpairs

/-- The scan of a run, whose end leaves the position where it is. -/
theorem extendRun_moves {s : State} {closePiece : State → State} (hpairs : ¬ ReadsPairs s)
    (hclose : ∀ u, (closePiece u).eng.st = u.eng.st ∧
      (closePiece u).eng.sel = u.eng.sel ∧ (closePiece u).eng.rd = u.eng.rd) :
    PassMove s (extendRun closePiece s) := by
  have closed : ∀ u : State, u.eng = s.eng → PassMove s (closePiece u) := fun u hu => by
    obtain ⟨hst, hsel, hrd⟩ := hclose u
    exact .reads 0 (by rw [hst, hu]) (by rw [hsel, hu]) (by simp [hrd, hu]) id fun _ => rfl
  unfold extendRun
  split_ifs with hlt
  · exact .reads 1 (by simp [inRead_eng]) (by simp [inRead_eng]) (by simp [inRead_eng]) (fun _ => hlt)
      fun hp => absurd hp hpairs
  · exact closed _ (inRead_eng _ s)
  · exact closed _ rfl

theorem sizeDone_moves {s : State} (hp : s.eng.st = .p1) (hop : s.eng.opL ≠ 4#3) (hend : s.eng.nL.toNat ≤ s.eng.rd.toNat) :
    PassMove s (sizeDone s) := by
  have hbase : payloadBase s = 0#32 := if_neg hop
  unfold sizeDone
  dsimp only
  split_ifs
  · exact .ends rfl rfl
  · exact .handsOver hp rfl hbase.symm hend
  · exact .ends rfl rfl
  · exact .handsOver hp rfl hbase.symm hend
  · exact .ends rfl rfl
  · exact .handsOver hp rfl hbase.symm hend

theorem sizeStep_moves {s : State} (hp : s.eng.st = .p1) (hpairs : ¬ ReadsPairs s) (hop : s.eng.opL ≠ 4#3) :
    PassMove s (sizeStep s) := by
  unfold sizeStep
  split_ifs with _ hlt
  · exact openRun_moves hpairs hlt
  · exact sizeDone_moves hp hop (Nat.not_lt.1 hlt)
  · exact extendRun_moves hpairs fun u => ⟨rfl, rfl, rfl⟩

theorem emitStep_moves {s : State} (hpairs : ¬ ReadsPairs s) : PassMove s (emitStep s) := by
  unfold emitStep
  split_ifs with _ hlt
  · exact openRun_moves hpairs hlt
  · exact .ends rfl rfl
  · exact extendRun_moves hpairs fun u => by simp [emitPair]

theorem copyStep_moves {s : State} (hpairs : ¬ ReadsPairs s) : PassMove s (copyStep s) := by
  unfold copyStep
  split_ifs with hlt
  · exact .reads 1 (by simp [inRead_eng]) (by simp [inRead_eng]) (by simp [inRead_eng]) (fun _ => hlt)
      fun hp => absurd hp hpairs
  · exact .ends rfl rfl

theorem sumStep_moves {s : State} (hp : s.eng.st = .p1) : PassMove s (sumStep s) := by
  unfold sumStep
  split_ifs with hpair _ hlt
  · exact .ends rfl (by simp [raisePending, inRead_eng])
  · exact .reads 2 (by simp [inRead_eng]) (by simp [inRead_eng]) (by simp [inRead_eng]) (fun _ => hpair) fun _ => rfl
  · exact .ends rfl rfl
  · exact .ends rfl rfl
  · exact .handsOver hp rfl rfl (Nat.not_lt.1 hlt)

/-- Where a byte of an even rest is left, a whole pair is. -/
theorem expandStep_moves {s : State} (heven : (s.eng.nL.toNat - s.eng.rd.toNat) % 2 = 0) : PassMove s (expandStep s) := by
  unfold expandStep
  split_ifs with _ hlt
  · exact .reads 2 (by simp [inRead_eng]) (by simp [inRead_eng]) (by simp [inRead_eng]) (fun _ => by omega) fun _ => rfl
  · exact .ends rfl rfl
  · exact .reads 0 (by simp) (by simp) (by simp) id fun _ => rfl

/-! ### The invariant, step by step -/

namespace EngineInv

variable {s t : State}

/-- The model's own fields take no part in it. -/
theorem modelFields (h : EngineInv s) (q : List Event) : EngineInv { s with sched := q } := { h with }

theorem raisePending (h : EngineInv s) (hb : s.busy = true) (c : ErrCode) (pos : Word) : EngineInv (raisePending c pos s) :=
  engineInv_fin rfl (h.inRange hb)

theorem okPending (h : EngineInv s) (hb : s.busy = true) : EngineInv (okPending s) := engineInv_fin rfl (h.inRange hb)

/-- In P1 the position is at or after the payload's first byte. -/
theorem payloadBase_le_rd (h : EngineInv s) (hp : s.eng.st = .p1) : (payloadBase s).toNat ≤ s.eng.rd.toNat := by
  by_cases hop : s.eng.opL = 4#3
  · exact (h.checkPass hp (.inr hop)).2
  · rw [show payloadBase s = 0#32 from if_neg hop]
    exact Nat.zero_le _

/-- A step of a pass keeps the invariant, however it moves. -/
theorem passMove (h : EngineInv s) (hi : Internal s t) (hpass : s.eng.st = .p1 ∨ s.eng.st = .p2) (hm : PassMove s t) :
    EngineInv t := by
  have hcfg : t.cfg = s.cfg := by rw [hi.frame]
  have hbase : payloadBase t = payloadBase s := by simp only [payloadBase, hi.opL]
  have htests : PassedTests t := by simpa only [PassedTests, hi.opL, hi.nL, hcfg] using h.tested hpass
  have hin : s.eng.rd.toNat ≤ s.eng.nL.toNat :=
    h.inRange (by rcases hpass with hst | hst <;> simp [busy_eq, hst]) (h.tested hpass).2
  cases hm with
  | ends hst hrd => exact engineInv_fin hst fun _ => by rwa [hrd, hi.nL]
  | reads k hst hsel hrd hk hpairs =>
    have hle := hk hin
    have hrd' : t.eng.rd.toNat = s.eng.rd.toNat + k := by
      have := s.eng.nL.isLt
      rw [hrd, BitVec.toNat_add, BitVec.toNat_ofNat]; omega
    rcases hpass with hp | hp
    · refine engineInv_p1 (hst.trans hp) htests (by rw [hrd', hi.nL]; exact hle) fun hop => ?_
      rw [hi.opL] at hop
      obtain ⟨hmod, hge⟩ := h.checkPass hp hop
      have := hpairs (.inl ⟨hp, hop⟩)
      rw [hbase, hrd']
      omega
    · refine engineInv_p2 (hst.trans hp) htests (by rw [hrd', hi.nL]; exact hle) fun hop => ?_
      rw [hi.opL, hsel] at hop
      have heven := h.expand hp hop
      have := hpairs (.inr ⟨hp, hop⟩)
      rw [hi.nL, hrd']
      omega
  | handsOver hp hst hrd hend =>
    have hle := h.payloadBase_le_rd hp
    refine engineInv_p2 hst htests (by rw [hrd, hi.nL]; omega) fun hop => ?_
    have hmod := (h.checkPass hp (by rw [← hi.opL]; exact hop.imp_right And.left)).1
    rw [hrd, hi.nL]
    omega

theorem p1Step (h : EngineInv s) (hp : s.eng.st = .p1) : EngineInv (p1Step s) := by
  have hi : Internal s (Machine.p1Step s) := by
    simpa [Machine.workStep, hp] using workStep_internal s
  refine h.passMove hi (.inl hp) ?_
  by_cases hdec : s.eng.opL = 2#3 ∨ s.eng.opL = 4#3
  · rw [p1Step_decoder hdec]
    exact sumStep_moves hp
  · obtain ⟨h2, h4⟩ := not_or.1 hdec
    rw [p1Step_encoder (by simpa [h2, h4] using (h.tested (.inl hp)).1)]
    exact sizeStep_moves hp (by simp [ReadsPairs, hp, hdec]) h4

theorem p2Step (h : EngineInv s) (hp : s.eng.st = .p2) : EngineInv (p2Step s) := by
  have hi : Internal s (Machine.p2Step s) := by
    simpa [Machine.workStep, hp] using workStep_internal s
  refine h.passMove hi (.inr hp) ?_
  have hop : s.eng.opL = 1#3 ∨ s.eng.opL = 2#3 ∨ s.eng.opL = 3#3 ∨ s.eng.opL = 4#3 := by
    simpa using (h.tested (.inr hp)).1
  rcases hop with hop | hop | hop | hop
  · rw [p2Step_emit (.inl hop)]
    exact emitStep_moves (by simp [ReadsPairs, hp, hop])
  · rw [p2Step_expand (.inl hop)]
    exact expandStep_moves (h.expand hp (.inl hop))
  · cases hsel : s.eng.sel
    · rw [p2Step_copy ⟨.inl hop, hsel⟩]
      exact copyStep_moves (by simp [ReadsPairs, hp, hop])
    · rw [p2Step_emit (.inr ⟨hop, hsel⟩)]
      exact emitStep_moves (by simp [ReadsPairs, hp, hop])
  · cases hsel : s.eng.sel
    · rw [p2Step_copy ⟨.inr hop, hsel⟩]
      exact copyStep_moves (by simp [ReadsPairs, hp, hop, hsel])
    · rw [p2Step_expand (.inr ⟨hop, hsel⟩)]
      exact expandStep_moves (h.expand hp (.inr ⟨hop, hsel⟩))

/-- The tag in cur_v is the byte read from IN_BUF index 0 (R168). -/
theorem readTag (hst : s.eng.st = .check) (hop : s.eng.opL = 4#3) (hn : 1 ≤ s.eng.nL.toNat) :
    EngineInv (readTag s) := by
  have heng := inRead_eng 0 s
  refine
    { inRange := fun _ _ => ?_
      atCheck := fun _ => .inr ?_
      tested := fun hp => ?_
      checkPass := fun hp => ?_
      expand := fun hp => ?_
      tag := fun _ b hbyte => ?_ }
  · simpa [Machine.readTag, heng] using hn
  · simpa [Machine.readTag, heng, hop] using hn
  · simp [Machine.readTag, heng, hst] at hp
  · simp [Machine.readTag, heng, hst] at hp
  · simp [Machine.readTag, heng, hst] at hp
  · have hbuf : (Machine.readTag s).inBuf = s.inBuf := by
      simpa [Machine.readTag] using congrArg State.inBuf (internal_inRead 0 s).frame
    simp [Machine.readTag, inRead_written (hbuf ▸ hbyte)]

theorem dispatchTag (h : EngineInv s) (hb : s.busy = true) (hop : s.eng.opL = 4#3) (hlen : s.eng.nL.toNat ≤ s.cfg.inCap)
    (hn : 1 ≤ s.eng.nL.toNat) : EngineInv (dispatchTag s) := by
  have htests : PassedTests s := ⟨by simp [hop], hlen⟩
  unfold Machine.dispatchTag
  split_ifs
  · exact engineInv_enterP1 (s := s.mapEng fun e => { e with sel := true }) htests (by simp [payloadBase, hop]) hn
  · exact engineInv_p2 rfl htests hn (by simp [enterP2, hop])
  · exact h.raisePending hb _ _

/-- The length test in front of a command (R204): past it the latched length is legal. -/
theorem lengthTest (h : EngineInv s) (hb : s.busy = true) (ht : s.eng.nL.toNat ≤ s.cfg.inCap → EngineInv t) :
    EngineInv (if s.cfg.inCap < s.eng.nL.toNat then Machine.raisePending .lengthError 0#32 s else t) := by
  split_ifs with hlen
  · exact h.raisePending hb _ _
  · exact ht (Nat.not_lt.1 hlen)

theorem checkStep (h : EngineInv s) (hst : s.eng.st = .check) : EngineInv (checkStep s) := by
  have hb : s.busy = true := by simp [busy_eq, hst]
  unfold Machine.checkStep
  split
  · exact h.lengthTest hb (engineInv_enterP1_zero (BitVec.eq_of_toNat_eq (y := 1#3) ‹_›) (by decide))
  · exact h.lengthTest hb (engineInv_enterP1_zero (BitVec.eq_of_toNat_eq (y := 2#3) ‹_›) (by decide))
  · refine h.lengthTest hb fun hlen => ?_
    split_ifs
    · exact h.okPending hb
    · exact engineInv_enterP1_zero (BitVec.eq_of_toNat_eq (y := 3#3) ‹_›) (by decide) hlen
  · rename_i hop
    have hop : s.eng.opL = 4#3 := BitVec.eq_of_toNat_eq hop
    refine h.lengthTest hb fun hlen => ?_
    split_ifs with hn
    · exact h.okPending hb
    · exact h.dispatchTag hb hop hlen (by bv_omega)
    · exact readTag hst hop (by bv_omega)
  · exact h.raisePending hb _ _

theorem workStep (h : EngineInv s) : EngineInv (workStep s) := by
  unfold Machine.workStep
  split
  · exact h
  · exact h.checkStep ‹_›
  · exact h.p1Step ‹_›
  · exact h.p2Step ‹_›
  · exact h

/-- A host transaction leaves the engine alone but for an accepted START, and IN_BUF while the engine is Busy (R74). -/
theorem hostTxn {tx : Txn} {u : State} (h : EngineInv s) (hu : TxnEffect tx s u) : EngineInv u := by
  cases hu with
  | start w => exact engineInv_accept _
  | input m _ hb =>
    have hidle : s.eng.st = .idle := by simpa [busy_eq] using hb
    exact engineInv_idle hidle
  | read | ignoredStart | enable | ignored | command | length | status => exact { h with }
  | nothing => exact h

end EngineInv

/-- Settles O13: each effect a step can have (`step_effect`) keeps the engine's position within its input. -/
theorem enginePositionKeptByEveryStep : Obligations.EnginePositionKeptByEveryStep := by
  intro s t _ h hstep
  obtain ⟨-, heffect⟩ := step_effect hstep
  cases heffect with
  | host tx rest _ _ hu => exact (h.modelFields rest).hostTxn hu
  | reset rest => exact engineInv_idle rfl
  | work rest => exact (h.modelFields rest).workStep
  | idle => exact h.modelFields _
  | complete _ _ r n => exact engineInv_idle (by cases r <;> rfl)

end Sys2Proof.Machine
end

section
/-! Which events change a status flag (R34). -/

namespace Sys2Proof.Machine

/-- A flag of t differs from that of s only where an event of R34's table is the next event of s. -/
structure FlagEvents (s t : State) : Prop where
  busySet   : s.busy = false → t.busy = true → AcceptsStart s
  busyClear : s.busy = true → t.busy = false → Completes s ∨ Resets s
  doneSet   : s.done = false → t.done = true → Completes s
  doneClear : s.done = true → t.done = false → ClearsBit s 1 ∨ AcceptsStart s ∨ Resets s
  ignSet    : s.ign = false → t.ign = true → s.busy = true ∧ ∃ w, s.nextEvent = .host w ∧ Protected w
  ignClear  : s.ign = true → t.ign = false → ClearsBit s 2 ∨ AcceptsStart s ∨ Resets s
  errcode   : t.errcode ≠ s.errcode → Completes s ∨ AcceptsStart s ∨ Resets s

namespace FlagEvents

variable {s t : State}

/-- Where IGN alone differs, the clauses about IGN are what is left to show. -/
theorem onlyIgn (hbusy : t.busy = s.busy) (hdone : t.done = s.done) (hcode : t.errcode = s.errcode)
    (hset : s.ign = false → t.ign = true → s.busy = true ∧ ∃ w, s.nextEvent = .host w ∧ Protected w)
    (hclear : s.ign = true → t.ign = false → ClearsBit s 2 ∨ AcceptsStart s ∨ Resets s) : FlagEvents s t where
  busySet h h' := absurd (hbusy.symm.trans h') (by simp [h])
  busyClear h h' := absurd (hbusy.symm.trans h') (by simp [h])
  doneSet h h' := absurd (hdone.symm.trans h') (by simp [h])
  doneClear h h' := absurd (hdone.symm.trans h') (by simp [h])
  ignSet := hset
  ignClear := hclear
  errcode h := absurd hcode h

theorem unchanged (hbusy : t.busy = s.busy) (hdone : t.done = s.done) (hign : t.ign = s.ign) (hcode : t.errcode = s.errcode) :
    FlagEvents s t :=
  onlyIgn hbusy hdone hcode (fun h h' => absurd (hign.symm.trans h') (by simp [h]))
    fun h h' => absurd (hign.symm.trans h') (by simp [h])

theorem start (h : AcceptsStart s) (hbusy : t.busy = true) (hdone : t.done = false) (hign : t.ign = false) : FlagEvents s t where
  busySet _ _ := h
  busyClear _ hb := absurd (hbusy.symm.trans hb) (by decide)
  doneSet _ hd := absurd (hdone.symm.trans hd) (by decide)
  doneClear _ _ := .inr (.inl h)
  ignSet _ hi := absurd (hign.symm.trans hi) (by decide)
  ignClear _ _ := .inr (.inl h)
  errcode _ := .inr (.inl h)

/-- A write ignored while BUSY sets IGN (R247). -/
theorem ignored {tx : Txn} (hb : s.busy = true) (hnext : s.nextEvent = .host tx) (hp : Protected tx)
    (hbusy : t.busy = s.busy) (hdone : t.done = s.done) (hign : t.ign = true) (hcode : t.errcode = s.errcode) : FlagEvents s t :=
  onlyIgn hbusy hdone hcode (fun _ _ => ⟨hb, tx, hnext, hp⟩) fun _ h => absurd (hign.symm.trans h) (by decide)

theorem clearStatus {rest : List Event} {w : Word} (hnext : s.nextEvent = .host (.wr32 .reg 0x0C#32 w)) :
    FlagEvents s (clearStatus w { s with sched := rest }) where
  busySet h h' := absurd (h.symm.trans h') (by decide)
  busyClear h h' := absurd (h.symm.trans h') (by decide)
  doneSet h h' := by simp [h] at h'
  doneClear h h' := .inl ⟨w, hnext, by simpa [h] using h'⟩
  ignSet h h' := by simp [h] at h'
  ignClear h h' := .inl ⟨w, hnext, by simpa [h] using h'⟩
  errcode h := absurd rfl h

theorem hostTxn {tx : Txn} {rest : List Event} (hs : s.sched = .host tx :: rest) (hu : TxnEffect tx { s with sched := rest } t) :
    FlagEvents s t := by
  have hnext : s.nextEvent = .host tx := by simp [State.nextEvent, hs]
  cases hu with
  | start w htx hw hb => exact start ⟨hb, w, htx ▸ hnext, hw⟩ rfl rfl rfl
  | ignoredStart w htx hw hb =>
    exact ignored hb hnext (by subst htx; exact .inr (.inr ⟨rfl, hw⟩)) rfl rfl rfl rfl
  | ignored hp hb => exact ignored hb hnext hp rfl rfl rfl rfl
  | status w htx => exact clearStatus (htx ▸ hnext)
  | read | enable | command | length | input | nothing => exact unchanged rfl rfl rfl rfl

theorem reset {rest : List Event} (h : Resets s) : FlagEvents s (resetEvent { s with sched := rest }) where
  busySet _ h' := absurd h' (by simp)
  busyClear _ _ := .inr h
  doneSet _ h' := absurd h' (by simp)
  doneClear _ _ := .inr (.inr h)
  ignSet _ h' := absurd h' (by simp)
  ignClear _ _ := .inr (.inr h)
  errcode _ := .inr (.inr h)

theorem complete {r : Result} {n : Nat} (h : Completes s) :
    FlagEvents s (complete r { s with sched := s.sched.tail, draws := n }) where
  busySet _ h' := absurd h' (by simp)
  busyClear _ _ := .inl h
  doneSet _ _ := h
  doneClear _ h' := absurd h' (by simp)
  ignSet h' h'' := by cases r <;> simp [h'] at h''
  ignClear h' h'' := by cases r <;> simp [h'] at h''
  errcode _ := .inl h

theorem workStep (rest : List Event) : FlagEvents s (workStep { s with sched := rest }) := by
  have hframe := (workStep_internal { s with sched := rest }).frame
  exact unchanged (workStep_busy _) (by rw [hframe]) (by rw [hframe]) (by rw [hframe])

end FlagEvents

/-- Settles O19: each effect a step can have (`step_effect`) changes flags as R34's table allows. -/
theorem flagsChangeOnlyByTheirEvents : Obligations.FlagsChangeOnlyByTheirEvents := by
  intro s t hstep
  obtain ⟨-, heffect⟩ := step_effect hstep
  have hflags : FlagEvents s t := by
    cases heffect with
    | host tx rest hs _ hu => exact .hostTxn hs hu
    | reset rest hs => exact .reset (by simp [Resets, State.nextEvent, hs])
    | work rest => exact .workStep rest
    | idle => exact .unchanged rfl rfl rfl rfl
    | complete hb hnext => exact .complete ⟨hb, hnext⟩
  obtain ⟨hbusySet, hbusyClear, hdoneSet, hdoneClear, hignSet, hignClear, hcode⟩ := hflags
  exact ⟨hbusySet, hbusyClear, hdoneSet, hdoneClear, hignSet, hignClear, hcode⟩

end Sys2Proof.Machine
end

section
/-! The register map and the writes of the host port (R23 to R33, R39, R62 to R67). -/

namespace Sys2Proof.Machine

/-! ### Reads -/

theorem aligned_iff (off : Word) : aligned off = true ↔ off.toNat % 4 = 0 := by simp [aligned]

theorem hostRead32_reg {off : Word} (h : off.toNat % 4 = 0) (s : State) : hostRead32 .reg off s = (regRead off.toNat s, s) := by
  simp [hostRead32, (aligned_iff off).2 h]

/-- A misaligned access of any region reads 0 (R62, R65). -/
theorem hostRead32_misaligned {off : Word} (h : off.toNat % 4 ≠ 0) (r : Region) (s : State) :
    hostRead32 r off s = (0#32, s) := by
  simp [hostRead32, aligned_iff, h]

theorem hostRead32_reserved (off : Word) (s : State) : hostRead32 .reserved off s = (0#32, s) := by
  simp [hostRead32]

/-- Above OUT_CAP_R, the last register, every offset is reserved (R23, R33). -/
theorem regRead_reserved {off : Nat} (h : 0x20 < off) (s : State) : regRead off s = 0#32 := by
  unfold regRead
  split
  case h_10 => rfl
  all_goals omega

theorem regRead_ctrl (s : State) : regRead 0x04 s = if s.ie then 2#32 else 0#32 := by
  show (BitVec.ofBool s.ie).setWidth 32 <<< 1 = _
  cases s.ie <;> rfl

theorem regRead_cmd (s : State) : regRead 0x08 s = BitVec.ofNat 32 s.op.toNat := (BitVec.ofNat_toNat 32 s.op).symm

/-- Settles O23: each listed offset is its register, and the rest reads 0. -/
theorem registerReads : Obligations.RegisterReads := by
  intro s
  refine ⟨hostRead32_reg rfl s, ?_, ?_, ?_, hostRead32_reg rfl s, hostRead32_reg rfl s, hostRead32_reg rfl s,
    hostRead32_reg rfl s, hostRead32_reg rfl s, ?_, fun off => ⟨rfl, rfl, hostRead32_reserved off s⟩⟩
  · rw [← regRead_ctrl]
    exact hostRead32_reg rfl s
  · rw [← regRead_cmd]
    exact hostRead32_reg rfl s
  · rw [← statusWord_eq]
    exact hostRead32_reg rfl s
  · intro off hoff
    by_cases ha : off.toNat % 4 = 0
    · rw [hostRead32_reg ha, regRead_reserved (hoff.resolve_right (not_not.2 ha))]
    · exact hostRead32_misaligned ha .reg s

/-! ### Writes -/

theorem writeCtrl_enable {w : Word} {s : State} (hw : w[0] = false) : writeCtrl w s = { s with ie := w[1] } := by
  simp [writeCtrl, hw]

theorem writeCtrl_start {w : Word} {s : State} (hw : w[0] = true) (hb : s.busy = false) :
    writeCtrl w s = accept { s with ie := w[1] } := by
  simp [writeCtrl, hw, hb]

theorem writeCtrl_ignored {w : Word} {s : State} (hw : w[0] = true) (hb : s.busy = true) :
    writeCtrl w s = setIgn { s with ie := w[1] } := by
  simp [writeCtrl, hw, hb]

/-- Settles O24: an accepted START is `accept`, which says what it latches and clears and leaves the rest. -/
theorem acceptedStart : Obligations.AcceptedStart := by
  intro s t w hb hw ht
  obtain rfl : t = accept { s with ie := w[1] } := ht.trans (writeCtrl_start hw hb)
  exact ⟨rfl, rfl, rfl, rfl, rfl, rfl, rfl, rfl, fun _ => rfl, rfl, rfl, rfl, rfl, rfl, rfl, rfl, rfl⟩

/-- Settles O25, by the three cases of a CTRL write. -/
theorem controlWrites : Obligations.ControlWrites := by
  intro s w
  refine ⟨writeCtrl_enable, writeCtrl_start, writeCtrl_ignored, ?_⟩
  rw [regRead_ctrl]
  cases s.ie <;> rfl

/-- Settles O26: while Idle both writes store their value, and a read returns it. -/
theorem commandAndLengthWrites : Obligations.CommandAndLengthWrites := by
  intro s w hb
  have hcmd : hostTxn (.wr32 .reg 0x08#32 w) s = { s with op := BitVec.ofNat 3 w.toNat } := by
    show writeCmd w s = _
    simp [writeCmd, hb, opField_eq]
  have hlen : hostTxn (.wr32 .reg 0x10#32 w) s = { s with inLen := w } := by
    show writeInLen w s = _
    simp [writeInLen, hb]
  refine ⟨hcmd, ?_, hlen, ?_⟩
  · rw [hcmd, regRead_cmd, BitVec.toNat_ofNat]
  · rw [hlen]; rfl

/-- Settles O27: a STATUS write is `clearStatus`. -/
theorem statusWriteClearsDoneAndIgn : Obligations.StatusWriteClearsDoneAndIgn := by
  intro s w
  show clearStatus w s = _
  cases hd : w[1] <;> cases hi : w[2] <;> simp [clearStatus, hd, hi]

theorem regWrite_readOnly {off : Word} (h : off ∉ [0x04#32, 0x08#32, 0x0C#32, 0x10#32]) (w : Word) (s : State) :
    regWrite off.toNat w s = s := by
  have hcases := regWrite_cases off w s
  simp only [List.mem_cons, List.not_mem_nil, not_or] at h
  simpa [h] using hcases

theorem hostTxn_noEffect {t : Txn} (h : NoEffect t) (s : State) : hostTxn t s = s := by
  cases t with
  | rd8 => exact h.elim
  | rd32 => exact h.elim
  | wr8 r =>
    cases r with
    | inp => exact h.elim
    | reg | out | reserved => rfl
  | wr32 r off w =>
    cases r with
    | inp => exact h.elim
    | out | reserved => rfl
    | reg =>
      show (if aligned off then regWrite off.toNat w s else s) = s
      rw [regWrite_readOnly h, ite_self]

theorem writeLane_beyond {i : Nat} {s : State} (h : s.cfg.inCap ≤ i) (b : Byte) : writeLane i b s = s := by
  simp [writeLane, Nat.not_lt.2 h]

/-- Settles O29: `NoEffect` writes have none in any state; an IN write has none beyond IN_CAP or misaligned, while Idle. -/
theorem writesWithoutEffect : Obligations.WritesWithoutEffect := by
  intro s
  refine ⟨fun t h => hostTxn_noEffect h s, fun hb off d hoff => ?_, fun hb off w ha => ?_⟩
  · show writeIn8 off d s = s
    simp [writeIn8, hb, writeLane_beyond hoff]
  · show writeIn32 off w s = s
    simp [writeIn32, hb, aligned_iff, ha]

end Sys2Proof.Machine
end

section
/-! One access path to IN_BUF and OUT_BUF, and the order of what a host sees on it (R60, R63 to R69, R73, R75, R103, R211, R218,
R242). A buffer region is read lane by lane (`ReadsByLane`), a word of IN_BUF is written lane by lane (`LanesWritten`). -/

namespace Sys2Proof.Machine

/-! ### The order of events and the outcome they keep -/

/-- An Idle engine takes no step at its turn (R218). -/
theorem engineTurn_idle {s : State} (hb : s.busy = false) : engineTurn s = .next s := by
  simp [engineTurn, hb]

/-- Settles O9: by the head of the schedule, which the step takes off. -/
theorem stepTakesTheScheduledEvent : Obligations.StepTakesTheScheduledEvent := by
  intro s rest hwf
  refine ⟨fun t hs => ?_, fun hs => ?_, fun hs => ?_, fun hb hs => ?_, fun hb hs => ?_⟩
  · simp [step, hwf, hs]
  · simp [step, hwf, hs]
  · simp [step, hwf, hs]
  · have hturn : engineTurn { s with sched := rest } = .next { s with sched := rest } := engineTurn_idle hb
    simp [step, hwf, hs, hturn]
  · simp [step, hwf, hs, engineTurn_idle hb]

/-- Settles O18: while the engine is Idle, of the effects a step can have only an accepted START and the reset event touch the
outcome. -/
theorem outcomeKeptUntilNextStart : Obligations.OutcomeKeptUntilNextStart := by
  intro s t hb hstart hreset hstep
  obtain ⟨-, heffect⟩ := step_effect hstep
  cases heffect with
  | host tx rest hs _ hu =>
    cases hu with
    | start w htx hw =>
      have hnext : s.nextEvent = .host (.wr32 .reg 0x04#32 w) := by simp [State.nextEvent, hs, htx]
      exact absurd ⟨hb, w, hnext, hw⟩ hstart
    | ignoredStart _ _ _ hbusy | ignored _ hbusy => exact absurd (hb.symm.trans hbusy) (by decide)
    | read | enable | command | length | status | input | nothing => exact ⟨hb, rfl, rfl, rfl, rfl⟩
  | reset rest hs => exact absurd (by simp [Resets, State.nextEvent, hs]) hreset
  | work rest =>
    rw [workStep_idle (s := { s with sched := rest }) hb]
    exact ⟨hb, rfl, rfl, rfl, rfl⟩
  | idle => exact ⟨hb, rfl, rfl, rfl, rfl⟩
  | complete hbusy => exact absurd (hb.symm.trans hbusy) (by decide)

/-! ### Host reads -/

/-- Settles O30: a read records its value, and the port changes the count of draws alone. -/
theorem readsHaveNoSideEffects : Obligations.ReadsHaveNoSideEffects := by
  intro s r off
  obtain ⟨n, hn, hbyte⟩ := hostRead8_frame r off s
  obtain ⟨m, hm, hword⟩ := hostRead32_frame r off s
  exact ⟨⟨n, by rw [hostTxn, hbyte]; rfl, hn⟩, ⟨m, by rw [hostTxn, hword]; rfl, hm⟩⟩

/-- Four lanes that draw nothing are their bytes, packed (R64). -/
theorem readLanes_still {lane : Nat → State → Byte × State} {a : Nat} {s : State} {b0 b1 b2 b3 : Byte}
    (h0 : lane a s = (b0, s)) (h1 : lane (a + 1) s = (b1, s)) (h2 : lane (a + 2) s = (b2, s)) (h3 : lane (a + 3) s = (b3, s)) :
    readLanes lane a s = (packWord b0 b1 b2 b3, s) := by
  simp only [readLanes, h0, h1, h2, h3]

/-- Reads of a region go by a lane: one for an 8-bit read, four for an aligned 32-bit read (R63, R64). -/
structure ReadsByLane (r : Region) (lane : Nat → State → Byte × State) : Prop where
  byte : ∀ off s, hostRead8 r off s = lane off.toNat s
  word : ∀ off s, off.toNat % 4 = 0 → hostRead32 r off s = readLanes lane off.toNat s

theorem inp_readsByLane : ReadsByLane .inp inLane where
  byte _ _ := rfl
  word off _ h := if_pos ((aligned_iff off).2 h)

theorem out_readsByLane : ReadsByLane .out outLane where
  byte _ _ := rfl
  word off _ h := if_pos ((aligned_iff off).2 h)

namespace ReadsByLane

variable {r : Region} {lane : Nat → State → Byte × State} {off : Word} {s : State}

/-- An aligned word is four 8-bit reads, since no lane of it wraps round the offset (R64). -/
theorem hostRead32_fourReads (h : ReadsByLane r lane) (ha : off.toNat % 4 = 0) : hostRead32 r off s = fourReads r off s := by
  have h1 : (off + 1#32).toNat = off.toNat + 1 := laneOffset ha (by decide)
  have h2 : (off + 2#32).toNat = off.toNat + 2 := laneOffset ha (by decide)
  have h3 : (off + 3#32).toNat = off.toNat + 3 := laneOffset ha (by decide)
  simp only [h.word off s ha, readLanes, packWord_eq, fourReads, h.byte, h1, h2, h3]

/-- An aligned word whose lanes draw nothing is their bytes as a number, the first the least significant (R64). -/
theorem hostRead32_still {b0 b1 b2 b3 : Byte} (h : ReadsByLane r lane) (ha : off.toNat % 4 = 0)
    (h0 : lane off.toNat s = (b0, s)) (h1 : lane (off.toNat + 1) s = (b1, s)) (h2 : lane (off.toNat + 2) s = (b2, s))
    (h3 : lane (off.toNat + 3) s = (b3, s)) :
    hostRead32 r off s =
      (BitVec.ofNat 32 (b0.toNat + 256 * b1.toNat + 65536 * b2.toNat + 16777216 * b3.toNat), s) := by
  rw [h.word off s ha, readLanes_still h0 h1 h2 h3, packWord_eq]

/-- Where every lane from the offset on reads 0, so does the word, aligned or not (R65, R66). -/
theorem hostRead32_zero (h : ReadsByLane r lane) (hz : ∀ i, off.toNat ≤ i → lane i s = (0#8, s)) :
    hostRead32 r off s = (0#32, s) := by
  by_cases ha : off.toNat % 4 = 0
  · exact h.hostRead32_still ha (hz _ (by omega)) (hz _ (by omega)) (hz _ (by omega)) (hz _ (by omega))
  · exact hostRead32_misaligned ha r s

end ReadsByLane

/-! ### One lane of IN_BUF and of OUT_BUF -/

section Lanes

variable {i : Nat} {b : Byte} {s : State}

theorem inLane_written (hi : i < s.cfg.inCap) (h : Memory.lookup s.inBuf i = some b) : inLane i s = (b, s) := by
  rw [inLane, if_pos hi, inRead_written h]

theorem inLane_unwritten (hi : i < s.cfg.inCap) (h : Memory.lookup s.inBuf i = none) : inLane i s = drawByte s := by
  rw [inLane, if_pos hi, inRead_unwritten h]

theorem inLane_beyond (hi : s.cfg.inCap ≤ i) : inLane i s = (0#8, s) := if_neg (Nat.not_lt.2 hi)

theorem outLane_result (hb : s.busy = false) (hi : i < s.cfg.outCap) (h : Memory.lookup s.outBuf i = some b) :
    outLane i s = (b, s) := by
  simp [outLane, hi, hb, h]

theorem outLane_unspecified (hi : i < s.cfg.outCap) (h : s.busy = true ∨ Memory.lookup s.outBuf i = none) :
    outLane i s = drawByte s := by
  rcases h with hb | h
  · simp [outLane, hi, hb]
  · simp [outLane, hi, h]

theorem outLane_beyond (hi : s.cfg.outCap ≤ i) : outLane i s = (0#8, s) := if_neg (Nat.not_lt.2 hi)

end Lanes

/-- Settles O32: IN reads go by `inLane`, which is the written byte, a drawn byte, or 0 beyond IN_CAP. -/
theorem inputBufferReads : Obligations.InputBufferReads := by
  intro s off
  refine ⟨fun b => inLane_written, inLane_unwritten, inLane_beyond, inp_readsByLane.hostRead32_fourReads, ?_, fun hcap => ?_,
    fun ha => hostRead32_misaligned ha .inp s⟩
  · intro b0 b1 b2 b3 ha hcap h0 h1 h2 h3
    exact inp_readsByLane.hostRead32_still ha (inLane_written (by omega) h0) (inLane_written (by omega) h1)
      (inLane_written (by omega) h2) (inLane_written hcap h3)
  · exact inp_readsByLane.hostRead32_zero fun i hi => inLane_beyond (hcap.trans hi)

/-- Settles O33: OUT reads go by `outLane`, which is the result byte of an Idle engine, a drawn byte, or 0 beyond OUT_CAP. -/
theorem outputBufferReads : Obligations.OutputBufferReads := by
  intro s off
  refine ⟨fun b => outLane_result, outLane_unspecified, outLane_beyond, out_readsByLane.hostRead32_fourReads, ?_, fun hcap => ?_,
    fun ha => hostRead32_misaligned ha .out s⟩
  · intro b0 b1 b2 b3 hb ha hcap h0 h1 h2 h3
    exact out_readsByLane.hostRead32_still ha (outLane_result hb (by omega) h0) (outLane_result hb (by omega) h1)
      (outLane_result hb (by omega) h2) (outLane_result hb hcap h3)
  · exact out_readsByLane.hostRead32_zero fun i hi => outLane_beyond (hcap.trans hi)

/-! ### Writes of IN_BUF -/

/-- m is IN_BUF of s with the first n lanes of the word w written from index a on, each below IN_CAP (R64, R66). -/
def LanesWritten (s : State) (a : Nat) (w : Word) (n : Nat) (m : Memory) : Prop :=
  ∀ i, Memory.lookup m i =
    if a ≤ i ∧ i < a + n ∧ i < s.cfg.inCap then some (BitVec.ofNat 8 (w.toNat / 2 ^ (8 * (i - a))))
    else Memory.lookup s.inBuf i

theorem lanesWritten_zero (s : State) (a : Nat) (w : Word) : LanesWritten s a w 0 s.inBuf :=
  fun i => (if_neg (by omega)).symm

/-- Writing the next lane of the word. -/
theorem LanesWritten.succ {s : State} {a : Nat} {w : Word} {n : Nat} {m : Memory} (h : LanesWritten s a w n m) :
    ∃ m', writeLane (a + n) (w.extractLsb' (8 * n) 8) { s with inBuf := m } = { s with inBuf := m' } ∧
      LanesWritten s a w (n + 1) m' := by
  obtain ⟨m', hwrite, -, hlookup⟩ := writeLane_eq (a + n) (w.extractLsb' (8 * n) 8) { s with inBuf := m }
  refine ⟨m', hwrite, fun i => ?_⟩
  rw [hlookup, h i]
  by_cases hi : i = a + n
  · subst hi
    simp [lane_eq]
  · have hlanes : (a ≤ i ∧ i < a + (n + 1) ∧ i < s.cfg.inCap) ↔ (a ≤ i ∧ i < a + n ∧ i < s.cfg.inCap) := by omega
    simp [hi, hlanes]

/-- While Idle, an aligned word is written as its four lanes (R64). -/
theorem writeIn32_lanes {s : State} {off : Word} (hb : s.busy = false) (ha : off.toNat % 4 = 0) (w : Word) :
    ∃ m, writeIn32 off w s = { s with inBuf := m } ∧ LanesWritten s off.toNat w 4 m := by
  obtain ⟨m0, e0, h0⟩ := (lanesWritten_zero s off.toNat w).succ
  obtain ⟨m1, e1, h1⟩ := h0.succ
  obtain ⟨m2, e2, h2⟩ := h1.succ
  obtain ⟨m3, e3, h3⟩ := h2.succ
  refine ⟨m3, ?_, h3⟩
  rw [← e3, ← e2, ← e1, ← e0]
  simp [writeIn32, hb, (aligned_iff off).2 ha]

/-- Settles O31: a byte write is one lane, an aligned word write four. -/
theorem inputBufferWrites : Obligations.InputBufferWrites := by
  intro s off hb
  refine ⟨fun d hcap => ?_, fun w ha => writeIn32_lanes hb ha w⟩
  obtain ⟨m, hwrite, -, hlookup⟩ := writeLane_eq off.toNat d s
  refine ⟨m, ?_, fun i => by rw [hlookup]; simp [hcap]⟩
  show writeIn8 off d s = _
  simp [writeIn8, hb, hwrite]

end Sys2Proof.Machine
end

section
/-! The encodings (R90, R91, R96, R104): the command word, the tag byte and the transaction record, each with what decodes it. A
record is taken as a number, as R104 lays it out, and taken apart again by its fields. -/

namespace Sys2Proof

/-! ### The transaction record -/

theorem toNat_encodeRegion (r : Region) : (encodeRegion r).toNat = r.number := by cases r <;> rfl

theorem toNat_recordDigit (write : Bool) (r : Region) (w32 : Bool) :
    (recordDigit write r w32).toNat = 8 * write.toNat + 2 * (encodeRegion r).toNat + w32.toNat := by
  cases write <;> cases r <;> cases w32 <;> decide

/-- R104 as a number: the digit h, the offset and the data do not overlap. -/
theorem toNat_packRecord (write : Bool) (r : Region) (w32 : Bool) (off data : Word) :
    (packRecord write r w32 off data).toNat =
      (8 * write.toNat + 2 * (encodeRegion r).toNat + w32.toNat) * 2 ^ 64 + off.toNat * 2 ^ 32 + data.toNat := by
  have hdigit := (recordDigit write r w32).isLt
  have hoffData : off.toNat <<< 32 + data.toNat < 2 ^ 64 := by
    have := off.isLt
    have := data.isLt
    rw [Nat.shiftLeft_eq]; omega
  have hor : (packRecord write r w32 off data).toNat =
      ((recordDigit write r w32).toNat <<< 64 ||| off.toNat <<< 32) ||| data.toNat := by
    simp only [packRecord, BitVec.toNat_or, BitVec.toNat_shiftLeft, BitVec.toNat_setWidth]
    rw [Nat.mod_eq_of_lt (a := (recordDigit write r w32).toNat) (by omega), Nat.mod_eq_of_lt (a := off.toNat) (by omega),
      Nat.mod_eq_of_lt (a := data.toNat) (by omega), Nat.mod_eq_of_lt (a := off.toNat <<< 32) (by omega),
      Nat.mod_eq_of_lt (by rw [Nat.shiftLeft_eq]; omega)]
  rw [hor, Nat.or_assoc, ← Nat.shiftLeft_add_eq_or_of_lt data.isLt, ← Nat.shiftLeft_add_eq_or_of_lt hoffData,
    toNat_recordDigit, Nat.shiftLeft_eq, Nat.shiftLeft_eq, ← Nat.add_assoc]

/-- A bit of a record as a number. -/
theorem toNat_bit (w : BitVec 72) (k : Nat) (hk : k < 72) : w[k].toNat = w.toNat / 2 ^ k % 2 := by
  rw [BitVec.getElem_eq_testBit_toNat, Nat.toNat_testBit]

theorem toNat_field (w : BitVec 72) (k n : Nat) : (w.extractLsb' k n).toNat = w.toNat / 2 ^ k % 2 ^ n := by
  rw [BitVec.extractLsb'_toNat, Nat.shiftRight_eq_div_pow]

/-- A record with no padding bit set is its fields, packed again (R104). -/
theorem packRecord_of_fields {w : BitVec 72} (hpad : w.extractLsb' 68 4 = 0#4) :
    packRecord w[67] (decodeRegion (w.extractLsb' 65 2)) w[64] (w.extractLsb' 32 32) (w.extractLsb' 0 32) = w := by
  apply BitVec.eq_of_toNat_eq
  have hpad := congrArg BitVec.toNat hpad
  have hw := w.isLt
  rw [toNat_packRecord, encodeRegion_decodeRegion]
  simp only [toNat_bit, toNat_field, BitVec.toNat_ofNat] at hpad ⊢
  omega

/-- What the decoder answers on a packed record, by its two kind bits (R104). -/
theorem decodeRecord_packRecord (write : Bool) (r : Region) (w32 : Bool) (off data : Word) :
    decodeRecord (packRecord write r w32 off data) =
      if write then if w32 then .ok (.wr32 r off data) else .ok (.wr8 r off (data.extractLsb' 0 8))
      else if data ≠ 0#32 then .error .readWithData
      else if w32 then .ok (.rd32 r off) else .ok (.rd8 r off) := by
  obtain ⟨hdata, hoff, hw32, hwrite, hregion, hpad, hbyte, -⟩ := packRecord_fields write r w32 off data
  simp [decodeRecord, hdata, hoff, hw32, hwrite, hregion, hpad, hbyte]

/-- Which packed records are in the one spelling of their transaction (log 10). -/
theorem recordWf_packRecord (write : Bool) (r : Region) (w32 : Bool) (off data : Word) :
    recordWf (packRecord write r w32 off data) =
      if write then w32 || data.extractLsb' 8 24 == 0#24 else data == 0#32 := by
  obtain ⟨hdata, -, hw32, hwrite, -, hpad, -, hhigh⟩ := packRecord_fields write r w32 off data
  simp [recordWf, hdata, hw32, hwrite, hpad, hhigh]

theorem extractLsb'_setWidth_low (d : Byte) : (d.setWidth 32).extractLsb' 0 8 = d := by
  apply BitVec.eq_of_toNat_eq
  have := d.isLt
  rw [BitVec.extractLsb'_toNat, BitVec.toNat_setWidth]
  omega

theorem extractLsb'_setWidth_high (d : Byte) : (d.setWidth 32).extractLsb' 8 24 = 0#24 := by
  apply BitVec.eq_of_toNat_eq
  have := d.isLt
  rw [BitVec.extractLsb'_toNat, Nat.shiftRight_eq_div_pow, BitVec.toNat_setWidth, BitVec.toNat_ofNat]
  omega

/-- A word whose bits 31:8 are 0 is its low byte, widened. -/
theorem setWidth_low_of_high_zero {data : Word} (h : data.extractLsb' 8 24 = 0#24) :
    (data.extractLsb' 0 8).setWidth 32 = data := by
  apply BitVec.eq_of_toNat_eq
  have h := congrArg BitVec.toNat h
  have := data.isLt
  simp only [BitVec.extractLsb'_toNat, Nat.shiftRight_eq_div_pow, BitVec.toNat_setWidth, BitVec.toNat_ofNat] at h ⊢
  omega

/-- Settles O5: each transaction's record is packed with the fields its form of the decoder reads. -/
theorem transactionRecordRoundTrip : Obligations.TransactionRecordRoundTrip := by
  intro t
  cases t with
  | rd8 r off | rd32 r off => exact ⟨recordWf_packRecord .., decodeRecord_packRecord ..⟩
  | wr8 r off d =>
    refine ⟨(recordWf_packRecord ..).trans ?_, (decodeRecord_packRecord ..).trans ?_⟩
    · simp [extractLsb'_setWidth_high]
    · simp [extractLsb'_setWidth_low]
  | wr32 r off d => exact ⟨recordWf_packRecord .., decodeRecord_packRecord ..⟩

/-- Settles O6: a well-formed record is its fields, packed, and each of the four forms of fields is a transaction's. -/
theorem recordDecodingLosesNothing : Obligations.RecordDecodingLosesNothing := by
  intro w hwf
  have hpad : w.extractLsb' 68 4 = 0#4 := by
    simp only [recordWf, Bool.and_eq_true, beq_iff_eq] at hwf
    exact hwf.1
  rw [← packRecord_of_fields hpad] at hwf ⊢
  generalize w[67] = write, decodeRegion (w.extractLsb' 65 2) = r, w[64] = w32, w.extractLsb' 32 32 = off,
    w.extractLsb' 0 32 = data at hwf ⊢
  rw [recordWf_packRecord] at hwf
  rw [decodeRecord_packRecord]
  cases write with
  | false =>
    obtain rfl : data = 0#32 := by simpa using hwf
    cases w32 with
    | false => exact ⟨.rd8 r off, rfl, rfl⟩
    | true => exact ⟨.rd32 r off, rfl, rfl⟩
  | true =>
    cases w32 with
    | false =>
      have hhigh : data.extractLsb' 8 24 = 0#24 := by simpa using hwf
      exact ⟨.wr8 r off (data.extractLsb' 0 8), rfl, by rw [encodeRecord, setWidth_low_of_high_zero hhigh]⟩
    | true => exact ⟨.wr32 r off data, rfl, rfl⟩

/-- Settles O7: the layout is `toNat_packRecord`; the examples evaluate. -/
theorem recordLayout : Obligations.RecordLayout := by
  refine ⟨fun r off => ⟨?_, ?_, fun d => ?_, fun d => ?_⟩, ?_, ?_, ?_, ?_, ?_⟩
  · simp [encodeRecord, toNat_packRecord, toNat_encodeRegion]
  · simp [encodeRecord, toNat_packRecord, toNat_encodeRegion]
  · have hd : (d.setWidth 32).toNat = d.toNat := BitVec.toNat_setWidth_of_le (by decide)
    simp [encodeRecord, toNat_packRecord, toNat_encodeRegion, hd]
  · simp [encodeRecord, toNat_packRecord, toNat_encodeRegion]
  all_goals decide

/-! ### The command word and the tag -/

/-- Four bytes decode as the word they are the lanes of (R64, R90). -/
theorem decode_wordBytes (w : Word) (rest : List Byte) : decode .cmd (wordBytes w ++ rest) = .ok (decodeCmd w, rest) := by
  simp [wordBytes, decode, packWord_wordBytes]

theorem decode_tag {t : Byte} {i : Instr} (h : decodeTag t = .ok i) (rest : List Byte) :
    decode .adaptiveTag ([t] ++ rest) = .ok (i, rest) := by
  simp [decode, h, Except.map]

/-- Settles O1: a command is the lanes of its word, a tag its byte. -/
theorem encodedInstructionDecodesBack : Obligations.EncodedInstructionDecodesBack := by
  intro i rest
  cases i with
  | reservedOp0 | rleEnc | rleDec | adpComp | adpDec | reservedOp5 | reservedOp6 | reservedOp7 => exact decode_wordBytes _ rest
  | tagR | tagI => exact decode_tag rfl rest

/-- Settles O2, by evaluation of the ten rows. -/
theorem tableWordsDecode : Obligations.TableWordsDecode := by
  unfold Obligations.TableWordsDecode
  decide

/-- The table of R91 lists the instructions by OP. -/
theorem decodeOp_eq_table (op : BitVec 3) : some (decodeOp op) =
    [Instr.reservedOp0, .rleEnc, .rleDec, .adpComp, .adpDec, .reservedOp5, .reservedOp6, .reservedOp7][op.toNat]? := by
  revert op; decide

/-- Settles O3: OP is the word modulo 8, and the table lists the eight values of OP. -/
theorem commandWordSelectsByLowBits : Obligations.CommandWordSelectsByLowBits := by
  intro w
  rw [decodeCmd, decodeOp_eq_table, opField_eq, BitVec.toNat_ofNat]

/-- Settles O4, by the two tests of `decodeTag`. -/
theorem adaptiveTagDecodesExactly : Obligations.AdaptiveTagDecodesExactly :=
  ⟨rfl, rfl, fun _ hR hI => (if_neg hR).trans (if_neg hI)⟩

end Sys2Proof
end

section
/-! A command's input and its result (R93 to R96, R99, R101): what is read, which payloads and streams decode, and the dispatch
function of R94 against the arms. -/

namespace Sys2Proof.Machine

/-! ### The input -/

/-- Byte j of a range is one read of IN_BUF, in a state that differs in draws alone, and what it draws the range has drawn (R71). -/
theorem readRange_getElem? {j k : Nat} (hj : j < k) (i : Nat) (s : State) :
    ∃ d, s.draws ≤ d ∧ (readRange i k s).1[j]? = some (inRead (i + j) { s with draws := d }).1 ∧
      (inRead (i + j) { s with draws := d }).2.draws ≤ (readRange i k s).2.draws := by
  induction k generalizing i j s with
  | zero => omega
  | succ k ih =>
    cases j with
    | zero =>
      obtain ⟨-, n, hn⟩ := readRange_frame (i + 1) k (inRead i s).2
      refine ⟨s.draws, le_rfl, rfl, ?_⟩
      show (inRead i s).2.draws ≤ (readRange (i + 1) k (inRead i s).2).2.draws
      rw [hn]
      exact Nat.le_add_right _ n
    | succ j =>
      obtain ⟨n, -, hn⟩ := inRead_frame i s
      obtain ⟨d, hd, hbyte, hdraws⟩ := ih (Nat.lt_of_succ_lt_succ hj) (i + 1) (inRead i s).2
      rw [show i + (j + 1) = i + 1 + j by omega]
      rw [hn] at hd hbyte hdraws
      refine ⟨d, by simp at hd; omega, ?_, ?_⟩
      · simpa [readRange, hn] using hbyte
      · simpa [readRange, hn] using hdraws

/-- Settles O47: each byte of the input is one read, which returns the written byte or draws one. -/
theorem commandInputIsTheBuffer : Obligations.CommandInputIsTheBuffer := by
  intro s
  refine ⟨commandInput_length s, fun i b hi hb => ?_, fun i hi hnone => ?_, fun x hx hin => commandInput_written hx hin⟩
  · obtain ⟨d, -, hbyte, -⟩ := readRange_getElem? hi 0 s
    rw [Nat.zero_add, inRead_written (s := { s with draws := d }) hb] at hbyte
    exact hbyte
  · obtain ⟨d, hd, hbyte, hdraws⟩ := readRange_getElem? hi 0 s
    rw [Nat.zero_add, inRead_unwritten (s := { s with draws := d }) hnone] at hbyte hdraws
    exact ⟨d, hd, hdraws, hbyte⟩

/-! ### Payloads and streams -/

/-- A payload decodes exactly when it is valid, wherever it starts (R98, R126). -/
theorem rleDecodeCheck_ok_iff (p : List Byte) (base : Nat) : (∃ y, rleDecodeCheck p base = .ok y) ↔ payloadWf p = true := by
  rw [payloadWf_iff]
  rcases rleDecodeCheck_cases p base with ⟨k, hk, h⟩ | ⟨-, hodd, h⟩ | ⟨hn, heven, h⟩
  · simp [h, hk.not_noZeroCount]
  · simp [h, hodd]
  · simp [h, hn, heven]

section Tags

variable (payload : List Byte)

theorem adpDecompressCheck_tagR : adpDecompressCheck (tagByteR :: payload) = rleDecodeCheck payload 1 := rfl

theorem adpDecompressCheck_tagI : adpDecompressCheck (tagByteI :: payload) = .ok payload := rfl

theorem adpDecompressCheck_unknown {t : Byte} (hR : t ≠ tagByteR) (hI : t ≠ tagByteI) :
    adpDecompressCheck (t :: payload) = .err .unknownFormat 0#32 := (if_neg hR).trans (if_neg hI)

end Tags

/-- Settles O57, by the tag of the stream. -/
theorem decoderAcceptsTheGrammar : Obligations.DecoderAcceptsTheGrammar := by
  intro z
  cases z with
  | nil => exact iff_of_true rfl ⟨[], rfl⟩
  | cons t payload =>
    have hwf : adaptiveWf (t :: payload) = ((t == tagByteR && payloadWf payload) || t == tagByteI) := rfl
    by_cases hR : t = tagByteR
    · subst hR
      rw [adpDecompressCheck_tagR, rleDecodeCheck_ok_iff, hwf]
      simp [tagByteR, tagByteI]
    · by_cases hI : t = tagByteI
      · subst hI
        exact iff_of_true (by simp [hwf]) ⟨payload, adpDecompressCheck_tagI payload⟩
      · simp [hwf, hR, hI, adpDecompressCheck_unknown payload hR hI]

/-! ### Completion with the result of a decoder or of an output that fits -/

/-- The capacity test lets an output through exactly where OUT_BUF holds it (R94, R205). -/
theorem capacityTest_fits {p : Params} {y : List Byte} (h : y.length ≤ p.outCap) : capacityTest p (.ok y) = .ok y :=
  if_neg (Nat.not_lt.2 h)

theorem capacityTest_exceeds {p : Params} {y : List Byte} (h : p.outCap < y.length) :
    capacityTest p (.ok y) = .err .outCapacity 0#32 := if_pos h

theorem complete_cfg (r : Result) (s : State) : (complete r s).cfg = s.cfg := by cases r <;> rfl

/-- Completing with an output that fits is a success with it. -/
theorem complete_fits_succeeded {p : Params} {y : List Byte} (hwf : p.wf = true) (h : y.length ≤ p.outCap) (s : State) :
    Succeeded (complete (capacityTest p (.ok y)) s) y := by
  obtain ⟨-, -, hcap, -⟩ := (wf_iff _).1 hwf
  rw [capacityTest_fits h]
  exact complete_ok_succeeded (by omega)

/-- Completing with a decoder's result, after the capacity test, is one of the four ends of R126 and R128. -/
theorem complete_decodesTo {p : List Byte} {base : Nat} {s : State} (hwf : s.cfg.wf = true) (hlen : base + p.length < 2 ^ 32) :
    DecodesTo p base (complete (capacityTest s.cfg (rleDecodeCheck p base)) s) := by
  rcases rleDecodeCheck_cases p base with ⟨k, hk, h⟩ | ⟨hn, hodd, h⟩ | ⟨hn, heven, h⟩ <;> rw [h]
  · have hfail : Failed (recordError .malformedInput (BitVec.ofNat 32 (base + (2 * k + 1))) s) .malformedInput
        (base + (2 * k + 1)) := recordError_failed _ _ s (by have := hk.1; omega)
    exact
      { zeroCount := fun k' hk' => hk.unique hk' ▸ hfail
        oddLength := fun hn => absurd hn hk.not_noZeroCount
        capacity := fun hn => absurd hn hk.not_noZeroCount
        success := fun hn => absurd hn hk.not_noZeroCount }
  · exact
      { zeroCount := fun k hk => absurd hn hk.not_noZeroCount
        oddLength := fun _ _ => recordError_failed _ _ s (by omega)
        capacity := fun _ heven => by omega
        success := fun _ heven => by omega }
  · exact
      { zeroCount := fun k hk => absurd hn hk.not_noZeroCount
        oddLength := fun _ hodd => by omega
        capacity := fun _ _ hcap => by
          rw [complete_cfg, ← pairsExpanded_length] at hcap
          rw [capacityTest_exceeds hcap]
          exact recordError_failed _ 0 s (by decide)
        success := fun _ _ hcap => by
          rw [complete_cfg, ← pairsExpanded_length] at hcap
          exact complete_fits_succeeded hwf hcap s }

/-- A command on a legal length completes with the tested result of its input, after what the input drew. -/
theorem runCommand_completes {f : List Byte → Result} {s : State} (h : s.eng.nL.toNat ≤ s.cfg.inCap) :
    ∃ n, runCommand f s = complete (capacityTest s.cfg (f (commandInput s).1)) { s with draws := n } := by
  obtain ⟨n, hn⟩ := commandInput_frame s
  exact ⟨s.draws + n, by rw [runCommand_legal h, hn]⟩

/-- Settles O42: the payload is at most IN_CAP bytes, so its positions fit in 32 bits and its copy fits in OUT_BUF (R7). -/
theorem tagsSelectTheirPayload : Obligations.TagsSelectTheirPayload := by
  intro s hwf hlegal
  obtain ⟨-, hcaps, hbits, -⟩ := (wf_iff _).1 hwf
  have hlen : ((commandInput s).1.drop 1).length = s.eng.nL.toNat - 1 := by rw [List.length_drop, commandInput_length]
  constructor
  · obtain ⟨n, hrun⟩ := runCommand_completes (f := fun z => rleDecodeCheck (z.drop 1) 1) hlegal
    exact ⟨_, by rw [← hrun]; rfl, complete_decodesTo (s := { s with draws := n }) hwf (by omega), complete_frame _ s n⟩
  · obtain ⟨n, hrun⟩ := runCommand_completes (f := fun z => .ok (z.drop 1)) hlegal
    exact ⟨_, by rw [← hrun]; rfl, complete_fits_succeeded hwf (by omega) _, complete_frame _ s n⟩

/-! ### The dispatch function of R94 -/

/-- The pure function of each of the four commands (R94). -/
def commandFunction (op : BitVec 3) (x : List Byte) : Result :=
  if op = 1#3 then .ok (rleEncode x)
  else if op = 2#3 then rleDecodeCheck x 0
  else if op = 3#3 then .ok (adpCompress x)
  else adpDecompressCheck x

theorem command_op_cases {op : BitVec 3} (h : op ∈ [1#3, 2#3, 3#3, 4#3]) : op = 1#3 ∨ op = 2#3 ∨ op = 3#3 ∨ op = 4#3 := by
  simpa using h

theorem reserved_op_cases {op : BitVec 3} (h : op ∉ [1#3, 2#3, 3#3, 4#3]) : op = 0#3 ∨ op = 5#3 ∨ op = 6#3 ∨ op = 7#3 := by
  revert op; decide

section Dispatch

variable {op : BitVec 3} {p : Params} {n : Nat} {x : List Byte} {s : State}

theorem execResult_reserved (hop : op ∉ [1#3, 2#3, 3#3, 4#3]) : execResult p op n x = .err .badCommand 0#32 := if_pos hop

theorem execResult_lengthError (hop : op ∈ [1#3, 2#3, 3#3, 4#3]) (hn : p.inCap < n) :
    execResult p op n x = .err .lengthError 0#32 := (if_neg (not_not.2 hop)).trans (if_pos hn)

theorem execResult_legal (hop : op ∈ [1#3, 2#3, 3#3, 4#3]) (hn : n ≤ p.inCap) :
    execResult p op n x = capacityTest p (commandFunction op x) := (if_neg (not_not.2 hop)).trans (if_neg (Nat.not_lt.2 hn))

/-- The arm of a command runs its function. -/
theorem exec_command (hop : op ∈ [1#3, 2#3, 3#3, 4#3]) : exec (decodeOp op) s = .next (runCommand (commandFunction op) s) := by
  rcases command_op_cases hop with rfl | rfl | rfl | rfl <;> rfl

/-- The arm of every other OP value records BAD_COMMAND (R203). -/
theorem exec_reserved (hop : op ∉ [1#3, 2#3, 3#3, 4#3]) : exec (decodeOp op) s = .next (recordError .badCommand 0#32 s) := by
  rcases reserved_op_cases hop with rfl | rfl | rfl | rfl <;> rfl

end Dispatch

/-- At a command word the engine's turn is the arm of the latched OP. -/
theorem engineTurn_command {s : State} (hb : s.busy = true) (htag : atTag s = false) :
    engineTurn s = exec (decodeOp s.eng.opL) s := engineTurn_fetched hb (fetch_cmd htag)

/-- Settles O45, in the three cases of R94: a reserved OP, an illegal length, and a command run on its input. -/
theorem turnFollowsTheDispatchRule : Obligations.TurnFollowsTheDispatchRule := by
  intro s hb htag
  rw [engineTurn_command hb htag]
  by_cases hop : s.eng.opL ∈ [1#3, 2#3, 3#3, 4#3]
  · rw [exec_command hop]
    by_cases hlen : s.cfg.inCap < s.eng.nL.toNat
    · exact ⟨s.draws, fun _ => rfl, by rw [runCommand_lengthError hlen, execResult_lengthError hop hlen]; rfl⟩
    · obtain ⟨n, hrun⟩ := runCommand_completes (f := commandFunction s.eng.opL) (Nat.not_lt.1 hlen)
      refine ⟨n, fun h => ?_, by rw [hrun, execResult_legal hop (Nat.not_lt.1 hlen)]⟩
      rcases h with h | h
      · exact absurd hop h
      · exact absurd h hlen
  · exact ⟨s.draws, fun _ => rfl, by rw [exec_reserved hop, execResult_reserved hop]; rfl⟩

end Sys2Proof.Machine
end

section
/-! The host's pseudo-instructions LOADIN and READOUT (R105): the buffer writes of the one and the buffer reads of the other, by
induction over the bytes. -/

namespace Sys2Proof.Machine

@[simp] theorem hostTxns_nil (s : State) : hostTxns [] s = s := rfl

@[simp] theorem hostTxns_cons (t : Txn) (ts : List Txn) (s : State) : hostTxns (t :: ts) s = hostTxns ts (hostTxn t s) := rfl

theorem hostTxns_append (ts us : List Txn) (s : State) : hostTxns (ts ++ us) s = hostTxns us (hostTxns ts s) :=
  List.foldl_append

/-! ### LOADIN -/

/-- m is the buffer m₀ with the bytes bs written from index a on. -/
def BytesWritten (m₀ : Memory) (a : Nat) (bs : List Byte) (m : Memory) : Prop :=
  ∀ i, Memory.lookup m i = if a ≤ i ∧ i < a + bs.length then bs[i - a]? else Memory.lookup m₀ i

theorem bytesWritten_nil (m : Memory) (a : Nat) : BytesWritten m a [] m := fun i => by
  rw [if_neg (by simp)]

theorem BytesWritten.append {m₀ m m' : Memory} {a : Nat} {bs cs : List Byte} (h : BytesWritten m₀ a bs m)
    (h' : BytesWritten m (a + bs.length) cs m') : BytesWritten m₀ a (bs ++ cs) m' := by
  intro i
  rw [h', h, List.length_append]
  by_cases hc : a + bs.length ≤ i ∧ i < a + bs.length + cs.length
  · rw [if_pos hc, if_pos (by omega), List.getElem?_append_right (by omega), Nat.sub_sub]
  · rw [if_neg hc]
    by_cases hb : a ≤ i ∧ i < a + bs.length
    · rw [if_pos hb, if_pos (by omega), List.getElem?_append_left (by omega)]
    · rw [if_neg hb, if_neg (by omega)]

/-- Lane k of four packed bytes is byte k (R64). -/
theorem packWord_lane (b0 b1 b2 b3 : Byte) {k : Nat} (hk : k < 4) :
    some (BitVec.ofNat 8 ((packWord b0 b1 b2 b3).toNat / 2 ^ (8 * k))) = [b0, b1, b2, b3][k]? := by
  have h0 := b0.isLt
  have h1 := b1.isLt
  have h2 := b2.isLt
  have h3 := b3.isLt
  have hnum : (packWord b0 b1 b2 b3).toNat = b0.toNat + 256 * b1.toNat + 65536 * b2.toNat + 16777216 * b3.toNat := by
    rw [packWord_eq, BitVec.toNat_ofNat]; omega
  have hlane : ∀ (b : Byte) (n : Nat), n % 256 = b.toNat → BitVec.ofNat 8 n = b := fun b n h =>
    BitVec.eq_of_toNat_eq (by rw [BitVec.toNat_ofNat]; exact h)
  rw [hnum]
  match k, hk with
  | 0, _ => exact congrArg some (hlane b0 _ (by omega))
  | 1, _ => exact congrArg some (hlane b1 _ (by omega))
  | 2, _ => exact congrArg some (hlane b2 _ (by omega))
  | 3, _ => exact congrArg some (hlane b3 _ (by omega))

section Writes

variable {s : State} {a : Nat}

/-- While Idle, a byte write below IN_CAP writes its byte (R63). -/
theorem hostTxn_wr8_inp (hb : s.busy = false) (ha : a < s.cfg.inCap) (hoff : a < 2 ^ 32) (d : Byte) :
    ∃ m, hostTxn (.wr8 .inp (BitVec.ofNat 32 a) d) s = { s with inBuf := m } ∧ BytesWritten s.inBuf a [d] m := by
  have hnat : (BitVec.ofNat 32 a).toNat = a := by rw [BitVec.toNat_ofNat, Nat.mod_eq_of_lt hoff]
  obtain ⟨m, hwrite, hlookup⟩ := (inputBufferWrites s (BitVec.ofNat 32 a) hb).1 d (by rwa [hnat])
  refine ⟨m, hwrite, fun i => ?_⟩
  rw [hlookup, hnat]
  by_cases hi : i = a
  · subst hi
    simp
  · rw [if_neg hi, if_neg (by simp; omega)]

/-- While Idle, an aligned word write below IN_CAP writes its four bytes (R64). -/
theorem hostTxn_wr32_inp (hb : s.busy = false) (hal : a % 4 = 0) (ha : a + 4 ≤ s.cfg.inCap) (hoff : a < 2 ^ 32)
    (b0 b1 b2 b3 : Byte) :
    ∃ m, hostTxn (.wr32 .inp (BitVec.ofNat 32 a) (packWord b0 b1 b2 b3)) s = { s with inBuf := m } ∧
      BytesWritten s.inBuf a [b0, b1, b2, b3] m := by
  have hnat : (BitVec.ofNat 32 a).toNat = a := by rw [BitVec.toNat_ofNat, Nat.mod_eq_of_lt hoff]
  obtain ⟨m, hwrite, hlanes⟩ := writeIn32_lanes hb (by rwa [hnat]) (packWord b0 b1 b2 b3)
  refine ⟨m, hwrite, fun i => ?_⟩
  rw [hlanes i, hnat]
  by_cases hi : a ≤ i ∧ i < a + 4
  · rw [if_pos ⟨hi.1, hi.2, by omega⟩, packWord_lane b0 b1 b2 b3 (by omega), if_pos (by simpa using hi)]
  · rw [if_neg (by omega), if_neg (by simpa using hi)]

end Writes

/-- The byte writes of LOADIN write their bytes. -/
theorem hostTxns_loadBytes (bs : List Byte) : ∀ (a : Nat) (s : State), s.busy = false → s.cfg.inCap ≤ 2 ^ 32 →
    a + bs.length ≤ s.cfg.inCap →
    ∃ m, hostTxns (loadBytes a bs) s = { s with inBuf := m } ∧ BytesWritten s.inBuf a bs m := by
  induction bs with
  | nil => exact fun a s _ _ _ => ⟨s.inBuf, rfl, bytesWritten_nil _ a⟩
  | cons b bs ih =>
    intro a s hb hcap hlen
    rw [List.length_cons] at hlen
    obtain ⟨m, hwrite, hm⟩ := hostTxn_wr8_inp hb (a := a) (by omega) (by omega) b
    obtain ⟨m', hrest, hm'⟩ := ih (a + 1) { s with inBuf := m } hb hcap (show a + 1 + bs.length ≤ s.cfg.inCap by omega)
    exact ⟨m', by rw [loadBytes, hostTxns_cons, hwrite, hrest], hm.append hm'⟩

/-- The buffer writes of LOADIN write their bytes, whole words first. -/
theorem hostTxns_loadData (a : Nat) (bs : List Byte) : ∀ s : State, s.busy = false → s.cfg.inCap ≤ 2 ^ 32 → a % 4 = 0 →
    a + bs.length ≤ s.cfg.inCap →
    ∃ m, hostTxns (loadData a bs) s = { s with inBuf := m } ∧ BytesWritten s.inBuf a bs m := by
  induction a, bs using loadData.induct with
  | case1 a b0 b1 b2 b3 bs ih =>
    intro s hb hcap hal hlen
    simp only [List.length_cons] at hlen
    obtain ⟨m, hwrite, hm⟩ := hostTxn_wr32_inp hb hal (by omega) (by omega) b0 b1 b2 b3
    obtain ⟨m', hrest, hm'⟩ := ih { s with inBuf := m } hb hcap (by omega) (show a + 4 + bs.length ≤ s.cfg.inCap by omega)
    exact ⟨m', by rw [loadData, hostTxns_cons, hwrite, hrest], hm.append hm'⟩
  | case2 a bs hshort =>
    intro s hb hcap _ hlen
    rw [loadData]
    · exact hostTxns_loadBytes bs a s hb hcap hlen
    · exact hshort

/-- Settles O35: the buffer writes, then the write of IN_LEN. -/
theorem loadinFillsTheInputBuffer : Obligations.LoadinFillsTheInputBuffer := by
  intro s bs hwf hb hlen
  obtain ⟨-, hcaps, hbits, -⟩ := (wf_iff _).1 hwf
  obtain ⟨m, hwrites, hm⟩ := hostTxns_loadData 0 bs s hb (by omega) rfl (by omega)
  have hinLen := (commandAndLengthWrites { s with inBuf := m } (BitVec.ofNat 32 bs.length) hb).2.2.1
  refine ⟨m, by rw [loadIn, hostTxns_append, hwrites]; exact hinLen, fun i => ?_⟩
  rw [hm i]
  simp

/-! ### READOUT -/

/-- While Idle, a byte read of the OUT region records the result byte there (R63, R68). -/
theorem hostTxn_rd8_out {s : State} {j : Nat} {b : Byte} (hb : s.busy = false) (hj : j < s.cfg.outCap) (hoff : j < 2 ^ 32)
    (h : Memory.lookup s.outBuf j = some b) :
    hostTxn (.rd8 .out (BitVec.ofNat 32 j)) s = recordRead (b.setWidth 32) s := by
  have hnat : (BitVec.ofNat 32 j).toNat = j := by rw [BitVec.toNat_ofNat, Nat.mod_eq_of_lt hoff]
  have hread : hostRead8 .out (BitVec.ofNat 32 j) s = (b, s) := by
    rw [out_readsByLane.byte, hnat, outLane_result hb hj h]
  rw [hostTxn, hread]

/-- Byte reads of consecutive result bytes record them in order. -/
theorem hostTxns_rd8_out (y : List Byte) : ∀ (a : Nat) (s : State), s.busy = false → s.cfg.outCap ≤ 2 ^ 32 →
    a + y.length ≤ s.cfg.outCap → (∀ j, j < y.length → Memory.lookup s.outBuf (a + j) = y[j]?) →
    hostTxns ((List.range' a y.length).map fun j => .rd8 .out (BitVec.ofNat 32 j)) s =
      { s with returned := (y.map fun b => b.setWidth 32).reverse ++ s.returned } := by
  induction y with
  | nil => exact fun _ _ _ _ _ _ => rfl
  | cons b y ih =>
    intro a s hb hcap hlen hbytes
    rw [List.length_cons] at hlen
    have hread : hostTxn (.rd8 .out (BitVec.ofNat 32 a)) s = recordRead (b.setWidth 32) s :=
      hostTxn_rd8_out hb (by omega) (by omega) (hbytes 0 (Nat.succ_pos _))
    have hrest := ih (a + 1) (recordRead (b.setWidth 32) s) hb hcap (show a + 1 + y.length ≤ s.cfg.outCap by omega)
      fun j hj => by
        rw [show a + 1 + j = a + (j + 1) by omega]
        exact hbytes (j + 1) (Nat.succ_lt_succ hj)
    rw [List.length_cons, List.range'_succ, List.map_cons, hostTxns_cons, hread, hrest]
    simp [recordRead]

/-- Settles O36: the read of OUT_LEN, then the reads of the output's bytes. -/
theorem readoutReturnsTheOutput : Obligations.ReadoutReturnsTheOutput := by
  intro s y hwf hy hs
  obtain ⟨-, -, hbits, -⟩ := (wf_iff _).1 hwf
  have hlen : s.outLen = BitVec.ofNat 32 y.length := off_eq hs.length
  have hread : hostTxn (.rd32 .reg offOutLen) s = recordRead (BitVec.ofNat 32 y.length) s := by rw [← hlen]; rfl
  rw [readOut, hostTxns_cons, hread, List.range_eq_range']
  exact hostTxns_rd8_out y 0 (recordRead (BitVec.ofNat 32 y.length) s) hs.idle
    (show s.cfg.outCap ≤ 2 ^ 32 by omega) (show 0 + y.length ≤ s.cfg.outCap by omega)
    fun j _ => by rw [Nat.zero_add]; exact hs.bytes j

end Sys2Proof.Machine
end

section
/-! The reference datapath against the dispatch function (R94, R124, R131, R168): what each pass leaves (`Laws/Passes`) is carried on
to the pending result it ends in, and the commands put their passes together. -/

namespace Sys2Proof.Machine

/-! ### A pending result -/

/-- OUT_BUF holds exactly the bytes y. -/
def OutputIs (y : List Byte) (s : State) : Prop := ∀ j, Memory.lookup s.outBuf j = y[j]?

/-- The engine is at END with the result r pending and, on success, exactly its output in OUT_BUF (R42). -/
def Pending (r : Result) (t : State) : Prop :=
  t.eng.st = .fin ∧
    match r with
    | .ok y => t.eng.resC = 0#4 ∧ t.eng.resP = 0#32 ∧ OutputIs y t
    | .err c pos => t.eng.resC = c.code ∧ t.eng.resP = pos

/-- Some number of internal steps leads from s to the result r. -/
def Reaches (r : Result) (s : State) : Prop := ∃ k, Pending r (workSteps k s)

theorem reaches_raisePending (c : ErrCode) (pos : Word) (s : State) : Reaches (.err c pos) (raisePending c pos s) :=
  ⟨0, rfl, rfl, rfl⟩

theorem reaches_okPending {y : List Byte} {s : State} (h : OutputIs y s) : Reaches (.ok y) (okPending s) :=
  ⟨0, rfl, rfl, rfl, h⟩

theorem Reaches.of_step {r : Result} {s : State} (h : Reaches r (workStep s)) : Reaches r s := by
  obtain ⟨k, hk⟩ := h
  exact ⟨k + 1, hk⟩

theorem Reaches.of_steps {r : Result} {s : State} (k : Nat) (h : Reaches r (workSteps k s)) : Reaches r s := by
  obtain ⟨k', hk'⟩ := h
  exact ⟨k + k', by rwa [workSteps_add]⟩

/-- Bytes written behind an output extend it. -/
theorem OutputIs.append {y z : List Byte} {s t : State} (h : OutputIs y s) (hz : BytesWritten s.outBuf y.length z t.outBuf) :
    OutputIs (y ++ z) t := by
  intro j
  rw [hz j, h j]
  by_cases hj : y.length ≤ j
  · rw [List.getElem?_append_right hj]
    by_cases hlt : j < y.length + z.length
    · rw [if_pos ⟨hj, hlt⟩]
    · rw [if_neg (by omega), List.getElem?_eq_none hj, List.getElem?_eq_none (by omega)]
  · rw [if_neg (by omega), List.getElem?_append_left (by omega)]

/-- The first byte of an output (R168). -/
theorem outputIs_outWrite_zero {s : State} (h : OutputIs [] s) (hcap : 0 < s.cfg.outCap) (b : Byte) :
    OutputIs [b] (outWrite 0 b s) := by
  intro j
  rw [lookup_outWrite, h j]
  cases j with
  | zero => simp [hcap]
  | succ j => simp

/-! ### The steps by eng_st, and the end of each pass -/

theorem workStep_check {s : State} (h : s.eng.st = .check) : workStep s = checkStep s := by simp [workStep, h]

theorem workStep_p1 {s : State} (h : s.eng.st = .p1) : workStep s = p1Step s := by simp [workStep, h]

theorem workStep_p2 {s : State} (h : s.eng.st = .p2) : workStep s = p2Step s := by simp [workStep, h]

/-- Every byte of the input is read. -/
def AtEnd (s : State) : Prop := ¬ s.eng.rd.toNat < s.eng.nL.toNat

section Ends

variable {x y : List Byte} {r : Result} {s : State}

theorem Running.atEnd (h : Running x s) (hrd : s.eng.rd = BitVec.ofNat 32 x.length) : AtEnd s := by
  have := h.small
  rw [AtEnd, hrd, h.length, BitVec.toNat_ofNat]
  omega

theorem reaches_sizeEnd (hend : AtEnd s) (hst : s.eng.st = .p1) (hop : s.eng.opL = 1#3 ∨ s.eng.opL = 3#3)
    (hc : s.eng.runC = 0#8) (h : Reaches r (sizeDone s)) : Reaches r s := by
  refine .of_step ?_
  rwa [workStep_p1 hst, p1Step_encoder hop, sizeStep, if_pos hc, if_neg hend]

/-- The end of the CHECK pass over whole pairs is the capacity test (R131). -/
theorem reaches_sumEnd (hend : AtEnd s) (hst : s.eng.st = .p1) (hop : s.eng.opL = 2#3 ∨ s.eng.opL = 4#3)
    (hexceeds : s.cfg.outCap < s.eng.acc → Reaches r (raisePending .outCapacity 0#32 s))
    (hfits : s.eng.acc ≤ s.cfg.outCap → Reaches r (enterP2 (payloadBase s) 0#32 s)) : Reaches r s := by
  refine .of_step ?_
  rw [workStep_p1 hst, p1Step_decoder hop, sumStep, if_neg fun hlt => hend (Nat.lt_of_succ_lt hlt), if_neg hend]
  split_ifs with hcap
  · exact hexceeds hcap
  · exact hfits (Nat.not_lt.1 hcap)

theorem reaches_emitEnd (hend : AtEnd s) (hst : s.eng.st = .p2) (hop : s.eng.opL = 1#3 ∨ (s.eng.opL = 3#3 ∧ s.eng.sel = true))
    (hc : s.eng.runC = 0#8) (hout : OutputIs y s) : Reaches (.ok y) s := by
  refine .of_step ?_
  rw [workStep_p2 hst, p2Step_emit hop, emitStep, if_pos hc, if_neg hend]
  exact reaches_okPending hout

theorem reaches_expandEnd (hend : AtEnd s) (hst : s.eng.st = .p2)
    (hop : s.eng.opL = 2#3 ∨ (s.eng.opL = 4#3 ∧ s.eng.sel = true)) (hc : s.eng.runC = 0#8) (hout : OutputIs y s) :
    Reaches (.ok y) s := by
  refine .of_step ?_
  rw [workStep_p2 hst, p2Step_expand hop, expandStep, if_pos hc, if_neg hend]
  exact reaches_okPending hout

theorem reaches_copyEnd (hend : AtEnd s) (hst : s.eng.st = .p2)
    (hop : (s.eng.opL = 3#3 ∨ s.eng.opL = 4#3) ∧ s.eng.sel = false) (hout : OutputIs y s) : Reaches (.ok y) s := by
  refine .of_step ?_
  rw [workStep_p2 hst, p2Step_copy hop, copyStep, if_neg hend]
  exact reaches_okPending hout

end Ends

/-! ### The passes that write the output -/

theorem scans_size {s : State} (hst : s.eng.st = .p1) (hop : s.eng.opL = 1#3 ∨ s.eng.opL = 3#3) : Scans countPair s := by
  intro u hu hopu _
  rw [workStep_p1 (hu.trans hst), p1Step_encoder (by rwa [hopu])]
  exact ⟨fun hc => if_neg hc, fun hc hlt => (if_pos hc).trans (if_pos hlt)⟩

theorem scans_emit {s : State} (hst : s.eng.st = .p2) (hop : s.eng.opL = 1#3 ∨ (s.eng.opL = 3#3 ∧ s.eng.sel = true)) :
    Scans emitPair s := by
  intro u hu hopu hsel
  rw [workStep_p2 (hu.trans hst), p2Step_emit (by rwa [hopu, hsel])]
  exact ⟨fun hc => if_neg hc, fun hc hlt => (if_pos hc).trans (if_pos hlt)⟩

section Passes

variable {x pre : List Byte} {s : State}

/-- The EMIT pass appends the run-length form of the input to the output (R124). -/
theorem reaches_emit (hr : Running x s) (hop : s.eng.opL = 1#3 ∨ (s.eng.opL = 3#3 ∧ s.eng.sel = true)) (hout : OutputIs pre s)
    (hcap : pre.length + rleLen x ≤ s.cfg.outCap) :
    Reaches (.ok (pre ++ rleEncode x)) (enterP2 0#32 (BitVec.ofNat 32 pre.length) s) := by
  have hr' : Running x (enterP2 0#32 (BitVec.ofNat 32 pre.length) s) := hr.keep rfl rfl rfl
  obtain ⟨k, cv, m, hk, hm⟩ := emit_pass x.length 0 pre.length _ hr' (scans_emit rfl hop) (Nat.sub_le _ _) (Nat.zero_le _) rfl rfl
    rfl (by rwa [List.drop_zero, ← rleLen_eq_pairs])
  rw [List.drop_zero, ← rleLen_eq_pairs] at hk hm
  refine .of_steps k ?_
  rw [hk]
  exact reaches_emitEnd (Running.atEnd (hr'.keep rfl rfl rfl) rfl) rfl hop rfl (hout.append hm)

/-- The copy appends the rest of the input to the output (R168). -/
theorem reaches_copy {i : Nat} (hr : Running x s) (hop : (s.eng.opL = 3#3 ∨ s.eng.opL = 4#3) ∧ s.eng.sel = false)
    (hout : OutputIs pre s) (hi : i ≤ x.length) (hcap : pre.length + (x.length - i) ≤ s.cfg.outCap) :
    Reaches (.ok (pre ++ x.drop i)) (enterP2 (BitVec.ofNat 32 i) (BitVec.ofNat 32 pre.length) s) := by
  have hr' : Running x (enterP2 (BitVec.ofNat 32 i) (BitVec.ofNat 32 pre.length) s) := hr.keep rfl rfl rfl
  obtain ⟨k, m, hk, hm⟩ := copy_pass (x.length - i) i pre.length _ hr'
    (fun u hst hopu hsel => by rw [workStep_p2 (hst.trans rfl), p2Step_copy (by rw [hopu, hsel]; exact hop)]) rfl hi rfl rfl hcap
  refine .of_steps k ?_
  rw [hk]
  refine reaches_copyEnd (Running.atEnd (hr'.keep rfl rfl rfl) rfl) rfl hop (hout.append fun j => ?_)
  rw [List.length_drop, List.getElem?_drop]
  exact hm j

/-- The EXPAND pass writes the expansion of an even payload (R131). -/
theorem reaches_expand {b : Nat} (hr : Running x s) (hop : s.eng.opL = 2#3 ∨ (s.eng.opL = 4#3 ∧ s.eng.sel = true))
    (hout : OutputIs [] s) (hb : b ≤ x.length) (heven : (x.drop b).length % 2 = 0)
    (hcap : (expandPairs (x.drop b)).length ≤ s.cfg.outCap) :
    Reaches (.ok (expandPairs (x.drop b))) (enterP2 (BitVec.ofNat 32 b) 0#32 s) := by
  have hr' : Running x (enterP2 (BitVec.ofNat 32 b) 0#32 s) := hr.keep rfl rfl rfl
  obtain ⟨k, cv, m, hk, hm⟩ := expand_pass (x.drop b) b 0 _ hr'
    (fun u hst hopu hsel => by rw [workStep_p2 (hst.trans rfl), p2Step_expand (by rw [hopu, hsel]; exact hop)]) rfl hb heven rfl rfl
    rfl (by rwa [Nat.zero_add])
  refine .of_steps k ?_
  rw [hk]
  exact reaches_expandEnd (Running.atEnd (hr'.keep rfl rfl rfl) rfl) rfl hop rfl (hout.append hm)

/-! ### The decoder -/

theorem rleDecodeCheck_zero {p : List Byte} {z : Nat} (h : firstZeroCount p = some z) (base : Nat) :
    rleDecodeCheck p base = .err .malformedInput (BitVec.ofNat 32 (base + z)) := by
  simp [rleDecodeCheck, h]

theorem rleDecodeCheck_odd {p : List Byte} (h : firstZeroCount p = none) (hodd : p.length % 2 = 1) (base : Nat) :
    rleDecodeCheck p base = .err .malformedInput (BitVec.ofNat 32 (base + p.length - 1)) := by
  simp [rleDecodeCheck, h, hodd]

theorem rleDecodeCheck_even {p : List Byte} (h : firstZeroCount p = none) (heven : ¬ p.length % 2 = 1) (base : Nat) :
    rleDecodeCheck p base = .ok (expandPairs p) := by
  simp [rleDecodeCheck, h, heven]

/-- The CHECK pass and what follows it decode the payload from index b on (R131). -/
theorem reaches_decode {b : Nat} (hr : Running x s) (hop : s.eng.opL = 2#3 ∨ (s.eng.opL = 4#3 ∧ s.eng.sel = true))
    (hbase : payloadBase s = BitVec.ofNat 32 b) (hb : b ≤ x.length) (hout : OutputIs [] s) :
    Reaches (capacityTest s.cfg (rleDecodeCheck (x.drop b) b)) (enterP1 (BitVec.ofNat 32 b) s) := by
  have hdec : s.eng.opL = 2#3 ∨ s.eng.opL = 4#3 := hop.imp_right And.left
  have hr' : Running x (enterP1 (BitVec.ofNat 32 b) s) := hr.keep rfl rfl rfl
  have hlen : (x.drop b).length = x.length - b := List.length_drop
  obtain ⟨k, hk⟩ := sum_pass (x.drop b) b 0 _ hr'
    (fun u hst hopu _ => by rw [workStep_p1 (hst.trans rfl), p1Step_decoder (by rw [hopu]; exact hdec)]) rfl hb rfl rfl
    (show 0 + 255 * ((x.drop b).length / 2) ≤ 255 * (s.cfg.inCap / 2) by have := hr.legal; omega)
  refine .of_steps k ?_
  cases hz : firstZeroCount (x.drop b) with
  | some z =>
    rw [hz] at hk
    obtain ⟨f, hf⟩ := hk
    rw [hf, rleDecodeCheck_zero hz]
    exact reaches_raisePending _ _ _
  | none =>
    rw [hz] at hk
    by_cases hodd : (x.drop b).length % 2 = 1
    · simp only [if_pos hodd] at hk
      obtain ⟨f, hf⟩ := hk
      rw [hf, rleDecodeCheck_odd hz hodd, show b + (x.drop b).length - 1 = x.length - 1 by omega]
      exact reaches_raisePending _ _ _
    · simp only [if_neg hodd, Nat.zero_add] at hk
      rw [hk, rleDecodeCheck_even hz hodd]
      refine reaches_sumEnd (Running.atEnd (hr'.keep rfl rfl rfl) rfl) rfl hdec
        (fun hexceeds : s.cfg.outCap < (expandPairs (x.drop b)).length => ?_)
        fun hfits : (expandPairs (x.drop b)).length ≤ s.cfg.outCap => ?_
      · rw [capacityTest_exceeds hexceeds]
        exact reaches_raisePending _ _ _
      · rw [capacityTest_fits hfits]
        show Reaches _ (enterP2 (payloadBase s) 0#32 _)
        rw [hbase]
        exact reaches_expand (hr'.keep rfl rfl rfl) hop hout hb (by omega) hfits

/-! ### The encoders -/

/-- A run has at most as many pairs as bytes, so the run-length form is at most twice as long as the input (R123). -/
theorem rlePairs_length_le (x : List Byte) : (rlePairs x).length ≤ x.length := by
  rw [rlePairs_length, ← runs_length_sum]
  exact List.sum_le_sum fun r hr => by have := runs_pos x r hr; omega

/-- The adaptive form is at most one byte longer than the input (R164). -/
theorem adpCompress_length_le (x : List Byte) : (adpCompress x).length ≤ 1 + x.length := by
  unfold adpCompress
  split_ifs with hx hR
  · exact Nat.zero_le _
  · rw [List.length_cons, ← rleLen]; omega
  · rw [List.length_cons, Nat.add_comm]

/-- The run-length form always fits in OUT_BUF (R7). -/
theorem Running.rleLen_fits (h : Running x s) : rleLen x ≤ s.cfg.outCap := by
  obtain ⟨-, hcaps, -, -⟩ := (wf_iff _).1 h.params
  have := rlePairs_length_le x
  have := h.legal
  rw [rleLen_eq_pairs]
  omega

/-- A non-empty input behind a tag fits in OUT_BUF (R7). -/
theorem Running.tagged_fits (h : Running x s) (hx : x ≠ []) : 1 + x.length ≤ s.cfg.outCap := by
  obtain ⟨-, hcaps, -, -⟩ := (wf_iff _).1 h.params
  have := List.length_pos_of_ne_nil hx
  have := h.legal
  omega

/-- The SIZE pass ends with the run-length size counted (R124). -/
theorem reaches_sizeDone {r : Result} (hr : Running x s) (hop : s.eng.opL = 1#3 ∨ s.eng.opL = 3#3) (hout : OutputIs [] s)
    (h : ∀ t : State, Running x t → t.eng.opL = s.eng.opL → OutputIs [] t → 2 * t.eng.pairs.toNat = rleLen x →
      Reaches r (sizeDone t)) : Reaches r (enterP1 0#32 s) := by
  have hr' : Running x (enterP1 0#32 s) := hr.keep rfl rfl rfl
  obtain ⟨k, cv, hk⟩ := size_pass x.length 0 _ hr' (scans_size rfl hop) (Nat.sub_le _ _) (Nat.zero_le _) rfl rfl
  refine .of_steps k ?_
  rw [hk]
  refine reaches_sizeEnd (Running.atEnd (hr'.keep rfl rfl rfl) rfl) rfl hop rfl (h _ (hr'.keep rfl rfl rfl) rfl hout ?_)
  have := hr.small
  have := rlePairs_length_le x
  show 2 * (0#32 + BitVec.ofNat 32 (rlePairs (x.drop 0)).length).toNat = rleLen x
  rw [List.drop_zero, rleLen_eq_pairs, BitVec.zero_add, BitVec.toNat_ofNat]
  omega

/-- RLE_ENC emits at base 0. -/
theorem reaches_rleEnc (hr : Running x s) (hop : s.eng.opL = 1#3) (hout : OutputIs [] s) :
    Reaches (.ok (rleEncode x)) (enterP1 0#32 s) := by
  refine reaches_sizeDone hr (.inl hop) hout fun t hr hopt hout hsize => ?_
  have hop1 : t.eng.opL = 1#3 := hopt.trans hop
  have hdone : sizeDone t = enterP2 0#32 0#32 t := by simp [sizeDone, hop1, hsize, Nat.not_lt.2 hr.rleLen_fits]
  rw [hdone]
  exact reaches_emit (pre := []) hr (.inl hop1) hout (by rw [List.length_nil, Nat.zero_add]; exact hr.rleLen_fits)

/-- The engine with the tag written and the choice by it kept (R168). -/
def tagWritten (t : Byte) (sel : Bool) (s : State) : State := outWrite 0 t (s.mapEng fun e => { e with sel := sel })

theorem tagWritten_eng (t : Byte) (sel : Bool) (s : State) : (tagWritten t sel s).eng = { s.eng with sel := sel } :=
  outWrite_eng 0 t _

theorem Running.tagWritten (h : Running x s) (t : Byte) (sel : Bool) : Running x (tagWritten t sel s) := by
  have hframe := (internal_outWrite 0 t (s.mapEng fun e => { e with sel := sel })).frame
  exact h.keep (by rw [Machine.tagWritten, hframe]; rfl) (by rw [Machine.tagWritten, hframe]; rfl) (by rw [tagWritten_eng])

/-- At the end of the SIZE pass ADP_COMP writes the tag of the strictly smaller form, and goes on at base 1 (R168). -/
theorem sizeDone_adpComp (hr : Running x s) (hop : s.eng.opL = 3#3) (hx : x ≠ []) (hsize : 2 * s.eng.pairs.toNat = rleLen x) :
    sizeDone s =
      enterP2 0#32 1#32 (if 1 + rleLen x < 1 + x.length then tagWritten tagByteR true s else tagWritten tagByteI false s) := by
  have htagged := hr.tagged_fits hx
  unfold sizeDone
  simp only [hop, hsize, hr.length, if_true]
  by_cases hR : 1 + rleLen x < 1 + x.length
  · rw [if_pos hR, if_pos hR, if_neg (by omega)]; rfl
  · rw [if_neg hR, if_neg hR, if_neg (by omega)]; rfl

/-- ADP_COMP emits the run-length form or copies the input, behind the tag. -/
theorem reaches_adpComp (hr : Running x s) (hop : s.eng.opL = 3#3) (hx : x ≠ []) (hout : OutputIs [] s) :
    Reaches (.ok (adpCompress x)) (enterP1 0#32 s) := by
  refine reaches_sizeDone hr (.inr hop) hout fun t hr hopt hout hsize => ?_
  have hop3 : t.eng.opL = 3#3 := hopt.trans hop
  have htagged := hr.tagged_fits hx
  have hout1 : ∀ tag sel, OutputIs [tag] (tagWritten tag sel t) := fun tag sel =>
    outputIs_outWrite_zero (s := t.mapEng _) hout (show 0 < t.cfg.outCap by omega) tag
  rw [sizeDone_adpComp hr hop3 hx hsize, adpCompress, if_neg hx]
  by_cases hR : 1 + rleLen x < 1 + x.length
  · rw [if_pos hR, if_pos hR]
    have hr' := hr.tagWritten tagByteR true
    refine reaches_emit (pre := [tagByteR]) hr' (.inr ?_) (hout1 _ _) ?_
    · simp [tagWritten_eng, hop3]
    · have := hr'.tagged_fits hx
      rw [List.length_singleton]; omega
  · rw [if_neg hR, if_neg hR]
    have hr' := hr.tagWritten tagByteI false
    refine reaches_copy (pre := [tagByteI]) (i := 0) hr' ?_ (hout1 _ _) (Nat.zero_le _) (hr'.tagged_fits hx)
    simp [tagWritten_eng, hop3]

/-! ### The tag of ADP_DEC -/

/-- ADP_DEC acts on the tag in cur_v: it decodes or copies what is behind it (R168). -/
theorem reaches_dispatchTag {tag : Byte} {payload : List Byte} (hr : Running (tag :: payload) s) (hop : s.eng.opL = 4#3)
    (hcur : s.eng.curV = tag) (hout : OutputIs [] s) :
    Reaches (capacityTest s.cfg (adpDecompressCheck (tag :: payload))) (dispatchTag s) := by
  have hlen : 1 ≤ (tag :: payload).length := Nat.succ_pos _
  rw [dispatchTag, hcur]
  by_cases hR : tag = tagByteR
  · subst hR
    have hbase : payloadBase s = 1#32 := if_pos hop
    rw [if_pos rfl, adpDecompressCheck_tagR]
    exact reaches_decode (b := 1) (s := s.mapEng _) (hr.keep rfl rfl rfl) (.inr ⟨hop, rfl⟩) hbase hlen hout
  · rw [if_neg hR]
    by_cases hI : tag = tagByteI
    · subst hI
      have htagged := hr.tagged_fits (List.cons_ne_nil _ _)
      rw [List.length_cons] at htagged
      rw [if_pos rfl, adpDecompressCheck_tagI, capacityTest_fits (by omega)]
      exact reaches_copy (i := 1) (pre := []) (s := s.mapEng _) (hr.keep rfl rfl rfl) ⟨.inr hop, rfl⟩ hout hlen
        (show 0 + (payload.length + 1 - 1) ≤ s.cfg.outCap by omega)
    · rw [if_neg hI, adpDecompressCheck_unknown payload hR hI]
      exact reaches_raisePending _ _ _

end Passes

/-! ### From acceptance -/

section Accept

variable {x : List Byte} {s : State}

theorem Reaches.of_check {r : Result} (h : Reaches r (checkStep (accept s))) : Reaches r (accept s) :=
  .of_step (by rwa [workStep_check rfl])

theorem outputIs_accept (s : State) : OutputIs [] (accept s) := fun _ => rfl

/-- The tests of R94 in front of a command: a reserved OP, then an illegal length (R203, R204). -/
theorem checkStep_reserved (hop : s.eng.opL ∉ [1#3, 2#3, 3#3, 4#3]) : checkStep s = raisePending .badCommand 0#32 s := by
  rcases reserved_op_cases hop with h | h | h | h <;> simp [checkStep, h]

theorem checkStep_lengthError (hop : s.eng.opL ∈ [1#3, 2#3, 3#3, 4#3]) (hlen : s.cfg.inCap < s.eng.nL.toNat) :
    checkStep s = raisePending .lengthError 0#32 s := by
  rcases command_op_cases hop with h | h | h | h <;> simp [checkStep, h, hlen]

theorem checkStep_rle (hop : s.eng.opL = 1#3 ∨ s.eng.opL = 2#3) (hlen : s.eng.nL.toNat ≤ s.cfg.inCap) :
    checkStep s = enterP1 0#32 s := by
  rcases hop with h | h <;> simp [checkStep, h, Nat.not_lt.2 hlen]

/-- The adaptive commands succeed at once on the empty input (R160, R162). -/
theorem checkStep_empty (hop : s.eng.opL = 3#3 ∨ s.eng.opL = 4#3) (hn : s.eng.nL = 0#32) : checkStep s = okPending s := by
  rcases hop with h | h <;> simp [checkStep, h, hn]

theorem checkStep_adpComp (hop : s.eng.opL = 3#3) (hlen : s.eng.nL.toNat ≤ s.cfg.inCap) (hn : s.eng.nL ≠ 0#32) :
    checkStep s = enterP1 0#32 s := by
  simp [checkStep, hop, Nat.not_lt.2 hlen, hn]

theorem checkStep_adpDec (hop : s.eng.opL = 4#3) (hlen : s.eng.nL.toNat ≤ s.cfg.inCap) (hn : s.eng.nL ≠ 0#32) :
    checkStep s = if atTag s then dispatchTag s else readTag s := by
  simp [checkStep, hop, Nat.not_lt.2 hlen, hn]

theorem Running.nL_eq_zero_iff (h : Running x s) : s.eng.nL = 0#32 ↔ x = [] := by
  rw [← BitVec.toNat_inj, h.length]
  exact List.length_eq_zero_iff

/-- Standing after the read of its tag, ADP_DEC reaches the result of the whole stream. -/
theorem reaches_atTag {tag : Byte} {payload : List Byte} (hr : Running (tag :: payload) s) (htag : atTag s = true)
    (hcur : s.eng.curV = tag) (hout : OutputIs [] s) : Reaches (capacityTest s.cfg (adpDecompressCheck (tag :: payload))) s := by
  have hat : (s.eng.st = .check ∧ s.eng.opL = 4#3) ∧ s.eng.rd = 1#32 := by simpa [atTag] using htag
  obtain ⟨⟨hst, hop⟩, -⟩ := hat
  have hn : s.eng.nL ≠ 0#32 := fun h => List.cons_ne_nil _ _ (hr.nL_eq_zero_iff.1 h)
  refine .of_step ?_
  rw [workStep_check hst, checkStep_adpDec hop (hr.length ▸ hr.legal) hn, if_pos htag]
  exact reaches_dispatchTag hr hop hcur hout

/-- ADP_DEC reads its tag, then acts on it (R168). -/
theorem reaches_adpDec (hr : Running x (accept s)) (hop : s.op = 4#3) (hx : x ≠ []) :
    Reaches (capacityTest s.cfg (adpDecompressCheck x)) (accept s) := by
  obtain ⟨tag, payload, rfl⟩ := List.exists_cons_of_ne_nil hx
  have hn : (accept s).eng.nL ≠ 0#32 := fun h => hx (hr.nL_eq_zero_iff.1 h)
  have hread : readTag (accept s) = (accept s).mapEng fun e => { e with curV := tag, rd := 1#32 } := by
    rw [readTag, hr.read (Nat.succ_pos _)]; rfl
  refine .of_check ?_
  rw [checkStep_adpDec hop (hr.length ▸ hr.legal) hn, if_neg (by simp [atTag, Engine.reset]), hread]
  exact reaches_atTag (s := (accept s).mapEng _) (hr.keep rfl rfl rfl) (by simp [atTag, hop]) rfl (outputIs_accept s)

/-- A command of legal length, its input written, reaches the result of its function (R94). -/
theorem reaches_command (hr : Running x (accept s)) (hop : s.op ∈ [1#3, 2#3, 3#3, 4#3]) :
    Reaches (capacityTest s.cfg (commandFunction s.op x)) (accept s) := by
  have hout := outputIs_accept s
  have hlegal : (accept s).eng.nL.toNat ≤ s.cfg.inCap := hr.length ▸ hr.legal
  rcases command_op_cases hop with h | h | h | h
  · have hf : commandFunction s.op x = .ok (rleEncode x) := by rw [h]; rfl
    rw [hf, capacityTest_fits (show _ ≤ s.cfg.outCap from hr.rleLen_fits)]
    exact .of_check (checkStep_rle (.inl h) hlegal ▸ reaches_rleEnc hr h hout)
  · have hf : commandFunction s.op x = rleDecodeCheck x 0 := by rw [h]; rfl
    have hbase : payloadBase (accept s) = 0#32 := if_neg (by simp [h])
    rw [hf]
    exact .of_check (checkStep_rle (.inr h) hlegal ▸ reaches_decode (b := 0) hr (.inl h) hbase (Nat.zero_le _) hout)
  · have hf : commandFunction s.op x = .ok (adpCompress x) := by rw [h]; rfl
    rw [hf]
    by_cases hx : x = []
    · subst hx
      exact .of_check (checkStep_empty (.inl h) (hr.nL_eq_zero_iff.2 rfl) ▸ reaches_okPending hout)
    · rw [capacityTest_fits (show _ ≤ s.cfg.outCap from (adpCompress_length_le x).trans (hr.tagged_fits hx))]
      exact .of_check (checkStep_adpComp h hlegal (mt hr.nL_eq_zero_iff.1 hx) ▸ reaches_adpComp hr h hx hout)
  · have hf : commandFunction s.op x = adpDecompressCheck x := by rw [h]; rfl
    rw [hf]
    by_cases hx : x = []
    · subst hx
      exact .of_check (checkStep_empty (.inr h) (hr.nL_eq_zero_iff.2 rfl) ▸ reaches_okPending hout)
    · exact reaches_adpDec hr h hx

end Accept

/-- Settles O15, in the three cases of R94: a reserved OP and an illegal length end in CHECK, a command runs its passes. -/
theorem referenceDatapathReachesTheResult : Obligations.ReferenceDatapathReachesTheResult := by
  intro s x hwf hinput
  have hreaches : Reaches (execResult s.cfg s.op s.inLen.toNat x) (accept s) := by
    by_cases hop : s.op ∈ [1#3, 2#3, 3#3, 4#3]
    · by_cases hlen : s.cfg.inCap < s.inLen.toNat
      · rw [execResult_lengthError hop hlen]
        exact .of_check (checkStep_lengthError (s := accept s) hop hlen ▸ reaches_raisePending _ _ _)
      · obtain ⟨hx, hin⟩ := hinput hop (Nat.not_lt.1 hlen)
        rw [execResult_legal hop (Nat.not_lt.1 hlen)]
        exact reaches_command ⟨hwf, hin, hx.symm, hx ▸ Nat.not_lt.1 hlen⟩ hop
    · rw [execResult_reserved hop]
      exact .of_check (checkStep_reserved (s := accept s) hop ▸ reaches_raisePending _ _ _)
  obtain ⟨k, hst, hresult⟩ := hreaches
  refine ⟨k, hst, ?_⟩
  cases hr : execResult s.cfg s.op s.inLen.toNat x with
  | ok y =>
    rw [hr] at hresult
    exact hresult
  | err c pos =>
    rw [hr] at hresult
    exact hresult

end Sys2Proof.Machine
end

section
/-! The run-length codec (R120 to R130): its runs and pairs, the shape of its output, its round trip, and the two commands that
run it. -/

namespace Sys2Proof.Machine

/-! ### Runs -/

/-- Neighbours with different images, as the index statements of R120 and R123 write it. -/
theorem isChain_ne_iff_getElem? {α β : Type} (f : α → β) (l : List α) :
    l.IsChain (fun a b => f a ≠ f b) ↔ ∀ i, i + 1 < l.length → (l[i]?).map f ≠ (l[i + 1]?).map f := by
  rw [List.isChain_iff_getElem]
  refine forall₂_congr fun i hi => ?_
  rw [List.getElem?_eq_getElem hi, List.getElem?_eq_getElem (Nat.lt_of_succ_lt hi)]
  simp

/-- A list of maximal runs is the list of runs of what it writes out (R120). -/
theorem runs_flatMap_replicate (rs : List (Byte × Nat)) (hpos : ∀ r ∈ rs, 1 ≤ r.2)
    (hne : rs.IsChain fun r r' => r.1 ≠ r'.1) : runs (rs.flatMap fun r => List.replicate r.2 r.1) = rs := by
  induction rs with
  | nil => rfl
  | cons r rs ih =>
    obtain ⟨hr, hrs⟩ := List.forall_mem_cons.1 hpos
    obtain ⟨hhead, htail⟩ := List.isChain_cons.1 hne
    have hruns := ih hrs htail
    rw [List.flatMap_cons, runs_replicate_append r.1 r.2 hr _ fun q hq => (hhead q (hruns ▸ hq)).symm, hruns]

/-- Settles O48: `runs` has the three properties, and `runs_flatMap_replicate` is their uniqueness. -/
theorem runsAreTheUniqueMaximalRuns : Obligations.RunsAreTheUniqueMaximalRuns := by
  intro x rs
  rw [← isChain_ne_iff_getElem? Prod.fst]
  refine ⟨⟨?_, ?_⟩, runs_eq_nil⟩
  · rintro rfl
    exact ⟨runs_pos x, runs_adjacent x, runs_concat x⟩
  · rintro ⟨hpos, hne, rfl⟩
    exact (runs_flatMap_replicate rs hpos hne).symm

/-! ### Pairs -/

theorem split_sum (v : Byte) (L : Nat) : ((split v L).map Prod.snd).sum = L := by
  have h := congrArg List.length (split_concat v L)
  simpa [List.length_flatMap, Function.comp_def] using h

theorem split_getElem?_full {v : Byte} {L i : Nat} (hi : i < L / 255) : (split v L)[i]? = some (v, 255) := by
  rw [split, List.getElem?_append_left (by simpa using hi), List.getElem?_replicate, if_pos hi]

theorem split_getElem?_remainder {v : Byte} {L : Nat} (h : L % 255 > 0) : (split v L)[L / 255]? = some (v, L % 255) := by
  rw [split, if_pos h, List.getElem?_append_right (by simp)]
  simp

/-- Settles O49: the counts of 255 come first, then the remainder if there is one. -/
theorem splitIntoLegalCounts : Obligations.SplitIntoLegalCounts := by
  intro v L _
  refine ⟨split_length v L, fun p hp => ⟨split_fst hp, split_count hp⟩, split_sum v L, fun i hi => split_getElem?_full hi,
    split_getElem?_remainder, fun h => ?_⟩
  rw [split_length]
  omega

theorem rleLen_le (x : List Byte) : rleLen x ≤ 2 * x.length := by
  have := rlePairs_length_le x
  rw [rleLen_eq_pairs]
  omega

theorem rlePairs_ne_nil {x : List Byte} (hx : x ≠ []) : rlePairs x ≠ [] := by
  intro h
  have hx' := rlePairs_concat x
  rw [h] at hx'
  exact hx hx'.symm

/-- There are as many pairs as bytes exactly when every run is a single byte (R123): a longer run has fewer pairs than bytes. -/
theorem rlePairs_length_eq_iff (x : List Byte) : (rlePairs x).length = x.length ↔ ∀ r ∈ runs x, r.2 = 1 := by
  rw [rlePairs_length, ← runs_length_sum]
  constructor
  · intro heq
    by_contra! hlong
    obtain ⟨r, hr, hne⟩ := hlong
    have hpos := runs_pos x
    refine (List.sum_lt_sum (fun r : Byte × Nat => (r.2 + 254) / 255) Prod.snd (fun q hq => ?_) ⟨r, hr, ?_⟩).ne heq
    · have := hpos q hq; omega
    · have := hpos r hr; show (r.2 + 254) / 255 < r.2; omega
  · intro hone
    exact congrArg List.sum (List.map_congr_left fun r hr => by rw [hone r hr])

/-- Every run is a single byte exactly when no two adjacent bytes are equal (R123). -/
theorem runs_single_iff (x : List Byte) : (∀ r ∈ runs x, r.2 = 1) ↔ x.IsChain (· ≠ ·) := by
  constructor
  · intro hone
    have hx : (runs x).map Prod.fst = x := by
      conv_rhs => rw [← runs_concat x]
      rw [List.map_eq_flatMap]
      exact List.flatMap_congr fun r hr => by rw [hone r hr]; rfl
    rw [← hx, List.isChain_map]
    exact runs_adjacent x
  · intro hne
    have hruns := runs_flatMap_replicate (x.map fun b => (b, 1)) (by simp) (by rw [List.isChain_map]; exact hne)
    simp only [List.flatMap_map, List.replicate_one, List.flatMap_singleton'] at hruns
    simp [hruns]

/-- Settles O50: the size is twice the number of pairs, and there are at most as many pairs as bytes. -/
theorem runLengthSizeBounds : Obligations.RunLengthSizeBounds := by
  intro x
  refine ⟨by rw [rleLen_eq_pairs, rlePairs_length], by rw [rleLen_eq_pairs]; omega, rleLen_le x, ?_, fun hx => ?_⟩
  · have hchain := isChain_ne_iff_getElem? id x
    simp only [Option.map_id, id_eq] at hchain
    rw [← hchain, ← runs_single_iff, ← rlePairs_length_eq_iff, rleLen_eq_pairs]
    omega
  · have := List.length_pos_of_ne_nil (rlePairs_ne_nil hx)
    rw [rleLen_eq_pairs]
    omega

/-! ### The encoder's output -/

/-- Pair k of flattened pairs is pair k (R122). -/
theorem pair_flatten {ps : List (Byte × Nat)} {k : Nat} (hk : k < ps.length) :
    pairValue (flatten ps) k = ps[k].1 ∧ pairCount (flatten ps) k = BitVec.ofNat 8 ps[k].2 := by
  induction ps generalizing k with
  | nil => exact absurd hk (Nat.not_lt_zero k)
  | cons p ps ih =>
    cases k with
    | zero => exact ⟨rfl, rfl⟩
    | succ k => simpa using ih (Nat.lt_of_succ_lt_succ hk)

theorem rleEncode_length_even (x : List Byte) : (rleEncode x).length % 2 = 0 := by
  rw [rleEncode, flatten_length]
  omega

theorem firstZeroCount_rleEncode (x : List Byte) : firstZeroCount (rleEncode x) = none :=
  (flatten_decodes (rlePairs x) fun _ => rlePairs_count).1

theorem expandPairs_rleEncode (x : List Byte) : expandPairs (rleEncode x) = x :=
  (flatten_decodes (rlePairs x) fun _ => rlePairs_count).2.trans (rlePairs_concat x)

theorem noZeroCount_rleEncode (x : List Byte) : NoZeroCount (rleEncode x) := by
  rcases firstZeroCount_spec (rleEncode x) with ⟨k, h, -⟩ | ⟨-, hn⟩
  · rw [firstZeroCount_rleEncode] at h
    cases h
  · exact hn

/-- In the encoder's pairs one followed by another of the same value has the count 255 (R130). -/
theorem rlePairs_canonical (x : List Byte) : (rlePairs x).IsChain (fun p q => p.1 = q.1 → p.2 = 255) :=
  flatMap_split_canonical (runs x) (runs_pos x) (runs_adjacent x)

/-- Settles O52: the bytes of a pair are its value and count (`pair_flatten`), and the pairs are canonical. -/
theorem encoderOutputIsCanonical : Obligations.EncoderOutputIsCanonical := by
  intro x
  refine ⟨rleEncode_length_even x, noZeroCount_rleEncode x, fun k hk heq => ?_, ?_⟩
  · rw [rleEncode, flatten_length] at hk
    have hk' : k + 1 < (rlePairs x).length := by omega
    obtain ⟨hvalue, hcount⟩ := pair_flatten (Nat.lt_of_succ_lt hk')
    rw [rleEncode, hvalue, (pair_flatten hk').1] at heq
    rw [rleEncode, hcount, List.isChain_iff_getElem.1 (rlePairs_canonical x) k hk' heq]
  · rw [← expandPairs_eq, expandPairs_rleEncode]

/-! ### Decoding -/

theorem countSum_le (p : List Byte) : countSum p ≤ 255 * (p.length / 2) := by
  have h := List.sum_le_card_nsmul ((List.range (p.length / 2)).map fun k => (pairCount p k).toNat) 255 fun c hc => by
    obtain ⟨k, -, rfl⟩ := List.mem_map.1 hc
    exact Nat.le_of_lt_succ (pairCount p k).isLt
  rw [List.length_map, List.length_range, smul_eq_mul, Nat.mul_comm] at h
  exact h

/-- A payload that decodes gives the expansion of its pairs (R126). -/
theorem eq_pairsExpanded_of_rleDecodeCheck {p y : List Byte} {base : Nat} (h : rleDecodeCheck p base = .ok y) :
    y = pairsExpanded p := by
  rcases rleDecodeCheck_cases p base with ⟨k, -, h'⟩ | ⟨-, -, h'⟩ | ⟨-, -, h'⟩ <;> rw [h] at h'
  · cases h'
  · cases h'
  · exact Result.ok.inj h'

/-- Settles O53: validity is `rleDecodeCheck_ok_iff`, and the expansion has the length of the count sum. -/
theorem decodedLengthIsTheCountSum : Obligations.DecodedLengthIsTheCountSum := by
  intro p base
  refine ⟨(rleDecodeCheck_ok_iff p base).symm, fun y hy => ?_⟩
  obtain rfl := eq_pairsExpanded_of_rleDecodeCheck hy
  rw [pairsExpanded_length]
  exact ⟨rfl, rfl, countSum_le p⟩

/-- The run-length form decodes to the sequence it encodes (R129): it has no zero count and even length. -/
theorem rleDecodeCheck_rleEncode (x : List Byte) (base : Nat) : rleDecodeCheck (rleEncode x) base = .ok x := by
  have heven := rleEncode_length_even x
  rw [rleDecodeCheck_even (firstZeroCount_rleEncode x) (by omega), expandPairs_rleEncode]

/-! ### The commands -/

/-- Settles O38: the run-length form is at most twice the input, so it fits in OUT_BUF (R7, R123). -/
theorem rleEncCompletes : Obligations.RleEncCompletes := by
  intro s hwf hlegal
  obtain ⟨-, hcaps, -, -⟩ := (wf_iff _).1 hwf
  obtain ⟨n, hrun⟩ := runCommand_completes (f := fun x => .ok (rleEncode x)) hlegal
  have hfits := rleLen_le (commandInput s).1
  rw [commandInput_length, rleLen] at hfits
  exact ⟨_, by rw [← hrun]; rfl, complete_fits_succeeded hwf (by omega) _, complete_frame _ s n⟩

/-- Settles O39: the input is at most IN_CAP bytes, so its positions fit in 32 bits (R7). -/
theorem rleDecCompletes : Obligations.RleDecCompletes := by
  intro s hwf hlegal
  obtain ⟨-, hcaps, hbits, -⟩ := (wf_iff _).1 hwf
  have hlen := commandInput_length s
  obtain ⟨n, hrun⟩ := runCommand_completes (f := fun p => rleDecodeCheck p 0) hlegal
  exact ⟨_, by rw [← hrun]; rfl, complete_decodesTo (s := { s with draws := n }) hwf (by omega), complete_frame _ s n⟩

/-- RLE_DEC on the run-length form of a sequence that fits in OUT_BUF succeeds with the sequence (R128, R129). -/
theorem rleDec_rleEncode_succeeded {s : State} {x : List Byte} (hwf : s.cfg.wf = true) (hlegal : s.eng.nL.toNat ≤ s.cfg.inCap)
    (hin : (commandInput s).1 = rleEncode x) (hfits : x.length ≤ s.cfg.outCap) :
    ∃ t, exec .rleDec s = .next t ∧ Succeeded t x := by
  obtain ⟨n, hrun⟩ := runCommand_completes (f := fun p => rleDecodeCheck p 0) hlegal
  rw [hin, rleDecodeCheck_rleEncode] at hrun
  exact ⟨_, by rw [← hrun]; rfl, complete_fits_succeeded hwf hfits _⟩

/-- An output moved to the front of IN_BUF is the input of a command of its length (R40, R93). -/
theorem Succeeded.commandInput_of_moved {s t : State} {y : List Byte} (h : Succeeded t y) (hlen : s.eng.nL = t.outLen)
    (hmoved : ∀ i, i < t.outLen.toNat → Memory.lookup s.inBuf i = Memory.lookup t.outBuf i) : commandInput s = (y, s) :=
  commandInput_written (by rw [hlen, h.length]) fun i hi => by rw [hmoved i (h.length ▸ hi), h.bytes]

/-- Settles O51: RLE_ENC leaves the run-length form (O38), which RLE_DEC finds in IN_BUF and decodes. -/
theorem runLengthRoundTrip : Obligations.RunLengthRoundTrip := by
  refine ⟨rleDecodeCheck_rleEncode, fun s s' t hwf hcfg hlegal hexec => ?_⟩
  obtain ⟨u, hu, hsucc, -⟩ := rleEncCompletes s hwf hlegal
  obtain rfl : t = u := Host.Outcome.next.inj (hexec.symm.trans hu)
  refine ⟨?_, fun hfits hnL hmoved => ?_⟩
  · rw [hsucc.length, ← commandInput_length s]
    exact rleLen_le _
  · obtain ⟨-, hcaps, -, -⟩ := (wf_iff _).1 hwf
    have hin := congrArg Prod.fst (hsucc.commandInput_of_moved hnL hmoved)
    exact rleDec_rleEncode_succeeded (by rwa [hcfg]) (by rwa [hcfg, hnL]) hin
      (by rw [hcfg, commandInput_length]; omega)

end Sys2Proof.Machine
end

section
/-! The adaptive codec (R160 to R169): its form and its choice of tag, its size, its round trip, the two commands that run it, and
the turn of ADP_DEC's tag. -/

namespace Sys2Proof.Machine

/-! ### The form and its tag -/

section Form

variable {x : List Byte}

/-- The strictly smaller run-length form, behind tag R (R160). -/
theorem adpCompress_tagR (h : rleLen x < x.length) : adpCompress x = tagByteR :: rleEncode x := by
  have hx : x ≠ [] := List.ne_nil_of_length_pos (Nat.zero_lt_of_lt h)
  rw [adpCompress, if_neg hx, if_pos (Nat.add_lt_add_left h 1)]

/-- The bytes themselves, behind tag I (R160). -/
theorem adpCompress_tagI (hx : x ≠ []) (h : ¬ rleLen x < x.length) : adpCompress x = tagByteI :: x := by
  rw [adpCompress, if_neg hx, if_neg (by omega)]

theorem adpCompress_tag (hx : x ≠ []) :
    (adpCompress x)[0]? = some (if rleLen x < x.length then tagByteR else tagByteI) := by
  by_cases hR : rleLen x < x.length
  · rw [adpCompress_tagR hR, if_pos hR]; rfl
  · rw [adpCompress_tagI hx hR, if_neg hR]; rfl

end Form

/-- Settles O54, in the two cases of the choice; a tie is not strictly smaller. -/
theorem adaptiveOverheadIsOneByte : Obligations.AdaptiveOverheadIsOneByte := by
  refine ⟨rfl, fun x hx => ⟨?_, adpCompress_length_le x, fun htie => adpCompress_tagI hx (by omega)⟩⟩
  by_cases hR : rleLen x < x.length
  · rw [adpCompress_tagR hR, List.length_cons, ← rleLen]; omega
  · rw [adpCompress_tagI hx hR, List.length_cons]; omega

/-- One run of L bytes has one pair per 255 of them, and one for a remainder (R123). -/
theorem rleLen_replicate (v : Byte) {L : Nat} (hL : 1 ≤ L) : rleLen (List.replicate L v) = 2 * ((L + 254) / 255) := by
  have hruns : runs (List.replicate L v) = [(v, L)] := by
    simpa using runs_replicate_append v L hL [] (by simp)
  rw [rleLen_eq_pairs, rlePairs_length, hruns, List.map_singleton, List.sum_singleton]

/-- Settles O56, by the size of the run-length form in each case (R123). -/
theorem adaptiveChoosesTheSmaller : Obligations.AdaptiveChoosesTheSmaller := by
  have hrun : ∀ (v : Byte) {L : Nat}, 1 ≤ L →
      (adpCompress (List.replicate L v))[0]? = some (if 3 ≤ L then tagByteR else tagByteI) := by
    intro v L hL
    rw [adpCompress_tag (by rw [Ne, List.replicate_eq_nil_iff]; omega), rleLen_replicate v hL, List.length_replicate]
    exact congrArg some (if_congr (by omega) rfl rfl)
  refine ⟨fun x hx => ?_, fun x hx hne => ?_, fun v L hL => ?_, fun v L hL hL2 => ?_⟩
  · rw [adpCompress_tag hx]
    by_cases hR : rleLen x < x.length <;> simp [hR, tagByteR, tagByteI]
  · obtain ⟨-, -, -, hsize, -⟩ := runLengthSizeBounds x
    have hdouble := hsize.2 hne
    rw [adpCompress_tag hx, if_neg (by omega)]; rfl
  · rw [hrun v (by omega), if_pos hL]; rfl
  · rw [hrun v hL, if_neg (by omega)]; rfl

/-- Decompressing the adaptive form gives the sequence back (R165). -/
theorem adpDecompressCheck_adpCompress (x : List Byte) : adpDecompressCheck (adpCompress x) = .ok x := by
  by_cases hx : x = []
  · subst hx; rfl
  · by_cases hR : rleLen x < x.length
    · rw [adpCompress_tagR hR, adpDecompressCheck_tagR, rleDecodeCheck_rleEncode]
    · rw [adpCompress_tagI hx hR, adpDecompressCheck_tagI]

/-! ### The commands -/

/-- ADP_COMP on a legal length succeeds with the adaptive form, which fits in OUT_BUF (R7, R161, R164). -/
theorem adpComp_succeeded {s : State} (hwf : s.cfg.wf = true) (hlegal : s.eng.nL.toNat ≤ s.cfg.inCap) :
    ∃ t, exec .adpComp s = .next t ∧ CompletionFrame s t ∧ Succeeded t (adpCompress (commandInput s).1) := by
  obtain ⟨hpos, hcaps, -, -⟩ := (wf_iff _).1 hwf
  obtain ⟨n, hrun⟩ := runCommand_completes (f := fun x => .ok (adpCompress x)) hlegal
  have hfits := adpCompress_length_le (commandInput s).1
  rw [commandInput_length] at hfits
  exact ⟨_, by rw [← hrun]; rfl, complete_frame _ s n, complete_fits_succeeded hwf (by omega) _⟩

/-- Settles O40: ADP_COMP leaves the adaptive form of its input, which is one of the three. -/
theorem adpCompCompletes : Obligations.AdpCompCompletes := by
  intro s hwf hlegal
  obtain ⟨t, hexec, hframe, hsucc⟩ := adpComp_succeeded hwf hlegal
  refine ⟨t, hexec, hframe, fun hx => ?_, fun _ hR => ?_, fun hx hI => ?_⟩
  · rw [hx] at hsucc
    exact hsucc
  · rw [adpCompress_tagR (by omega)] at hsucc
    exact hsucc
  · rw [adpCompress_tagI hx (by omega)] at hsucc
    exact hsucc

/-- Settles O41, by the tag: a payload is shorter than IN_CAP, so its positions fit in 32 bits and its copy in OUT_BUF (R7). -/
theorem adpDecCompletes : Obligations.AdpDecCompletes := by
  intro s hwf hlegal
  obtain ⟨-, hcaps, hbits, -⟩ := (wf_iff _).1 hwf
  have hlen := commandInput_length s
  obtain ⟨n, hrun⟩ := runCommand_completes (f := adpDecompressCheck) hlegal
  refine ⟨_, by rw [← hrun]; rfl, complete_frame _ s n, fun hx => ?_, fun tag payload hx => ?_⟩
  · rw [hx]
    exact complete_fits_succeeded hwf (Nat.zero_le _) _
  · rw [hx, List.length_cons] at hlen
    rw [hx]
    refine ⟨?_, ?_, fun hR hI => ?_⟩
    · rintro rfl
      exact complete_decodesTo (s := { s with draws := n }) hwf (by omega)
    · rintro rfl
      exact complete_fits_succeeded hwf (by omega) _
    · rw [adpDecompressCheck_unknown payload hR hI]
      exact recordError_failed _ 0 _ (by decide)

/-- ADP_DEC on the adaptive form of a sequence that fits in OUT_BUF succeeds with the sequence (R163, R165). -/
theorem adpDec_adpCompress_succeeded {s : State} {x : List Byte} (hwf : s.cfg.wf = true) (hlegal : s.eng.nL.toNat ≤ s.cfg.inCap)
    (hin : (commandInput s).1 = adpCompress x) (hfits : x.length ≤ s.cfg.outCap) :
    ∃ t, exec .adpDec s = .next t ∧ Succeeded t x := by
  obtain ⟨n, hrun⟩ := runCommand_completes (f := adpDecompressCheck) hlegal
  rw [hin, adpDecompressCheck_adpCompress] at hrun
  exact ⟨_, by rw [← hrun]; rfl, complete_fits_succeeded hwf hfits _⟩

/-- Settles O55: ADP_COMP leaves the adaptive form, which ADP_DEC finds in IN_BUF and decodes. -/
theorem adaptiveRoundTrip : Obligations.AdaptiveRoundTrip := by
  refine ⟨adpDecompressCheck_adpCompress, fun s s' t hwf hcfg hlegal hexec => ?_⟩
  obtain ⟨u, hu, -, hsucc⟩ := adpComp_succeeded hwf hlegal
  obtain rfl : t = u := Host.Outcome.next.inj (hexec.symm.trans hu)
  refine ⟨?_, fun hfits hnL hmoved => ?_⟩
  · rw [hsucc.length, ← commandInput_length s]
    exact adpCompress_length_le _
  · obtain ⟨-, hcaps, -, -⟩ := (wf_iff _).1 hwf
    have hin := congrArg Prod.fst (hsucc.commandInput_of_moved hnL hmoved)
    exact adpDec_adpCompress_succeeded (by rwa [hcfg]) (by rwa [hcfg, hnL]) hin
      (by rw [hcfg, commandInput_length]; omega)

/-! ### The tag's turn -/

/-- What completing by a tag runs on the whole stream, the tag's byte included (R96, R202). -/
def tagFunction (t : Byte) (z : List Byte) : Result :=
  if t = tagByteR then rleDecodeCheck (z.drop 1) 1
  else if t = tagByteI then .ok (z.drop 1)
  else .err .unknownFormat 0#32

/-- The check of ADP_DEC is the function of the stream's first byte (R162). -/
theorem adpDecompressCheck_cons (t : Byte) (payload : List Byte) :
    adpDecompressCheck (t :: payload) = tagFunction t (t :: payload) := rfl

theorem busy_of_atTag {s : State} (h : atTag s = true) : s.busy = true := by
  have hat : (s.eng.st = .check ∧ s.eng.opL = 4#3) ∧ s.eng.rd = 1#32 := by simpa [atTag] using h
  obtain ⟨⟨hst, -⟩, -⟩ := hat
  rw [busy_eq, hst]; rfl

/-- With nothing decoded at the fetch point, the turn of a Busy engine is that of a reserved tag (R202). -/
theorem engineTurn_unknownTag {s : State} {e : Reject} (hb : s.busy = true) (h : fetch s = .error e) :
    engineTurn s = .next (unknownTag s) := by
  simp [engineTurn, hb, h]

/-- At a tag the engine's turn runs the function of the tag, known or reserved. -/
theorem engineTurn_tag {s : State} (htag : atTag s = true) :
    engineTurn s = .next (runCommand (tagFunction s.eng.curV) s) := by
  have hb := busy_of_atTag htag
  have hfetch := fetch_tag htag
  obtain ⟨hdecR, hdecI, hdecUnknown⟩ := adaptiveTagDecodesExactly
  by_cases hR : s.eng.curV = tagByteR
  · rw [hR] at hfetch ⊢
    exact engineTurn_fetched hb (hfetch.trans hdecR)
  · by_cases hI : s.eng.curV = tagByteI
    · rw [hI] at hfetch ⊢
      exact engineTurn_fetched hb (hfetch.trans hdecI)
    · have hf : tagFunction s.eng.curV = fun _ => .err .unknownFormat 0#32 := by
        funext z
        exact (if_neg hR).trans (if_neg hI)
      rw [hf]
      exact engineTurn_unknownTag hb (hfetch.trans (hdecUnknown _ hR hI))

/-- A command depends on its function at its own input alone. -/
theorem runCommand_congr {f g : List Byte → Result} {s : State} (h : f (commandInput s).1 = g (commandInput s).1) :
    runCommand f s = runCommand g s := by
  rw [runCommand, runCommand, h]

/-- A written byte at IN_BUF index 0 is the first byte of a non-empty input. -/
theorem commandInput_eq_cons {s : State} {b : Byte} (hn : 1 ≤ s.eng.nL.toNat) (hb : Memory.lookup s.inBuf 0 = some b) :
    ∃ payload, (commandInput s).1 = b :: payload := by
  obtain ⟨-, hwritten, -⟩ := commandInputIsTheBuffer s
  rw [← List.head?_eq_some_iff, List.head?_eq_getElem?]
  exact hwritten 0 b hn hb

/-- Settles O46: both run the function of the tag in cur_v, which is the first byte of the input. -/
theorem tagTurnAgreesWithAdpDec : Obligations.TagTurnAgreesWithAdpDec := by
  intro s htag hn hcur
  obtain ⟨payload, hin⟩ := commandInput_eq_cons hn hcur
  rw [engineTurn_tag htag]
  refine congrArg Host.Outcome.next (runCommand_congr ?_)
  rw [hin, adpDecompressCheck_cons]

end Sys2Proof.Machine
end

section
/-! Error completions that read nothing, and the interrupt line (R203, R204, R207, R209, R212). -/

namespace Sys2Proof.Machine

/-! ### Errors before any read -/

/-- An instruction that records an error at position 0 whatever IN_BUF holds is that error, within the frame of a completion,
reads nothing and leaves IN_BUF alone (R207). -/
theorem recordsError_beforeAnyRead {i : Instr} {c : ErrCode} {s : State}
    (h : ∀ m, exec i { s with inBuf := m } = .next (recordError c 0#32 { s with inBuf := m })) :
    ∃ t, exec i s = .next t ∧ Failed t c 0 ∧ CompletionFrame s t ∧ t.draws = s.draws ∧
      ∀ m, exec i { s with inBuf := m } = .next { t with inBuf := m } :=
  ⟨recordError c 0#32 s, h s.inBuf, recordError_failed c 0 s (by decide), complete_frame (.err c 0#32) s s.draws, rfl, h⟩

/-- The arm of each reserved instruction. -/
theorem exec_reservedInstr {i : Instr} (hi : i ∈ [Instr.reservedOp0, .reservedOp5, .reservedOp6, .reservedOp7]) (s : State) :
    exec i s = .next (recordError .badCommand 0#32 s) := by
  cases i with
  | reservedOp0 | reservedOp5 | reservedOp6 | reservedOp7 => rfl
  | rleEnc | rleDec | adpComp | adpDec | tagR | tagI => simp at hi

/-- The arm of every other instruction runs a function on the input. -/
theorem exec_inputInstr {i : Instr} (hi : i ∈ [Instr.rleEnc, .rleDec, .adpComp, .adpDec, .tagR, .tagI]) :
    ∃ f, ∀ s, exec i s = .next (runCommand f s) := by
  cases i with
  | rleEnc | rleDec | adpComp | adpDec | tagR | tagI => exact ⟨_, fun _ => rfl⟩
  | reservedOp0 | reservedOp5 | reservedOp6 | reservedOp7 => simp at hi

/-- The step at an engine turn, scheduled or not, is the turn with the rest of the schedule left. -/
theorem step_complete {s : State} (hwf : s.cfg.wf = true) (hnext : s.nextEvent = .complete) :
    step s = engineTurn { s with sched := s.sched.tail } := by
  cases hs : s.sched with
  | nil =>
    have hrest : ({ s with sched := [] } : State) = s := by rw [← hs]
    simp [step, hwf, hs, hrest]
  | cons e rest =>
    obtain rfl : e = .complete := by simpa [State.nextEvent, hs] using hnext
    simp [step, hwf, hs]

/-- The eight OP values are the four commands and the four reserved ones (R91). -/
theorem notMem_commands_of_reserved {op : BitVec 3} (h : op ∈ [0#3, 5#3, 6#3, 7#3]) : op ∉ [1#3, 2#3, 3#3, 4#3] := by
  revert op; decide

/-- Only ADP_DEC reads a tag. -/
theorem atTag_eq_false {s : State} (h : s.eng.opL ≠ 4#3) : atTag s = false := by simp [atTag, h]

/-- At a reserved OP the turn of a Busy engine records BAD_COMMAND (R203). -/
theorem engineTurn_reserved {s : State} (hb : s.busy = true) (hop : s.eng.opL ∉ [1#3, 2#3, 3#3, 4#3]) :
    engineTurn s = .next (recordError .badCommand 0#32 s) := by
  have hne : s.eng.opL ≠ 4#3 := fun h4 => hop (by simp [h4])
  rw [engineTurn_command hb (atTag_eq_false hne), exec_reserved hop]

/-- Settles O37: the four arms record BAD_COMMAND without a look at the state, and a reserved op_l is at no tag. -/
theorem reservedCommandsAreBadCommands : Obligations.ReservedCommandsAreBadCommands := by
  refine ⟨fun i hi s => recordsError_beforeAnyRead fun m => exec_reservedInstr hi _, fun s hwf hb hop hnext => ?_⟩
  have hstep : step s = .next (recordError .badCommand 0#32 { s with sched := s.sched.tail }) :=
    (step_complete hwf hnext).trans (engineTurn_reserved hb (notMem_commands_of_reserved hop))
  exact ⟨_, hstep, recordError_failed .badCommand 0 _ (by decide), rfl⟩

/-- Settles O43: the length test comes before the input is read (R209). -/
theorem lengthErrorBeforeAnyRead : Obligations.LengthErrorBeforeAnyRead := by
  intro i hi s hlen
  obtain ⟨f, hexec⟩ := exec_inputInstr hi
  exact recordsError_beforeAnyRead fun m =>
    (hexec _).trans (congrArg Host.Outcome.next (runCommand_lengthError (s := { s with inBuf := m }) hlen))

/-! ### The interrupt line -/

theorem irq_iff (s : State) : s.irq = true ↔ s.done = true ∧ s.ie = true := by simp [State.irq]

theorem irq_of_done_eq_false {s : State} (h : s.done = false) : s.irq = false := by simp [State.irq, h]

theorem irq_of_ie_eq_false {s : State} (h : s.ie = false) : s.irq = false := by simp [State.irq, h]

/-- A CTRL write stores IE, with or without a START, accepted or ignored (R25). -/
theorem writeCtrl_ie (w : Word) (s : State) : (writeCtrl w s).ie = w[1] := by
  cases hw : w[0] with
  | false => rw [writeCtrl_enable hw]
  | true =>
    cases hb : s.busy with
    | false => rw [writeCtrl_start hw hb]; rfl
    | true => rw [writeCtrl_ignored hw hb]; rfl

/-- An accepted START clears DONE (R39). -/
theorem writeCtrl_start_done {w : Word} {s : State} (hb : s.busy = false) (hw : w[0] = true) : (writeCtrl w s).done = false := by
  rw [writeCtrl_start hw hb]; rfl

/-- A completion sets DONE and keeps IE, so the line is IE after it, whatever the result (R40, R212). -/
theorem exec_irq {i : Instr} {s t : State} (h : exec i s = .next t) : t.irq = s.ie := by
  obtain ⟨r, n, hexec, -⟩ := exec_complete i s
  obtain rfl : t = complete r { s with draws := s.draws + n } := Host.Outcome.next.inj (h.symm.trans hexec)
  rw [State.irq, complete_done, Bool.true_and, (complete_frame r s _).ie]

/-- Settles O34: what lowers the line clears DONE or IE, and a completion sets DONE. -/
theorem interruptLine : Obligations.InterruptLine := by
  intro s
  refine ⟨irq_iff s, fun w hw => ?_, fun w hw => ?_, fun w hb hw => ?_, fun i t => exec_irq, rfl, rfl⟩
  · have hdone : (clearStatus w s).done = false := by simp [hw]
    exact irq_of_done_eq_false hdone
  · exact irq_of_ie_eq_false ((writeCtrl_ie w s).trans hw)
  · exact irq_of_done_eq_false (writeCtrl_start_done hb hw)

end Sys2Proof.Machine
end

section
/-! Reset, the bound on a running command, and what a host can do to it (R240 to R242, R247, R252). A step takes one event off the
schedule and keeps the parameters; the port looks at the engine only in a protected write, in STATUS and in OUT. -/

namespace Sys2Proof.Machine

/-! ### The state after reset -/

/-- Settles O12: every field of the reset state is literal, and its engine is Idle. -/
theorem invariantsHoldAtReset : Obligations.InvariantsHoldAtReset := fun _ hp => ⟨inv_resetOf hp, engineInv_idle rfl⟩

/-- Only an accepted START writes the engine from the host's side, and none is accepted while BUSY (R74, R248). -/
theorem TxnEffect.eng_of_busy {t : Txn} {s u : State} (h : TxnEffect t s u) (hb : s.busy = true) : u.eng = s.eng := by
  cases h with
  | start _ _ _ hidle => exact absurd (hb.symm.trans hidle) (by decide)
  | read | ignoredStart | enable | ignored | command | length | status | input | nothing => rfl

theorem regRead_status_resetEvent (s : State) : regRead 0x0C (resetEvent s) = 0#32 := statusWord_eq _

/-- Settles O21: the step is `resetEvent`, which says what every field becomes. -/
theorem resetEventLeavesResetValues : Obligations.ResetEventLeavesResetValues := by
  intro s rest hwf hs
  obtain ⟨-, hreset, -⟩ := stepTakesTheScheduledEvent s rest hwf
  exact ⟨_, hreset hs, rfl, rfl, rfl, regRead_status_resetEvent _, rfl, rfl, rfl, rfl, rfl, rfl, rfl, rfl, fun _ => rfl,
    fun _ => rfl, rfl, rfl, fun hb tx => (hostTxn_effect tx s).eng_of_busy hb⟩

/-! ### Every step answers, and every command completes -/

/-- The step at an engine turn: nothing of an Idle engine, one completion of a Busy one (R40, R218). -/
theorem step_turn {s : State} (hwf : s.cfg.wf = true) (hnext : s.nextEvent = .complete) :
    (s.busy = false ∧ step s = .next { s with sched := s.sched.tail }) ∨
    (s.busy = true ∧ ∃ r u, step s = .next (complete r u)) := by
  rw [step_complete hwf hnext]
  rcases engineTurn_cases { s with sched := s.sched.tail } with ⟨hb, h⟩ | ⟨hb, r, n, h, -⟩
  · exact .inl ⟨hb, h⟩
  · exact .inr ⟨hb, r, _, h⟩

theorem step_answers {s : State} (hwf : s.cfg.wf = true) : ∃ t, step s = .next t := by
  by_cases hnext : s.nextEvent = .complete
  · rcases step_turn hwf hnext with ⟨-, h⟩ | ⟨-, r, u, h⟩
    · exact ⟨_, h⟩
    · exact ⟨_, h⟩
  · cases hs : s.sched with
    | nil => exact absurd (by simp [State.nextEvent, hs]) hnext
    | cons e rest =>
      obtain ⟨hhost, hreset, hwork, -, -⟩ := stepTakesTheScheduledEvent s rest hwf
      cases e with
      | host t => exact ⟨_, hhost t hs⟩
      | reset => exact ⟨_, hreset hs⟩
      | work => exact ⟨_, hwork hs⟩
      | complete => exact absurd (by simp [State.nextEvent, hs]) hnext

/-- Settles O10: whatever is scheduled has its answer, and the parameters are tested first. -/
theorem stepAlwaysAnswers : Obligations.StepAlwaysAnswers := fun s => ⟨step_answers, fun hwf => by simp [step, hwf]⟩

theorem TxnEffect.cfg_sched {t : Txn} {s u : State} (h : TxnEffect t s u) : u.cfg = s.cfg ∧ u.sched = s.sched := by
  cases h <;> exact ⟨rfl, rfl⟩

/-- Every step takes one event off the schedule, where there is one, and keeps the parameters (R43, R73). -/
theorem StepEffect.cfg_sched {s t : State} (h : StepEffect s t) : t.cfg = s.cfg ∧ t.sched = s.sched.tail := by
  cases h with
  | host tx rest hs _ hu =>
    obtain ⟨hcfg, hsched⟩ := hu.cfg_sched
    exact ⟨hcfg, by rw [hsched, hs]; rfl⟩
  | reset rest hs => exact ⟨rfl, by rw [hs]; rfl⟩
  | work rest hs =>
    rw [(workStep_internal { s with sched := rest }).frame, hs]
    exact ⟨rfl, rfl⟩
  | idle => exact ⟨rfl, rfl⟩
  | complete _ _ r n =>
    have hframe := complete_frame r { s with sched := s.sched.tail } (s.draws + n)
    exact ⟨hframe.cfg, hframe.sched⟩

/-- After an engine turn the engine is Idle; a command it completes leaves DONE set (R40). -/
theorem step_turn_idle {s : State} (hwf : s.cfg.wf = true) (hnext : s.nextEvent = .complete) :
    ∃ t, step s = .next t ∧ t.busy = false ∧ (s.busy = true → t.done = true) := by
  rcases step_turn hwf hnext with ⟨hb, h⟩ | ⟨-, r, u, h⟩
  · exact ⟨_, h, hb, fun hbusy => absurd (hb.symm.trans hbusy) (by decide)⟩
  · exact ⟨_, h, complete_busy r u, fun _ => complete_done r u⟩

/-- A run as long as the schedule ends at the engine turn of the empty one, and one more step takes it. -/
theorem run_schedule (q : List Event) : ∀ s : State, s.cfg.wf = true → s.sched = q →
    ∃ t, Sys2Proof.core.run (q.length + 1) s = .next t ∧ t.busy = false ∧ t.sched = [] := by
  induction q with
  | nil =>
    intro s hwf hs
    obtain ⟨t, hstep, hidle, -⟩ := step_turn_idle hwf (by simp [State.nextEvent, hs])
    obtain ⟨-, hsched⟩ := (step_effect hstep).2.cfg_sched
    exact ⟨t, run_next 0 hstep, hidle, by rw [hsched, hs]; rfl⟩
  | cons e q ih =>
    intro s hwf hs
    obtain ⟨u, hstep⟩ := step_answers hwf
    obtain ⟨hcfg, hsched⟩ := (step_effect hstep).2.cfg_sched
    obtain ⟨t, hrun, ht⟩ := ih u (by rwa [hcfg]) (by rw [hsched, hs]; rfl)
    exact ⟨t, (run_next _ hstep).trans hrun, ht⟩

/-- Settles O14: a completion at the turn, and induction over the schedule. -/
theorem everyCommandCompletes : Obligations.EveryCommandCompletes := by
  refine ⟨fun s hwf hb hnext => ?_, fun s hwf => run_schedule s.sched s hwf rfl⟩
  obtain ⟨t, hstep, hidle, hdone⟩ := step_turn_idle hwf hnext
  exact ⟨t, hstep, hidle, hdone hb⟩

/-! ### A START right after reset -/

/-- An accepted START with nothing else scheduled, and one step more: the turn of the command it accepts. -/
theorem run_start {s t : State} {w : Word} (hwf : s.cfg.wf = true) (hb : s.busy = false) (hw : w[0] = true)
    (hs : s.sched = [.host (.wr32 .reg 0x04#32 w)]) (hturn : engineTurn (accept { s with ie := w[1], sched := [] }) = .next t) :
    Sys2Proof.core.run 2 s = .next t := by
  obtain ⟨hhost, -⟩ := stepTakesTheScheduledEvent s [] hwf
  have haccept : hostTxn (.wr32 .reg 0x04#32 w) { s with sched := [] } = accept { s with ie := w[1], sched := [] } :=
    writeCtrl_start (s := { s with sched := [] }) hw hb
  have hstart := (hhost _ hs).trans (congrArg Host.Outcome.next haccept)
  have hcomplete := (step_complete (s := accept { s with ie := w[1], sched := [] }) hwf rfl).trans hturn
  exact (run_next 1 hstart).trans (run_next 0 hcomplete)

/-- Each of the four functions takes the empty input to the empty output. -/
theorem commandFunction_nil {op : BitVec 3} (hop : op ∈ [1#3, 2#3, 3#3, 4#3]) : commandFunction op [] = .ok [] := by
  rcases command_op_cases hop with rfl | rfl | rfl | rfl <;> rfl

/-- A command accepted with IN_LEN 0 succeeds at its turn with the empty output. -/
theorem engineTurn_accept_empty {s : State} (hwf : s.cfg.wf = true) (hop : s.op ∈ [1#3, 2#3, 3#3, 4#3])
    (hlen : s.inLen = 0#32) : ∃ t, engineTurn (accept s) = .next t ∧ Succeeded t [] := by
  have hzero : (accept s).eng.nL.toNat = 0 := by simp [hlen]
  have hin : (commandInput (accept s)).1 = [] := List.eq_nil_of_length_eq_zero ((commandInput_length _).trans hzero)
  obtain ⟨n, hrun⟩ := runCommand_completes (f := commandFunction s.op) (s := accept s) (hzero ▸ Nat.zero_le _)
  rw [hin, commandFunction_nil hop] at hrun
  have hturn : engineTurn (accept s) = .next (runCommand (commandFunction s.op) (accept s)) :=
    (engineTurn_command rfl (by simp [atTag, Engine.reset])).trans (exec_command hop)
  exact ⟨_, hturn.trans (congrArg Host.Outcome.next hrun), complete_fits_succeeded hwf (Nat.zero_le _) _⟩

/-- Settles O22: OP is 0 after reset, which is reserved; a write of CMD makes it a command, and IN_LEN is still 0. -/
theorem startAfterReset : Obligations.StartAfterReset := by
  intro p w hp hw
  refine ⟨?_, fun op hop => ?_⟩
  · have hreserved : 0#3 ∉ [1#3, 2#3, 3#3, 4#3] := by decide
    exact ⟨_, run_start hp rfl hw rfl (engineTurn_reserved rfl hreserved), recordError_failed .badCommand 0 _ (by decide)⟩
  · obtain ⟨hhost, -⟩ := stepTakesTheScheduledEvent
      { State.resetOf p with sched := [.host (.wr32 .reg 0x08#32 op), .host (.wr32 .reg 0x04#32 w)] } _ hp
    have hvalid : op.extractLsb' 0 3 ∈ [1#3, 2#3, 3#3, 4#3] := by
      simp only [List.mem_cons, List.not_mem_nil, or_false] at hop
      rcases hop with rfl | rfl | rfl | rfl <;> decide
    obtain ⟨t, hturn, hsucc⟩ := engineTurn_accept_empty
      (s := { State.resetOf p with op := op.extractLsb' 0 3, ie := w[1] }) hp hvalid rfl
    exact ⟨t, (run_next 2 (hhost _ rfl)).trans (run_start hp rfl hw rfl hturn), hsucc⟩

/-! ### What of the port depends on the engine -/

section Engine

variable {f : Engine → Engine}

/-- A lane reads the same byte whatever the engine is, and leaves the engine as it is. -/
def IgnoresEngine (lane : Nat → State → Byte × State) : Prop :=
  ∀ (f : Engine → Engine) (i : Nat) (s : State), lane i (s.mapEng f) = ((lane i s).1, (lane i s).2.mapEng f)

theorem inLane_ignoresEngine : IgnoresEngine inLane := by
  intro f i s
  by_cases hi : i < s.cfg.inCap
  · cases h : Memory.lookup s.inBuf i with
    | some b => rw [inLane_written hi h, inLane_written (s := s.mapEng f) hi h]
    | none => rw [inLane_unwritten hi h, inLane_unwritten (s := s.mapEng f) hi h]; rfl
  · rw [inLane_beyond (Nat.not_lt.1 hi), inLane_beyond (s := s.mapEng f) (Nat.not_lt.1 hi)]

theorem IgnoresEngine.readLanes {lane : Nat → State → Byte × State} (h : IgnoresEngine lane) (a : Nat) (s : State) :
    readLanes lane a (s.mapEng f) = ((readLanes lane a s).1, (readLanes lane a s).2.mapEng f) := by
  simp only [Machine.readLanes, h f]

/-- STATUS alone of the registers shows the engine (R27). -/
theorem regRead_mapEng {off : Nat} (h : off ≠ 0x0C) (s : State) : regRead off (s.mapEng f) = regRead off s := by
  unfold regRead
  split
  case h_4 => exact absurd rfl h
  all_goals rfl

theorem hostRead8_mapEng {r : Region} {off : Word} (h : ¬ ShowsBusy (.rd8 r off)) (s : State) :
    hostRead8 r off (s.mapEng f) = ((hostRead8 r off s).1, (hostRead8 r off s).2.mapEng f) := by
  cases r with
  | reg | reserved => rfl
  | inp => exact inLane_ignoresEngine f _ s
  | out => exact absurd trivial h

theorem hostRead32_mapEng {r : Region} {off : Word} (h : ¬ ShowsBusy (.rd32 r off)) (s : State) :
    hostRead32 r off (s.mapEng f) = ((hostRead32 r off s).1, (hostRead32 r off s).2.mapEng f) := by
  by_cases ha : off.toNat % 4 = 0
  · cases r with
    | reg =>
      have hoff : off.toNat ≠ 0x0C := fun hc => h (off_eq hc)
      rw [hostRead32_reg ha, hostRead32_reg ha, regRead_mapEng hoff]
    | inp => rw [inp_readsByLane.word _ _ ha, inp_readsByLane.word _ _ ha, inLane_ignoresEngine.readLanes]
    | out => exact absurd trivial h
    | reserved => rw [hostRead32_reserved, hostRead32_reserved]
  · rw [hostRead32_misaligned ha, hostRead32_misaligned ha]

/-- Of the register writes that are not protected, those of IE and of STATUS have an effect, and no look at the engine. -/
theorem hostTxn_regWrite_mapEng {off w : Word} (h : ¬ Protected (.wr32 .reg off w)) (s : State) :
    hostTxn (.wr32 .reg off w) (s.mapEng f) = (hostTxn (.wr32 .reg off w) s).mapEng f := by
  obtain ⟨hcmd, hlen, hstart⟩ : off ≠ 0x08#32 ∧ off ≠ 0x10#32 ∧ ¬ (off = 0x04#32 ∧ w[0] = true) := by
    simpa only [Protected, not_or] using h
  by_cases hctrl : off = 0x04#32
  · subst hctrl
    have hw : w[0] = false := by simpa using hstart
    show writeCtrl w (s.mapEng f) = (writeCtrl w s).mapEng f
    rw [writeCtrl_enable hw, writeCtrl_enable hw]; rfl
  · by_cases hstatus : off = 0x0C#32
    · subst hstatus; rfl
    · have hnone : NoEffect (.wr32 .reg off w) := by simp [NoEffect, hctrl, hcmd, hstatus, hlen]
      rw [hostTxn_noEffect hnone, hostTxn_noEffect hnone]

/-- Every other transaction than a protected write or a read that shows BUSY does the same whatever the engine is. -/
theorem hostTxn_mapEng {t : Txn} (hp : ¬ Protected t) (hr : ¬ ShowsBusy t) (s : State) :
    hostTxn t (s.mapEng f) = (hostTxn t s).mapEng f := by
  cases t with
  | rd8 r off => rw [hostTxn, hostRead8_mapEng hr]; rfl
  | rd32 r off => rw [hostTxn, hostRead32_mapEng hr]; rfl
  | wr8 r off d =>
    cases r with
    | reg | out | reserved => rfl
    | inp => exact absurd trivial hp
  | wr32 r off w =>
    cases r with
    | reg => exact hostTxn_regWrite_mapEng hp s
    | inp => exact absurd trivial hp
    | out | reserved => rfl

end Engine

/-! ### Host transactions while BUSY -/

/-- While BUSY, IGN is cleared by a STATUS write with bit 2 set alone (R27, R247). -/
theorem TxnEffect.ign_kept {t : Txn} {s u : State} (h : TxnEffect t s u) (hb : s.busy = true) (hign : s.ign = true)
    (ht : ∀ w : Word, w[2] = true → t ≠ .wr32 .reg 0x0C#32 w) : u.ign = true := by
  cases h with
  | start _ _ _ hidle => exact absurd (hb.symm.trans hidle) (by decide)
  | ignoredStart | ignored => rfl
  | status w htx =>
    have hw : w[2] = false := by simpa using fun hw => ht w hw htx
    simp [hign, hw]
  | read | enable | command | length | input | nothing => exact hign

/-- Settles O28: the protected writes set IGN; the others do not look at the engine, so they are as for an Idle one. -/
theorem writesIgnoredWhileBusy : Obligations.WritesIgnoredWhileBusy := by
  intro s hb
  refine ⟨fun off d => if_pos hb, fun off w => if_pos hb, fun w => if_pos hb, fun w => if_pos hb,
    fun w hw => writeCtrl_ignored hw hb, fun t hp hr => ?_, fun t => (hostTxn_effect t s).ign_kept hb⟩
  have hreset : hostTxn t { s with eng := Engine.reset } = (hostTxn t s).mapEng fun _ => Engine.reset :=
    hostTxn_mapEng (f := fun _ => Engine.reset) hp hr s
  rw [hreset, ← (hostTxn_effect t s).eng_of_busy hb]
  rfl

end Sys2Proof.Machine
end
